-- ==== Sys2Proof/Word.lean ====
section
/-! DEFINITION. The plainest value types: bytes, the shape of an element-addressed memory, and the real values the
block computes (R9, R11, R12, R36). -/

namespace Sys2Proof

/-- A byte, bits 7 (most significant) down to 0 (R9). -/
abbrev Byte := BitVec 8

/-- A memory: (element address, value) pairs. The canonical form is `Memory.wf` (Machine/Memory.lean). An address that is not
listed holds no value (R37). -/
abbrev Memory (α : Type) := List (Nat × α)

/-- A value of the spec's type `Real`, held as the expression the rules compute it by (R12). One constructor per operation of the
parameter record `NUM` (R7), one atom per real parameter. `RealTerm.eval` (Machine/Numerics.lean) gives its value in any number
format, `RealTerm.toReal` (Safety.lean) its normative value in exact reals. DESIGN CHOICE: log entry 2. -/
inductive RealTerm where
  | ofNat (n : Nat)
  | pi
  | eps
  | vmin
  | vmax
  | add (a b : RealTerm)
  | sub (a b : RealTerm)
  | mul (a b : RealTerm)
  | div (a b : RealTerm)
  | sin (a : RealTerm)
  | abs (a : RealTerm)
  /-- `if a < b then t else e` -/
  | ifLt (a b t e : RealTerm)
  deriving DecidableEq, Repr

end Sys2Proof
end

