-- ==== Sys2Proof/Config.lean ====
section
/-! DEFINITION. What an implementation of the block fixes (the parameter record P of R7) and the free values: choices the spec
leaves open, as constants without a body. -/

namespace Sys2Proof

/-- The discrete part of the parameter record P (R7): what a step reads. The real part is `RealParams`; `EPS` and the operations of
`NUM` are the atoms and constructors of `RealTerm`. `PS_RANGE(mode)` is a pair `(lo, hi)` per sampling mode. -/
structure Params where
  N : Nat
  MAXZP : Nat
  psRealTime : Nat × Nat
  psEquivalentTime : Nat × Nat
  CFG_RESET : Byte
  REAPPLY : Bool
  deriving DecidableEq, Repr

/-- The constraints of R7: a record that breaks one is not a configuration of this hardware. -/
abbrev Params.Valid (P : Params) : Prop :=
  2 ≤ P.N ∧ P.N = 2 ^ P.N.log2 ∧ P.MAXZP ≤ P.N.log2 ∧
  P.psRealTime.1 ≤ P.psRealTime.2 ∧ P.psRealTime.2 ≤ 7 ∧
  P.psEquivalentTime.1 ≤ P.psEquivalentTime.2 ∧ P.psEquivalentTime.2 ≤ 7 ∧
  P.psRealTime.1 ≤ P.psEquivalentTime.1 ∧ P.psEquivalentTime.2 ≤ P.psRealTime.2

/-- The real part of P (R7): `VMIN`, `VMAX` and `TOL`, all open. No step reads them (log entry 3): exact values and conformance take
them as an argument. -/
structure RealParams where
  VMIN : ℝ
  VMAX : ℝ
  TOL : ℝ

/-- R7's constraints on the real part. -/
def RealParams.Valid (r : RealParams) : Prop := r.VMIN < r.VMAX ∧ 0 < r.TOL

/-- The record `State.reset` carries: the defaults of R7. DESIGN CHOICE: `MAXZP = 8 = log2 256`, for which R7 gives no default
(log entry 1). -/
def Params.default : Params where
  N := 256
  MAXZP := 8
  psRealTime := (0, 7)
  psEquivalentTime := (0, 7)
  CFG_RESET := 0x00
  REAPPLY := false

/-- Free value: which of the enabled events a step takes when several are on offer (R289, U8), applied to the counter
`State.free`. Log entry 8. -/
opaque Config.arbiter : Nat → Nat

/-- Free value: whether the `TX` write of a retune command meets a link error that is on offer while `RXEN = 1` (R283: the write
"may fail with it"), applied to the counter `State.free`. Log entry 14. -/
opaque Config.txMeetsError : Nat → Bool

end Sys2Proof
end

