-- ==== Sys2Proof/Syntax.lean ====
section
/-! DEFINITION. The types of R11 and the operation set of R3: one constructor of `Instr` per row of spec/opcode_table.json. -/

namespace Sys2Proof

/-- R11, R93: bit value 0 is the first constructor. -/
inductive SamplingMode where
  | realTime
  | equivalentTime
  deriving DecidableEq, Repr

/-- R11, R93. -/
inductive TriggerMode where
  | auto
  | normal
  deriving DecidableEq, Repr

/-- R11, R93. -/
inductive Slope where
  | falling
  | rising
  deriving DecidableEq, Repr

/-- R11, R25: 0 `Linear`, 1 `Sinc`. -/
inductive Interp where
  | linear
  | sinc
  deriving DecidableEq, Repr

/-- The operand of the step commands (R103): +1 or -1. -/
inductive StepDir where
  | up
  | down
  deriving DecidableEq, Repr

/-- The spec's record `Config` (R11), the source's `AcquisitionConfig`. `channelCount` is held as the two bits of `channelCount - 1`
(R94), so that every value of the type is a `Config` (R126). -/
structure AcqConfig where
  samplingMode : SamplingMode
  triggerMode : TriggerMode
  channelCountMinus1 : BitVec 2
  triggerSlope : Slope
  prescale : BitVec 3
  deriving DecidableEq, Repr

/-- `channelCount`, 1..4 (R94). -/
def AcqConfig.channelCount (c : AcqConfig) : Nat := c.channelCountMinus1.toNat + 1

/-- R11: `samples` is `channelCount` sequences of `N` bytes, present when the frame is ready. -/
structure Frame where
  config : AcqConfig
  ready : Bool
  samples : Option (List (List Byte))
  deriving DecidableEq, Repr

/-- R11, R26. -/
inductive FsState where
  | idle
  | hunt
  | ctrl
  | flag
  | payload
  deriving DecidableEq, Repr

/-- The operations of R3 and the named sub-procedures of R106, one constructor per row of the opcode table, in its order. -/
inductive Instr where
  /-- DECODE, R121 -/
  | decode (b : Byte)
  /-- ENCODE, R124 -/
  | encode (c : AcqConfig)
  /-- RX.SKIP, R142 -/
  | rxSkip (b : Byte)
  /-- RX.SYNC, R143 -/
  | rxSync
  /-- RX.CTRL, R145 -/
  | rxCtrl (b : Byte)
  /-- RX.FLAG0, R146 -/
  | rxFlag0
  /-- RX.FLAG1, R147 -/
  | rxFlag1
  /-- RX.FLAGX, R148 -/
  | rxFlagX (b : Byte)
  /-- RX.DATA, R149 -/
  | rxData (b : Byte)
  /-- SET_CHANNELS, R242 -/
  | setChannels (n : BitVec 4)
  /-- SET_SLOPE, R243 -/
  | setSlope (e : Slope)
  /-- SET_TRIGMODE, R244 -/
  | setTrigMode (m : TriggerMode)
  /-- SET_SAMPMODE, R246 -/
  | setSampMode (m : SamplingMode)
  /-- STEP_PRESCALE, R247 -/
  | stepPrescale (d : StepDir)
  /-- STEP_ZOOM, R250 -/
  | stepZoom (d : StepDir)
  /-- SET_INTERP, R251 -/
  | setInterp (m : Interp)
  /-- TOGGLE_RUN, R252 -/
  | toggleRun
  /-- ARM_SINGLE, R254 -/
  | armSingle
  /-- DUMP_RAW, R256 -/
  | dumpRaw
  /-- QUIT, R257 -/
  | quit
  /-- CMD.RESERVED, R258 -/
  | cmdReserved (w : Byte)
  /-- FRAME.EMIT, R150 -/
  | frameEmit (w : Byte) (ready : Bool)
  /-- TOVOLT, R171 -/
  | toVolt (raw : Byte)
  /-- SINC, R181 -/
  | sinc (x : RealTerm)
  /-- KBUILD, R186 -/
  | kbuild
  /-- ILIN of channel `c` at zoom factor `z`, R203 -/
  | ilin (c : BitVec 2) (z : Nat)
  /-- ISINC of channel `c` at zoom power `p`, R205 -/
  | isinc (c : BitVec 2) (p : Nat)
  /-- RESAMPLE, R210 -/
  | resample
  /-- EV.FRAME, R231 -/
  | evFrame (fr : Frame)
  /-- EV.FRAME.NOTREADY, R232 -/
  | evFrameNotReady (fr : Frame)
  /-- EV.FRAME.READY, R233 -/
  | evFrameReady (fr : Frame)
  /-- SINGLE.DONE, R235 -/
  | singleDone
  /-- RETUNE, R240 -/
  | retune (c : AcqConfig)
  /-- UNFREEZE, R253 -/
  | unfreeze
  /-- EV.TIMEOUT, R245 -/
  | evTimeout
  /-- EV.LINKERR, R283 -/
  | evLinkErr
  /-- EV.RESET, R310 -/
  | evReset (chanOk dispOk : Bool)
  deriving DecidableEq, Repr

/-- The row's mnemonic in spec/opcode_table.json. -/
def Instr.mnemonic : Instr → String
  | .decode _ => "DECODE"
  | .encode _ => "ENCODE"
  | .rxSkip _ => "RX.SKIP"
  | .rxSync => "RX.SYNC"
  | .rxCtrl _ => "RX.CTRL"
  | .rxFlag0 => "RX.FLAG0"
  | .rxFlag1 => "RX.FLAG1"
  | .rxFlagX _ => "RX.FLAGX"
  | .rxData _ => "RX.DATA"
  | .setChannels _ => "SET_CHANNELS"
  | .setSlope _ => "SET_SLOPE"
  | .setTrigMode _ => "SET_TRIGMODE"
  | .setSampMode _ => "SET_SAMPMODE"
  | .stepPrescale _ => "STEP_PRESCALE"
  | .stepZoom _ => "STEP_ZOOM"
  | .setInterp _ => "SET_INTERP"
  | .toggleRun => "TOGGLE_RUN"
  | .armSingle => "ARM_SINGLE"
  | .dumpRaw => "DUMP_RAW"
  | .quit => "QUIT"
  | .cmdReserved _ => "CMD.RESERVED"
  | .frameEmit _ _ => "FRAME.EMIT"
  | .toVolt _ => "TOVOLT"
  | .sinc _ => "SINC"
  | .kbuild => "KBUILD"
  | .ilin _ _ => "ILIN"
  | .isinc _ _ => "ISINC"
  | .resample => "RESAMPLE"
  | .evFrame _ => "EV.FRAME"
  | .evFrameNotReady _ => "EV.FRAME.NOTREADY"
  | .evFrameReady _ => "EV.FRAME.READY"
  | .singleDone => "SINGLE.DONE"
  | .retune _ => "RETUNE"
  | .unfreeze => "UNFREEZE"
  | .evTimeout => "EV.TIMEOUT"
  | .evLinkErr => "EV.LINKERR"
  | .evReset _ _ => "EV.RESET"

end Sys2Proof
end

