-- ==== Sys2Proof/WellFormed.lean ====
section
/-! DEFINITION. Which operands of an operation the spec allows. What the types of Syntax.lean already rule out (a channel count
of 5, a prescale of 8, a step of 2) needs no check here. -/

namespace Sys2Proof

/-- A reserved command word (R104): its `OP` is 0x0, 0xB, 0xC, 0xD or 0xE, or its `ARG` is not a legal one of R102. -/
def reservedCommand (w : Byte) : Bool :=
  let op := w.toNat / 16
  let arg := w.toNat % 16
  if op = 1 then !(1 ≤ arg && arg ≤ 4)
  else if op = 5 || op = 6 then !(arg = 1 || arg = 15)
  else if op = 2 || op = 3 || op = 4 || op = 7 then 1 < arg
  else if op = 8 || op = 9 || op = 10 || op = 15 then arg ≠ 0
  else true

/-- A frame is a value of R11: samples are present exactly when it is ready, in `channelCount` sequences of one common length
(the length `N` is a parameter and is checked where the frame is used). -/
def Frame.wf (fr : Frame) : Bool :=
  match fr.ready, fr.samples with
  | false, none => true
  | true, some rows =>
    rows.length == fr.config.channelCount && rows.all (fun r => r.length == (rows.headD []).length)
  | _, _ => false

/-- A zoom factor is a power of two (R203). -/
def zoomFactor (z : Nat) : Bool := z != 0 && z == 2 ^ z.log2

/-- The operands the spec allows. `RX.SKIP`: a byte that is not 0 (R142). `RX.FLAGX`: 0x02..0xFF (R148). `SET_CHANNELS`: 1..4
(R242). `CMD.RESERVED`: a reserved word (R104). `ILIN`: a power of two (R203). -/
def Instr.wf : Instr → Bool
  | .rxSkip b => b != 0
  | .rxFlagX b => 2 ≤ b.toNat
  | .setChannels n => 1 ≤ n.toNat && n.toNat ≤ 4
  | .cmdReserved w => reservedCommand w
  | .ilin _ z => zoomFactor z
  | .evFrame fr => fr.wf
  | .evFrameNotReady fr => fr.wf && !fr.ready
  | .evFrameReady fr => fr.wf && fr.ready
  | .decode _ | .encode _ | .rxSync | .rxCtrl _ | .rxFlag0 | .rxFlag1 | .rxData _ | .setSlope _ | .setTrigMode _
  | .setSampMode _ | .stepPrescale _ | .stepZoom _ | .setInterp _ | .toggleRun | .armSingle | .dumpRaw | .quit
  | .frameEmit _ _ | .toVolt _ | .sinc _ | .kbuild | .isinc _ _ | .resample | .singleDone | .retune _ | .unfreeze
  | .evTimeout | .evLinkErr | .evReset _ _ => true

end Sys2Proof
end

