-- ==== Sys2Proof/Decode.lean ====
section
/-! DEFINITION. The control-word codec (R92-R95, R121, R124), the selection of an operation by a byte and its context (R99, R102,
R106), the encoder written from the same tables, and R106's machine-readable table. -/

namespace Sys2Proof

/-! ## The control word, format CW -/

/-- Bit 7 (R93). -/
def samplingModeOfBit (x : Bool) : SamplingMode := if x then .equivalentTime else .realTime
/-- Bit 6 (R93). -/
def triggerModeOfBit (x : Bool) : TriggerMode := if x then .normal else .auto
/-- Bit 3 (R93). -/
def slopeOfBit (x : Bool) : Slope := if x then .rising else .falling
/-- R25. -/
def interpOfBit (x : Bool) : Interp := if x then .sinc else .linear

/-- R93. -/
def SamplingMode.bit : SamplingMode → BitVec 1
  | .realTime => 0
  | .equivalentTime => 1
/-- R93. -/
def TriggerMode.bit : TriggerMode → BitVec 1
  | .auto => 0
  | .normal => 1
/-- R93. -/
def Slope.bit : Slope → BitVec 1
  | .falling => 0
  | .rising => 1
/-- R25. -/
def Interp.bit : Interp → BitVec 1
  | .linear => 0
  | .sinc => 1

/-- `DECODE(b)` (R121): total, every byte is a legal control word (R96, R122). -/
def decodeCW (b : Byte) : AcqConfig where
  samplingMode := samplingModeOfBit (b.getLsbD 7)
  triggerMode := triggerModeOfBit (b.getLsbD 6)
  channelCountMinus1 := b.extractLsb 5 4
  triggerSlope := slopeOfBit (b.getLsbD 3)
  prescale := b.extractLsb 2 0

/-- `ENCODE(c)` (R124): the fields of R92 from bit 7 down. -/
def encodeCW (c : AcqConfig) : Byte :=
  (c.samplingMode.bit ++ c.triggerMode.bit ++ c.channelCountMinus1 ++ c.triggerSlope.bit ++ c.prescale : BitVec 8)

/-! ## Selection by a byte and its context -/

/-- Where a byte stands when it selects an operation: the opcode table's `context` (R106). A control word selects none: `DECODE` and
`ENCODE` have no encoding (R90, R120; log entry 24), and their fields are `decodeCW` and `encodeCW`. -/
inductive Ctx where
  /-- a byte received on `RX` in the given state of the frame synchronizer -/
  | rx (fs : FsState)
  /-- a command word on `CMD` -/
  | cmd
  deriving DecidableEq, Repr

/-- The command word `w` (R102, R103, R104): `OP` is bits 7:4, `ARG` bits 3:0; a word no other row takes is `CMD.RESERVED`. -/
def decodeCmd (w : Byte) : Instr :=
  let op : BitVec 4 := w.extractLsb 7 4
  let arg : BitVec 4 := w.extractLsb 3 0
  if op = 0x1 then if 1 ≤ arg.toNat ∧ arg.toNat ≤ 4 then .setChannels arg else .cmdReserved w
  else if op = 0x2 then if arg = 0 ∨ arg = 1 then .setSlope (slopeOfBit (arg.getLsbD 0)) else .cmdReserved w
  else if op = 0x3 then if arg = 0 ∨ arg = 1 then .setTrigMode (triggerModeOfBit (arg.getLsbD 0)) else .cmdReserved w
  else if op = 0x4 then if arg = 0 ∨ arg = 1 then .setSampMode (samplingModeOfBit (arg.getLsbD 0)) else .cmdReserved w
  else if op = 0x5 then
    if arg = 0x1 then .stepPrescale .up else if arg = 0xF then .stepPrescale .down else .cmdReserved w
  else if op = 0x6 then
    if arg = 0x1 then .stepZoom .up else if arg = 0xF then .stepZoom .down else .cmdReserved w
  else if op = 0x7 then if arg = 0 ∨ arg = 1 then .setInterp (interpOfBit (arg.getLsbD 0)) else .cmdReserved w
  else if op = 0x8 then if arg = 0 then .toggleRun else .cmdReserved w
  else if op = 0x9 then if arg = 0 then .armSingle else .cmdReserved w
  else if op = 0xA then if arg = 0 then .dumpRaw else .cmdReserved w
  else if op = 0xF then if arg = 0 then .quit else .cmdReserved w
  else .cmdReserved w

/-- The operation a received byte selects together with `FS` (R99). Total. -/
def decodeRx (fs : FsState) (b : Byte) : Instr :=
  match fs with
  | .idle | .hunt => if b = 0 then .rxSync else .rxSkip b
  | .ctrl => .rxCtrl b
  | .flag => if b = 0 then .rxFlag0 else if b = 1 then .rxFlag1 else .rxFlagX b
  | .payload => .rxData b

/-- The operation byte `b` selects in context `x` (R99, R102, R106). Total: every byte selects one operation in every context. -/
def decodeAt (x : Ctx) (b : Byte) : Instr :=
  match x with
  | .rx fs => decodeRx fs b
  | .cmd => decodeCmd b

/-- Why a sequence of bytes decodes to no operation. -/
inductive DecodeError where
  /-- there is no byte yet: the block waits for one (R154 "block") -/
  | noByte
  deriving DecidableEq, Repr

/-- The first operation of a byte sequence in context `x`, with the bytes that are left. Every operation of the three byte formats
is one byte long (R98: a frame is a sequence of such operations). -/
def decodeBytes (x : Ctx) : List Byte → Except DecodeError (Instr × List Byte)
  | [] => .error .noByte
  | b :: rest => .ok (decodeAt x b, rest)

/-- The host's question: the operation of an instruction whose bits are `w`. The words that come as instructions are command
words, so the context is the `CMD` port (log entry 17). -/
def decodeTableWord (nbits w : Nat) : Option Instr :=
  if nbits = 8 ∧ w < 256 then some (decodeAt .cmd (BitVec.ofNat 8 w)) else none

/-! ## The encoder -/

/-- `OP ++ ARG` (R101). -/
def commandWord (op arg : BitVec 4) : Byte := (op ++ arg : BitVec 8)

/-- `ARG` of a step command (R103). -/
def StepDir.arg : StepDir → BitVec 4
  | .up => 0x1
  | .down => 0xF

/-- The byte of an operation that has an encoding; none for the operations of format INTERNAL (R90). -/
def encode : Instr → Option Byte
  | .rxSkip b => some b
  | .rxSync => some 0x00
  | .rxCtrl b => some b
  | .rxFlag0 => some 0x00
  | .rxFlag1 => some 0x01
  | .rxFlagX b => some b
  | .rxData b => some b
  | .setChannels n => some (commandWord 0x1 n)
  | .setSlope e => some (commandWord 0x2 (e.bit.setWidth 4))
  | .setTrigMode m => some (commandWord 0x3 (m.bit.setWidth 4))
  | .setSampMode m => some (commandWord 0x4 (m.bit.setWidth 4))
  | .stepPrescale d => some (commandWord 0x5 d.arg)
  | .stepZoom d => some (commandWord 0x6 d.arg)
  | .setInterp m => some (commandWord 0x7 (m.bit.setWidth 4))
  | .toggleRun => some (commandWord 0x8 0)
  | .armSingle => some (commandWord 0x9 0)
  | .dumpRaw => some (commandWord 0xA 0)
  | .quit => some (commandWord 0xF 0)
  | .cmdReserved w => some w
  | .decode _ | .encode _ | .frameEmit _ _ | .toVolt _ | .sinc _ | .kbuild | .ilin _ _ | .isinc _ _ | .resample | .evFrame _
  | .evFrameNotReady _ | .evFrameReady _ | .singleDone | .retune _ | .unfreeze | .evTimeout | .evLinkErr
  | .evReset _ _ => none

/-- The contexts in which an operation is selected by its byte: the opcode table's `context` (R99, R106). -/
def Instr.contexts : Instr → List Ctx
  | .rxSkip _ | .rxSync => [.rx .idle, .rx .hunt]
  | .rxCtrl _ => [.rx .ctrl]
  | .rxFlag0 | .rxFlag1 | .rxFlagX _ => [.rx .flag]
  | .rxData _ => [.rx .payload]
  | .setChannels _ | .setSlope _ | .setTrigMode _ | .setSampMode _ | .stepPrescale _ | .stepZoom _ | .setInterp _
  | .toggleRun | .armSingle | .dumpRaw | .quit | .cmdReserved _ => [.cmd]
  | .decode _ | .encode _ | .frameEmit _ _ | .toVolt _ | .sinc _ | .kbuild | .ilin _ _ | .isinc _ _ | .resample | .evFrame _
  | .evFrameNotReady _ | .evFrameReady _ | .singleDone | .retune _ | .unfreeze | .evTimeout | .evLinkErr
  | .evReset _ _ => []

/-! ## R106's table -/

/-- A row of the opcode table that selects an operation: byte `b` selects it in context `x` when `x ∈ contexts`,
`b AND mask = bits` and `constraint b` hold. -/
structure OpcodeRow where
  mnemonic : String
  contexts : List Ctx
  bits : Byte
  mask : Byte
  constraint : Byte → Bool

/-- The rows of the two ports' formats, RXBYTE and CMDW, in file order (log entry 24 on the two rows of format CW). -/
def opcodeRows : List OpcodeRow :=
  [⟨"RX.SKIP", [.rx .idle, .rx .hunt], 0, 0, fun b => b != 0⟩,
   ⟨"RX.SYNC", [.rx .idle, .rx .hunt], 0, 255, fun _ => true⟩,
   ⟨"RX.CTRL", [.rx .ctrl], 0, 0, fun _ => true⟩,
   ⟨"RX.FLAG0", [.rx .flag], 0, 255, fun _ => true⟩,
   ⟨"RX.FLAG1", [.rx .flag], 1, 255, fun _ => true⟩,
   ⟨"RX.FLAGX", [.rx .flag], 0, 0, fun b => 2 ≤ b.toNat⟩,
   ⟨"RX.DATA", [.rx .payload], 0, 0, fun _ => true⟩,
   ⟨"SET_CHANNELS", [.cmd], 16, 240, fun b => 1 ≤ b.toNat % 16 && b.toNat % 16 ≤ 4⟩,
   ⟨"SET_SLOPE", [.cmd], 32, 254, fun _ => true⟩,
   ⟨"SET_TRIGMODE", [.cmd], 48, 254, fun _ => true⟩,
   ⟨"SET_SAMPMODE", [.cmd], 64, 254, fun _ => true⟩,
   ⟨"STEP_PRESCALE", [.cmd], 80, 240, fun b => b.toNat % 16 == 1 || b.toNat % 16 == 15⟩] ++
  [⟨"STEP_ZOOM", [.cmd], 96, 240, fun b => b.toNat % 16 == 1 || b.toNat % 16 == 15⟩,
   ⟨"SET_INTERP", [.cmd], 112, 254, fun _ => true⟩,
   ⟨"TOGGLE_RUN", [.cmd], 128, 255, fun _ => true⟩,
   ⟨"ARM_SINGLE", [.cmd], 144, 255, fun _ => true⟩,
   ⟨"DUMP_RAW", [.cmd], 160, 255, fun _ => true⟩,
   ⟨"QUIT", [.cmd], 240, 255, fun _ => true⟩,
   ⟨"CMD.RESERVED", [.cmd], 0, 0, fun _ => true⟩]

/-- The row takes byte `b` in context `x`. -/
def OpcodeRow.takes (r : OpcodeRow) (x : Ctx) (b : Byte) : Bool :=
  r.contexts.contains x && (b &&& r.mask) == r.bits && r.constraint b

/-- "Rows are tried in file order and the first whose context, match, mask and constraint hold is taken" (R106). -/
def firstRow (x : Ctx) (b : Byte) : Option OpcodeRow := opcodeRows.find? (·.takes x b)

end Sys2Proof
end

