-- ==== Sys2Proof/Machine/Memory.lean ====
section
/-! DEFINITION. The operations on an element-addressed memory: `MemRead` and `MemWrite` of R10. An unlisted address holds no
value (R37), so reading it answers `none`. -/

namespace Sys2Proof

/-- The canonical form: addresses strictly rising. (No entry can equal what an unlisted address reads as: that is no value.) -/
abbrev Memory.wf {α : Type} (m : Memory α) : Prop := (m.map Prod.fst).Pairwise (· < ·)

/-- The value at element address `a`; none where no value is held (R37). -/
def Memory.read {α : Type} : Memory α → Nat → Option α
  | [], _ => none
  | (b, v) :: rest, a => if a = b then some v else if a < b then none else Memory.read rest a

/-- `FILE[a] <- v`. -/
def Memory.write {α : Type} : Memory α → Nat → α → Memory α
  | [], a, v => [(a, v)]
  | (b, w) :: rest, a, v =>
    if a < b then (a, v) :: (b, w) :: rest
    else if a = b then (a, v) :: rest
    else (b, w) :: Memory.write rest a v

/-- `MemRead(space, a, n)` (R10): `n` consecutive elements; none if one of them holds no value. -/
def Memory.readN {α : Type} (m : Memory α) (a : Nat) : Nat → Option (List α)
  | 0 => some []
  | n + 1 =>
    match m.read a, Memory.readN m (a + 1) n with
    | some v, some vs => some (v :: vs)
    | _, _ => none

/-- `MemWrite(space, a, n, v)` (R10): the list's elements at consecutive addresses from `a`. -/
def Memory.writeN {α : Type} (m : Memory α) (a : Nat) : List α → Memory α
  | [] => m
  | v :: vs => Memory.writeN (m.write a v) (a + 1) vs

/-- `FILE[c][0..N-1]` for `c` in `[c0, c0 + n)`, row `c` at element address `c * N` (R36). -/
def Memory.readRows {α : Type} (m : Memory α) (N c0 : Nat) : Nat → Option (List (List α))
  | 0 => some []
  | n + 1 =>
    match m.readN (c0 * N) N, Memory.readRows m N (c0 + 1) n with
    | some r, some rs => some (r :: rs)
    | _, _ => none

/-- The memory that holds `f a` at the addresses `a` in `[start, start + n)` and nothing else. -/
def Memory.tabulate {α : Type} (f : Nat → α) (start : Nat) : Nat → Memory α
  | 0 => []
  | n + 1 => (start, f start) :: Memory.tabulate f (start + 1) n

/-- The memory that holds the list's elements at addresses 0, 1, ... and nothing else. -/
def Memory.ofList {α : Type} (start : Nat) : List α → Memory α
  | [] => []
  | v :: vs => (start, v) :: Memory.ofList (start + 1) vs

/-- Elements at addresses `n` and above lose their value (R37, R233). -/
def Memory.dropFrom {α : Type} (m : Memory α) (n : Nat) : Memory α := m.filter (fun e => e.1 < n)

end Sys2Proof
end

