-- ==== Sys2Proof/Machine/Numerics.lean ====
section
/-! DEFINITION. Real arithmetic of the rules: the parameter record `NUM` (R7, R12), the value of a `RealTerm` in it, and the
formulas of TOVOLT, SINC, the kernel table, ILIN and ISINC, in the evaluation order of D8. -/

namespace Sys2Proof

/-- The record `NUM` (R7, U9): a number type and its total operations. -/
structure Num (R : Type) where
  ofNat : Nat → R
  pi : R
  eps : R
  vmin : R
  vmax : R
  add : R → R → R
  sub : R → R → R
  mul : R → R → R
  div : R → R → R
  sin : R → R
  abs : R → R
  lt : R → R → Bool

/-- The value of a `RealTerm` in a number type. -/
def RealTerm.eval {R : Type} (n : Num R) : RealTerm → R
  | .ofNat k => n.ofNat k
  | .pi => n.pi
  | .eps => n.eps
  | .vmin => n.vmin
  | .vmax => n.vmax
  | .add a b => n.add (a.eval n) (b.eval n)
  | .sub a b => n.sub (a.eval n) (b.eval n)
  | .mul a b => n.mul (a.eval n) (b.eval n)
  | .div a b => n.div (a.eval n) (b.eval n)
  | .sin a => n.sin (a.eval n)
  | .abs a => n.abs (a.eval n)
  | .ifLt a b t e => if n.lt (a.eval n) (b.eval n) then t.eval n else e.eval n

/-- The implementation format R7 names: IEEE 754 binary64, with pi and EPS the format's nearest values (D9, D39) and the library's
`sin`. The step never evaluates a `RealTerm`; this record is for running a state's values. -/
def Num.binary64 (vmin vmax : Float) : Num Float where
  ofNat := Float.ofNat
  pi := 3.141592653589793
  eps := 0.001
  vmin := vmin
  vmax := vmax
  add := (· + ·)
  sub := (· - ·)
  mul := (· * ·)
  div := (· / ·)
  sin := Float.sin
  abs := Float.abs
  lt a b := decide (a < b)

/-- `TOVOLT(raw) = VMIN + (VMAX - VMIN) * (raw / 255)` (R171). -/
def RealTerm.toVolt (raw : Byte) : RealTerm :=
  .add .vmin (.mul (.sub .vmax .vmin) (.div (.ofNat raw.toNat) (.ofNat 255)))

/-- `SINC(x) = if |x| > EPS then sin(x) / x else 1` (R181). -/
def RealTerm.sinc (x : RealTerm) : RealTerm :=
  .ifLt .eps (.abs x) (.div (.sin x) x) (.ofNat 1)

/-- `KERN[p][k*z + l][m] = SINC(pi * ((k + l/z) - m))` with `z = 2^p` (R184, R185, R186), `r = k*z + l`. -/
def kernelEntry (p r m : Nat) : RealTerm :=
  .sinc (.mul .pi (.sub (.add (.ofNat (r / 2 ^ p)) (.div (.ofNat (r % 2 ^ p)) (.ofNat (2 ^ p)))) (.ofNat m)))

/-- The entry at element address `(p*N + r)*N + m` of `KERN` (R36). -/
def kernelAt (N a : Nat) : RealTerm := kernelEntry (a / (N * N)) (a / N % N) (a % N)

/-- Apply a partial function to every element of a list; none if one application has no value. -/
def collect {α β : Type} (f : α → Option β) : List α → Option (List β)
  | [] => some []
  | a :: as =>
    match f a, collect f as with
    | some b, some bs => some (b :: bs)
    | _, _ => none

/-- The output grid (R201): the pairs `(k, l)`, `k` in `[0, N/z)`, `l` in `[0, z)`, in the order of the loops, which is the order
of the output index `k*z + l`. -/
def grid (N z : Nat) : List (Nat × Nat) :=
  (List.range (N / z)).flatMap (fun k => (List.range z).map (fun l => (k, l)))

/-- One output of ILIN (R203): a copy at `l = 0`, else `s[k] + (s[k+1] - s[k]) * (l / z)`. -/
def ilinAt (z : Nat) (s : List RealTerm) (kl : Nat × Nat) : Option RealTerm :=
  if kl.2 = 0 then s[kl.1]?
  else
    match s[kl.1]?, s[kl.1 + 1]? with
    | some a, some b => some (.add a (.mul (.sub b a) (.div (.ofNat kl.2) (.ofNat z))))
    | _, _ => none

/-- `ILIN(z, s)` (R203): the outputs in index order. -/
def ilin (N z : Nat) (s : List RealTerm) : Option (List RealTerm) := collect (ilinAt z s) (grid N z)

/-- One output of ISINC (R205): `s[0] + sum over m of (s[m] - s[0]) * row[m]`, accumulated from `m = 0` upward starting from 0. -/
def isincSum (s0 : RealTerm) (s row : List RealTerm) : RealTerm :=
  .add s0 ((s.zip row).foldl (fun acc e => .add acc (.mul (.sub e.1 s0) e.2)) (.ofNat 0))

/-- `ISINC(p, s)` (R205): `row r` is `KERN[p][r][0..N-1]`. -/
def isinc (N p : Nat) (row : Nat → Option (List RealTerm)) (s : List RealTerm) : Option (List RealTerm) :=
  collect (fun kl =>
    match s[0]?, row (kl.1 * 2 ^ p + kl.2) with
    | some s0, some w => some (isincSum s0 s w)
    | _, _ => none) (grid N (2 ^ p))

end Sys2Proof
end

