-- ==== Sys2Proof/Machine/State.lean ====
section
/-! DEFINITION. The state of the block (R20), the environment's offers and the block's emissions as plain data, the reasons a
step can stop, and the state after reset (R50). -/

namespace Sys2Proof.Machine

/-- `SYNC` (R27). -/
inductive SyncState where
  | unsync
  | notReady
  | ready
  deriving DecidableEq, Repr

/-- `HALT` (R33): codes 0, 1, 2, 3 in this order. -/
inductive HaltCause where
  | none
  | quit
  | startup
  | link
  deriving DecidableEq, Repr

/-- The five register files (R36). -/
inductive Space where
  | fbuf
  | raw
  | volt
  | disp
  | kern
  deriving DecidableEq, Repr

/-- The value `DISPOUT` carries (R45, R236). -/
structure Snapshot where
  fresh : Bool
  sync : SyncState
  cfg : AcqConfig
  zp : Nat
  interp : Interp
  nch : Nat
  trace : List (List RealTerm)
  deriving DecidableEq, Repr

/-- The value `DUMPOUT` carries (R45, R256). -/
structure Dump where
  cfg : AcqConfig
  nch : Nat
  raw : List (List Byte)
  deriving DecidableEq, Repr

/-- An emission on an output port (R45). -/
inductive Out where
  | tx (b : Byte)
  | dispout (s : Snapshot)
  | dumpout (d : Dump)
  | rxflush
  | exit (h : HaltCause)
  deriving DecidableEq, Repr

/-- What the environment has on offer (R46, R47): the receive backlog and the command queue, oldest first, and whether a timeout,
a link error or a reset is offered. The block writes it only by consuming an event and by `RXFLUSH`. Log entry 7. -/
structure Env where
  rx : List Byte
  cmd : List Byte
  tmo : Bool
  lerr : Bool
  /-- `RST(chan_ok, disp_ok)` -/
  rst : Option (Bool × Bool)
  deriving DecidableEq, Repr

/-- The value a value-returning operation answered (DECODE, ENCODE, TOVOLT, SINC). Log entry 13. -/
inductive OpResult where
  | none
  | config (c : AcqConfig)
  | byte (b : Byte)
  | real (x : RealTerm)
  deriving DecidableEq, Repr

/-- The state: the parameter record, the block's registers and files under the spec's names, the environment's offers, and the
model's own bookkeeping. -/
structure State where
  /-- the parameter record (R7, R21); no step writes it; log entry 1 -/
  P : Params
  /-- R23 -/
  CFG : Byte
  /-- R24 -/
  ZP : Nat
  /-- R25 -/
  INTERP : Interp
  /-- R27 -/
  SYNC : SyncState
  /-- R28 -/
  RUN : Bool
  /-- R29 -/
  SSA : Bool
  /-- R30 -/
  RXEN : Bool
  /-- R31 -/
  KVALID : Bool
  /-- R32 -/
  RAWV : Bool
  /-- the two bits `NCH - 1`, R32 -/
  nchM1 : BitVec 2
  /-- R33 -/
  HALT : HaltCause
  /-- R26 -/
  FS : FsState
  /-- R35 -/
  FCW : Byte
  /-- R35 -/
  CI : BitVec 2
  /-- R35 -/
  SI : Nat
  /-- R36, element `c*N + i` -/
  FBUF : Memory Byte
  /-- R36, element `c*N + i` -/
  RAW : Memory Byte
  /-- R36, element `c*N + i` -/
  VOLT : Memory RealTerm
  /-- R36, element `c*N + j` -/
  DISP : Memory RealTerm
  /-- R36, element `(p*N + r)*N + m` -/
  KERN : Memory RealTerm
  /-- the environment's, R21, R47 -/
  env : Env
  /-- everything emitted so far, oldest first; log entry 12 -/
  out : List Out
  /-- log entry 13 -/
  ret : OpResult
  /-- the counter the free values of Config are applied to; log entry 8 -/
  free : Nat
  deriving DecidableEq, Repr

/-- `NCH`, 1..4 (R32). -/
def State.NCH (s : State) : Nat := s.nchM1.toNat + 1

/-- Why the machine stops. -/
inductive Fault where
  /-- A step of a block halted by `StartupError` with no reset on offer (R296: "a halted state as terminal and ... as a fault").
  Raised by `step`. Safe: nothing runs after it. -/
  | startupError
  /-- A step of a block halted by `LinkError` with no reset on offer (R296). Raised by `step`. Safe: nothing runs after it. -/
  | linkError
  /-- A read of an element that holds no value (R37, U5). Raised by every operation that reads a file; no step from a state that
  meets the invariant raises it. Safe. -/
  | noValue (sp : Space)
  /-- A write of an element outside the file's shape (R36, R76). Raised by `RX.DATA` when `SI >= N`; no step from a state that meets
  the invariant raises it. Safe. -/
  | noSuchElement (sp : Space)
  /-- `ISINC` or `RESAMPLE` while `KVALID = 0` (R205, R210, R322). No step from a state that meets the invariant raises it. Safe. -/
  | kernelNotBuilt
  /-- `RESAMPLE` while `RAWV = 0` (R210). No step raises it. Safe. -/
  | noTrace
  /-- `EV.FRAME.READY` of a frame whose samples are not `channelCount` sequences of `N` bytes, which is no `Frame` (R11). No step
  raises it. Safe. -/
  | frameShape
  deriving DecidableEq, Repr

/-- An instruction without a meaning. -/
inductive Refusal where
  /-- Raised by `exec` for an instruction the model does not give a meaning. Safe: no claim about it can be proved. -/
  | notModelled (mnemonic : String)
  deriving DecidableEq, Repr

/-- `KERN` as `KBUILD` leaves it (R184, R186). -/
def kernelTable (P : Params) : Memory RealTerm := Memory.tabulate (kernelAt P.N) 0 ((P.MAXZP + 1) * P.N * P.N)

/-- The environment offers nothing. -/
def Env.quiet : Env where
  rx := []
  cmd := []
  tmo := false
  lerr := false
  rst := none

/-- The state after a successful reset with parameters `P` (R50, R313). `FCW`, `CI`, `SI`, `NCH` have "no value" in R50: DESIGN
CHOICE 0, 0, 0 and 1 (log entry 4). -/
def State.resetWith (P : Params) : State where
  P := P
  CFG := P.CFG_RESET
  ZP := 0
  INTERP := .linear
  SYNC := .unsync
  RUN := true
  SSA := false
  RXEN := true
  KVALID := true
  RAWV := false
  nchM1 := 0
  HALT := .none
  FS := .idle
  FCW := 0
  CI := 0
  SI := 0
  FBUF := []
  RAW := []
  VOLT := []
  DISP := []
  KERN := kernelTable P
  env := Env.quiet
  out := []
  ret := .none
  free := 0

/-- The machine right after reset (R50), with the parameters of `Params.default`. -/
def State.reset : State := State.resetWith Params.default

end Sys2Proof.Machine
end

