-- ==== Sys2Proof/Machine/Operands.lean ====
section
/-! DEFINITION. Operand forms: the configuration register read as a record, the records the retune commands build, the command
layer's check, the step operands, and the samples of a frame. -/

namespace Sys2Proof.Machine

/-- `cfg()` (R23): `DECODE(CFG)`. -/
def State.cfg (s : State) : AcqConfig := decodeCW s.CFG

/-- `d` of a step command (R103). -/
def stepValue : StepDir → Int
  | .up => 1
  | .down => -1

/-- `PS_RANGE(mode)` (R7). -/
def psRange (P : Params) : SamplingMode → Nat × Nat
  | .realTime => P.psRealTime
  | .equivalentTime => P.psEquivalentTime

/-- `VALID(c')` (R241). -/
def validConfig (P : Params) (c : AcqConfig) : Bool :=
  (psRange P c.samplingMode).1 ≤ c.prescale.toNat && c.prescale.toNat ≤ (psRange P c.samplingMode).2

/-- `cfg() with channelCount := n` (R242); none when `n` is outside 1..4. -/
def withChannels (c : AcqConfig) (n : Nat) : Option AcqConfig :=
  if 1 ≤ n ∧ n ≤ 4 then some { c with channelCountMinus1 := BitVec.ofNat 2 (n - 1) } else none

/-- `cfg() with prescale := prescale + d` (R247); none when the sum leaves 0..7. -/
def withPrescaleStep (c : AcqConfig) (d : StepDir) : Option AcqConfig :=
  let ps : Int := c.prescale.toNat + stepValue d
  if 0 ≤ ps ∧ ps ≤ 7 then some { c with prescale := BitVec.ofInt 3 ps } else none

/-- `min(MAXZP, max(0, ZP + d))` (R250). -/
def zoomStep (maxzp zp : Nat) (d : StepDir) : Nat := (min (maxzp : Int) (max 0 ((zp : Int) + stepValue d))).toNat

/-- The samples of a frame in payload order (R63); none unless they are `channelCount` sequences of `N` bytes (R11). -/
def frameSamples (N : Nat) (fr : Frame) : Option (List Byte) :=
  match fr.samples with
  | none => none
  | some rows =>
    if rows.length = fr.config.channelCount ∧ rows.all (fun r => r.length = N) then some rows.flatten else none

end Sys2Proof.Machine
end

