-- ==== Sys2Proof/Machine/Ops.lean ====
section
/-! DEFINITION. The shared operations: emissions, snapshots, taking an exception (the halt entry) and the only way out of it (the
reset), the reads and writes of the five files, RESAMPLE and the frame events. An operation answers a state or a fault. -/

namespace Sys2Proof.Machine

/-- An operation's answer: the state after it, or why it cannot run. -/
abbrev Answer := Except Fault State

/-- The answer of an operation as an outcome of a step. -/
def Answer.outcome : Answer → Host.Outcome State Fault Refusal
  | .ok s => .next s
  | .error f => .fault f

/-- Continue with the state an operation answered. -/
def Answer.andThen (a : Answer) (f : State → Answer) : Answer :=
  match a with
  | .ok s => f s
  | .error e => .error e

/-! ## Emissions (R45) -/

/-- `emit PORT(v)`. -/
def emit (o : Out) (s : State) : State := { s with out := s.out ++ [o] }

/-- `snapshot(fresh)` (R236), read at the moment of the emission; a trace element without a value is a fault (R37). -/
def snapshot (fresh : Bool) (s : State) : Except Fault Snapshot :=
  if s.RAWV then
    match s.DISP.readRows s.P.N 0 s.NCH with
    | some t => .ok { fresh := fresh, sync := s.SYNC, cfg := s.cfg, zp := s.ZP, interp := s.INTERP, nch := s.NCH, trace := t }
    | none => .error (.noValue .disp)
  else .ok { fresh := fresh, sync := s.SYNC, cfg := s.cfg, zp := s.ZP, interp := s.INTERP, nch := 0, trace := [] }

/-- `emit DISPOUT(snapshot(fresh))`. -/
def emitDispout (fresh : Bool) (s : State) : Answer :=
  match snapshot fresh s with
  | .ok v => .ok (emit (.dispout v) s)
  | .error f => .error f

/-- `SYNC <- new`, with a stale `DISPOUT` when the value changes (R232, R236, R240, R245). -/
def syncTo (new : SyncState) (s : State) : Answer :=
  if s.SYNC ≠ new then emitDispout false { s with SYNC := new } else .ok { s with SYNC := new }

/-! ## Taking an exception, and the way out -/

/-- Halt entry (R293), for StartupError, LinkError and QUIT: nothing is saved, every other register and file keeps its value.
There is no return (R297): only `resetRegisters` leaves a halt. -/
def halt (cause : HaltCause) (s : State) : State := emit (.exit cause) { s with HALT := cause }

/-- The first line of `EV.RESET` (R310): every register and file at its value of R50, except `KVALID = 0` and `KERN` without value.
The parameters, the environment's offers and the model's own fields are no registers and stay. -/
def resetRegisters (s : State) : State where
  P := s.P
  CFG := s.P.CFG_RESET
  ZP := 0
  INTERP := .linear
  SYNC := .unsync
  RUN := true
  SSA := false
  RXEN := true
  KVALID := false
  RAWV := false
  nchM1 := 0
  HALT := .none
  FS := .idle
  FCW := 0
  CI := 0
  SI := 0
  FBUF := []
  RAW := []
  VOLT := []
  DISP := []
  KERN := []
  env := s.env
  out := s.out
  ret := s.ret
  free := s.free

/-- `KBUILD()` (R186): every element of `KERN`, then `KVALID`. -/
def buildKernels (s : State) : State := { s with KERN := kernelTable s.P, KVALID := true }

/-! ## Resampling (R203, R205, R210) -/

/-- `DISP[c][0..] <- ILIN(z, VOLT[c][0..N-1])`. R203 gives ILIN for `1 <= z <= N`. DESIGN CHOICE outside that range: its loops as they
stand, which for `z > N` (and `z = 0`) have an empty grid, so nothing is written (log entry 23). -/
def ilinChannel (c z : Nat) (s : State) : Answer :=
  match s.VOLT.readN (c * s.P.N) s.P.N with
  | none => .error (.noValue .volt)
  | some v =>
    match ilin s.P.N z v with
    | none => .error (.noValue .volt)
    | some o => .ok { s with DISP := s.DISP.writeN (c * s.P.N) o }

/-- Row `r` of `KERN[p]` (R36). -/
def kernelRow (p : Nat) (s : State) (r : Nat) : Option (List RealTerm) := s.KERN.readN ((p * s.P.N + r) * s.P.N) s.P.N

/-- `DISP[c][0..] <- ISINC(p, VOLT[c][0..N-1])`; a fault while `KVALID = 0` (R322). R205 gives ISINC for `p <= MAXZP`, and D38 defines
no access beyond. DESIGN CHOICE outside that range: R205's loops as they stand, which for `2^p > N` have an empty grid, so
nothing is written, and which else read a table that holds no value, a fault (log entry 23). -/
def isincChannel (c p : Nat) (s : State) : Answer :=
  if s.KVALID then
    match s.VOLT.readN (c * s.P.N) s.P.N with
    | none => .error (.noValue .volt)
    | some v =>
      match isinc s.P.N p (kernelRow p s) v with
      | none => .error (.noValue .kern)
      | some o => .ok { s with DISP := s.DISP.writeN (c * s.P.N) o }
  else .error .kernelNotBuilt

/-- One channel of RESAMPLE (R210): the interpolator `INTERP` names, at the zoom power `ZP`. -/
def resampleChannel (c : Nat) (s : State) : Answer :=
  match s.INTERP with
  | .linear => ilinChannel c (2 ^ s.ZP) s
  | .sinc => isincChannel c s.ZP s

/-- Channels `c`, `c + 1`, ... (`n` of them). -/
def resampleChannels : Nat → Nat → State → Answer
  | 0, _, s => .ok s
  | n + 1, c, s => Answer.andThen (resampleChannel c s) (resampleChannels n (c + 1))

/-- `RESAMPLE()` (R210): requires `RAWV = 1` and `KVALID = 1`. -/
def resampleAll (s : State) : Answer :=
  if !s.RAWV then .error .noTrace
  else if !s.KVALID then .error .kernelNotBuilt
  else resampleChannels s.NCH 0 s

/-- The tail of the zoom and interpolation commands (R250, R251): re-apply at once when the parameter says so. -/
def reapply (s : State) : Answer :=
  if s.P.REAPPLY && s.RAWV then Answer.andThen (resampleAll s) (emitDispout false) else .ok s

end Sys2Proof.Machine
end

