-- ==== Sys2Proof/Machine/Codec.lean ====
section
/-! DEFINITION. The value-returning operations: DECODE, ENCODE (40_codec.md), TOVOLT (42_voltage.md), SINC (43_kernels.md). They read
and write no register, file or port; run as an instruction, the result is in `ret` (log entry 13). -/

namespace Sys2Proof.Machine

/-- R121. -/
def execDecode (b : Byte) (s : State) : Host.Outcome State Fault Refusal := .next { s with ret := .config (decodeCW b) }

/-- R124. -/
def execEncode (c : AcqConfig) (s : State) : Host.Outcome State Fault Refusal := .next { s with ret := .byte (encodeCW c) }

/-- R171. -/
def execToVolt (raw : Byte) (s : State) : Host.Outcome State Fault Refusal := .next { s with ret := .real (.toVolt raw) }

/-- R181. -/
def execSinc (x : RealTerm) (s : State) : Host.Outcome State Fault Refusal := .next { s with ret := .real x.sinc }

end Sys2Proof.Machine
end

