-- ==== Sys2Proof/Machine/Flags.lean ====
section
/-! DEFINITION. The status flags (R26-R33): the block has no arithmetic condition codes (R34), so what stands here is how the run
flags change together, and the STATUS view. -/

namespace Sys2Proof.Machine

/-- Entering `Frozen` (R252): `RUN` and `RXEN` are cleared together (R30). -/
def freeze (s : State) : State := { s with RUN := false, RXEN := false }

/-- `RXFLUSH` (R45, R253): the environment's backlog becomes empty in this step. -/
def rxFlush (s : State) : State := emit .rxflush { s with env := { s.env with rx := [] } }

/-- Leaving `Frozen` (R253). -/
def thaw (s : State) : State := rxFlush { s with RUN := true, RXEN := true }

/-- The auto-freeze of a single sweep (R235). -/
def endSweep (s : State) : State := freeze { s with SSA := false }

/-- `if SSA = 1 then SINGLE.DONE()` (R233). -/
def endSweepIfArmed (s : State) : State := if s.SSA then endSweep s else s

/-- What the `STATUS` port shows (R45). -/
structure Status where
  SYNC : SyncState
  RUN : Bool
  SSA : Bool
  RXEN : Bool
  KVALID : Bool
  RAWV : Bool
  HALT : HaltCause
  ZP : Nat
  INTERP : Interp
  CFG : Byte
  deriving DecidableEq, Repr

/-- The `STATUS` port: continuously readable, no event (R45, R302). -/
def State.status (s : State) : Status where
  SYNC := s.SYNC
  RUN := s.RUN
  SSA := s.SSA
  RXEN := s.RXEN
  KVALID := s.KVALID
  RAWV := s.RAWV
  HALT := s.HALT
  ZP := s.ZP
  INTERP := s.INTERP
  CFG := s.CFG

end Sys2Proof.Machine
end

