-- ==== Sys2Proof/Machine/Commands.lean ====
section
/-! DEFINITION. The sequencer's commands (45_sequencer.md): RETUNE and the five retune commands, zoom and interpolation, run mode,
UNFREEZE, dump, quit, reserved words. -/

namespace Sys2Proof.Machine

/-- What follows the writes of a retune command when a link error is on offer during its `TX` write (R283): the writes stand and
the halt follows in the same step. With `RXEN = 0` the error has waited for this write; with `RXEN = 1` whether the write meets it is
a free value (log entries 14, 15). -/
def meetLinkError (s : State) : State :=
  if s.env.lerr then
    if s.RXEN then
      if Config.txMeetsError s.free then
        halt .link { s with env := { s.env with lerr := false }, free := s.free + 1 }
      else { s with free := s.free + 1 }
    else halt .link { s with env := { s.env with lerr := false } }
  else s

/-- The writes of an accepted retune command (R240): `CFG`, the `TX` byte, `SYNC` and its `DISPOUT`. -/
def retuneWrites (c : AcqConfig) (s : State) : Answer :=
  syncTo .unsync (emit (.tx (encodeCW c)) { s with CFG := encodeCW c })

/-- `RETUNE(c')` (R240): dropped whole unless `VALID(c')` (R241). -/
def retuneTo (c : AcqConfig) (s : State) : Answer :=
  if validConfig s.P c then Answer.andThen (retuneWrites c s) (fun t => .ok (meetLinkError t)) else .ok s

/-- A retune command whose new configuration may fall outside the type: then it is dropped (R241, R242, R247). -/
def retuneIf (c : Option AcqConfig) (s : State) : Answer :=
  match c with
  | some c => retuneTo c s
  | none => .ok s

/-- R242. -/
def execSetChannels (n : BitVec 4) (s : State) : Host.Outcome State Fault Refusal :=
  Answer.outcome (retuneIf (withChannels s.cfg n.toNat) s)

/-- R243. -/
def execSetSlope (e : Slope) (s : State) : Host.Outcome State Fault Refusal :=
  Answer.outcome (retuneTo { s.cfg with triggerSlope := e } s)

/-- R244. -/
def execSetTrigMode (m : TriggerMode) (s : State) : Host.Outcome State Fault Refusal :=
  Answer.outcome (retuneTo { s.cfg with triggerMode := m } s)

/-- R246. -/
def execSetSampMode (m : SamplingMode) (s : State) : Host.Outcome State Fault Refusal :=
  Answer.outcome (retuneTo { s.cfg with samplingMode := m } s)

/-- R247. -/
def execStepPrescale (d : StepDir) (s : State) : Host.Outcome State Fault Refusal :=
  Answer.outcome (retuneIf (withPrescaleStep s.cfg d) s)

/-- R250. -/
def execStepZoom (d : StepDir) (s : State) : Host.Outcome State Fault Refusal :=
  Answer.outcome (reapply { s with ZP := zoomStep s.P.MAXZP s.ZP d })

/-- R251. -/
def execSetInterp (m : Interp) (s : State) : Host.Outcome State Fault Refusal :=
  Answer.outcome (reapply { s with INTERP := m })

/-- R252. -/
def execToggleRun (s : State) : Host.Outcome State Fault Refusal := .next (if s.RUN then freeze s else thaw s)

/-- R254. -/
def execArmSingle (s : State) : Host.Outcome State Fault Refusal :=
  .next (if s.RUN then { s with SSA := true } else thaw { s with SSA := true })

/-- R256: nothing is emitted while there is no raw buffer. -/
def execDumpRaw (s : State) : Host.Outcome State Fault Refusal :=
  if s.RAWV then
    match s.RAW.readRows s.P.N 0 s.NCH with
    | some rows => .next (emit (.dumpout { cfg := s.cfg, nch := s.NCH, raw := rows }) s)
    | none => .fault (.noValue .raw)
  else .next s

/-- R257. -/
def execQuit (s : State) : Host.Outcome State Fault Refusal := .next (halt .quit s)

/-- R258: consumed, and nothing else happens. -/
def execCmdReserved (_w : Byte) (s : State) : Host.Outcome State Fault Refusal := .next s

/-- R240. -/
def execRetune (c : AcqConfig) (s : State) : Host.Outcome State Fault Refusal := Answer.outcome (retuneTo c s)

/-- R253. -/
def execUnfreeze (s : State) : Host.Outcome State Fault Refusal := .next (thaw s)

end Sys2Proof.Machine
end

