-- ==== Sys2Proof/Machine/FrameEvents.lean ====
section
/-! DEFINITION. The sequencer's frame events (R231-R235): EV.FRAME, EV.FRAME.NOTREADY, EV.FRAME.READY, SINGLE.DONE. -/

namespace Sys2Proof.Machine

/-- The buffer writes of a ready frame (R233): `NCH`, `RAW`, `VOLT` (R173) and `RAWV`; the elements of channels `c >= NCH` of the three
files lose their value (R37). `samples` is the payload, element `c*N + i` being sample `i` of channel `c`. -/
def loadTrace (c : AcqConfig) (samples : List Byte) (s : State) : State :=
  { s with
    nchM1 := c.channelCountMinus1
    RAW := Memory.ofList 0 samples
    VOLT := Memory.ofList 0 (samples.map RealTerm.toVolt)
    DISP := s.DISP.dropFrom (c.channelCount * s.P.N)
    RAWV := true }

/-- `EV.FRAME.READY(fr)` (R233). -/
def frameReady (fr : Frame) (s : State) : Answer :=
  match frameSamples s.P.N fr with
  | none => .error .frameShape
  | some samples =>
    Answer.andThen (resampleAll (loadTrace fr.config samples s))
      (fun t => emitDispout true (endSweepIfArmed { t with SYNC := .ready }))

/-- `EV.FRAME.NOTREADY(fr)` (R232). -/
def frameNotReady (s : State) : Answer := syncTo .notReady s

/-- `EV.FRAME(fr)` (R231): `CFG` is replaced on every frame. -/
def frameEvent (fr : Frame) (s : State) : Answer :=
  let t : State := { s with CFG := encodeCW fr.config }
  if fr.ready then frameReady fr t else frameNotReady t

/-- R231. -/
def execEvFrame (fr : Frame) (s : State) : Host.Outcome State Fault Refusal := Answer.outcome (frameEvent fr s)

/-- R232. The frame's only content, its configuration, is EV.FRAME's. -/
def execEvFrameNotReady (_fr : Frame) (s : State) : Host.Outcome State Fault Refusal := Answer.outcome (frameNotReady s)

/-- R233. -/
def execEvFrameReady (fr : Frame) (s : State) : Host.Outcome State Fault Refusal := Answer.outcome (frameReady fr s)

/-- R235. -/
def execSingleDone (s : State) : Host.Outcome State Fault Refusal := .next (endSweep s)

end Sys2Proof.Machine
end

