-- ==== Sys2Proof/Machine/FrameSync.lean ====
section
/-! DEFINITION. The frame synchronizer (41_frame_sync.md): the RX.* operations and FRAME.EMIT. Which of them a received byte selects
is Machine/Fetch.lean's. -/

namespace Sys2Proof.Machine

/-- `FRAME.EMIT(w, ready)` (R150): a ready frame's samples are `FBUF[ch][i]`, `ch < channelCount`, `i < N`. With the frame at its end
no frame is in progress, so no element of `FBUF` holds a value (R37; log entry 5). -/
def frameEmit (w : Byte) (ready : Bool) (s : State) : Answer :=
  let c := decodeCW w
  if ready then
    match s.FBUF.readRows s.P.N 0 c.channelCount with
    | none => .error (.noValue .fbuf)
    | some rows => frameEvent { config := c, ready := true, samples := some rows } { s with FS := .idle, FBUF := [] }
  else frameEvent { config := c, ready := false, samples := none } { s with FS := .idle, FBUF := [] }

/-- `FBUF[CI][SI] <- b` (R149); `SI >= N` names no element (R76). -/
def storeSample (b : Byte) (s : State) : Answer :=
  if s.SI < s.P.N then .ok { s with FBUF := s.FBUF.write (s.CI.toNat * s.P.N + s.SI) b } else .error (.noSuchElement .fbuf)

/-- The position after a stored sample (R149): next sample, next channel, or the end of the frame. -/
def advancePosition (s : State) : Answer :=
  if s.SI < s.P.N - 1 then .ok { s with SI := s.SI + 1 }
  else if s.CI.toNat + 1 < (decodeCW s.FCW).channelCount then .ok { s with CI := s.CI + 1, SI := 0 }
  else frameEmit s.FCW true s

/-- R142. -/
def execRxSkip (_b : Byte) (s : State) : Host.Outcome State Fault Refusal := .next { s with FS := .hunt }

/-- R143. -/
def execRxSync (s : State) : Host.Outcome State Fault Refusal := .next { s with FS := .ctrl }

/-- R145. -/
def execRxCtrl (b : Byte) (s : State) : Host.Outcome State Fault Refusal := .next { s with FCW := b, FS := .flag }

/-- R146. -/
def execRxFlag0 (s : State) : Host.Outcome State Fault Refusal := Answer.outcome (frameEmit s.FCW false s)

/-- R147. There is no position before `(0, 0)`, so no element of `FBUF` holds a value (R37; log entry 5). -/
def execRxFlag1 (s : State) : Host.Outcome State Fault Refusal :=
  .next { s with FBUF := [], CI := 0, SI := 0, FS := .payload }

/-- R148: "Identical in effect to `RX.FLAG0`". -/
def execRxFlagX (_b : Byte) (s : State) : Host.Outcome State Fault Refusal := Answer.outcome (frameEmit s.FCW false s)

/-- R149. -/
def execRxData (b : Byte) (s : State) : Host.Outcome State Fault Refusal :=
  Answer.outcome (Answer.andThen (storeSample b s) advancePosition)

/-- R150. -/
def execFrameEmit (w : Byte) (ready : Bool) (s : State) : Host.Outcome State Fault Refusal :=
  Answer.outcome (frameEmit w ready s)

end Sys2Proof.Machine
end

