-- ==== Sys2Proof/Machine/Resampler.lean ====
section
/-! DEFINITION. The resampling engine's operations (43_kernels.md, 44_interp.md): KBUILD, ILIN, ISINC, RESAMPLE. -/

namespace Sys2Proof.Machine

/-- R186. -/
def execKbuild (s : State) : Host.Outcome State Fault Refusal := .next (buildKernels s)

/-- R203, for the channel `c` at hand. -/
def execIlin (c : BitVec 2) (z : Nat) (s : State) : Host.Outcome State Fault Refusal :=
  Answer.outcome (ilinChannel c.toNat z s)

/-- R205, for the channel `c` at hand. -/
def execIsinc (c : BitVec 2) (p : Nat) (s : State) : Host.Outcome State Fault Refusal :=
  Answer.outcome (isincChannel c.toNat p s)

/-- R210. -/
def execResample (s : State) : Host.Outcome State Fault Refusal := Answer.outcome (resampleAll s)

end Sys2Proof.Machine
end

