-- ==== Sys2Proof/Machine/SystemEvents.lean ====
section
/-! DEFINITION. The remaining events: EV.TIMEOUT (R245), EV.LINKERR (R283), EV.RESET (R310-R313). -/

namespace Sys2Proof.Machine

/-- R245: only while `RUN = 1` and `SYNC = SYNC_READY`. -/
def execEvTimeout (s : State) : Host.Outcome State Fault Refusal :=
  Answer.outcome (if s.RUN = true ∧ s.SYNC = .ready then syncTo .notReady s else .ok s)

/-- R283: LinkError by the halt entry of R293. -/
def execEvLinkErr (s : State) : Host.Outcome State Fault Refusal := .next (halt .link s)

/-- R310: StartupError by the halt entry of R293 (R311), else the kernel build (R312). -/
def execEvReset (chanOk dispOk : Bool) (s : State) : Host.Outcome State Fault Refusal :=
  .next (if chanOk && dispOk then buildKernels (resetRegisters s) else halt .startup (resetRegisters s))

end Sys2Proof.Machine
end

