-- ==== Sys2Proof/Machine/Dispatch.lean ====
section
/-! DEFINITION. One arm per constructor of Instr, each a direct call of that operation's meaning. -/

namespace Sys2Proof.Machine

def exec (i : Instr) (s : State) : Host.Outcome State Fault Refusal :=
  match i with
  | .decode b => Sys2Proof.Machine.execDecode b s
  | .encode c => Sys2Proof.Machine.execEncode c s
  | .rxSkip b => Sys2Proof.Machine.execRxSkip b s
  | .rxSync => Sys2Proof.Machine.execRxSync s
  | .rxCtrl b => Sys2Proof.Machine.execRxCtrl b s
  | .rxFlag0 => Sys2Proof.Machine.execRxFlag0 s
  | .rxFlag1 => Sys2Proof.Machine.execRxFlag1 s
  | .rxFlagX b => Sys2Proof.Machine.execRxFlagX b s
  | .rxData b => Sys2Proof.Machine.execRxData b s
  | .setChannels n => Sys2Proof.Machine.execSetChannels n s
  | .setSlope e => Sys2Proof.Machine.execSetSlope e s
  | .setTrigMode m => Sys2Proof.Machine.execSetTrigMode m s
  | .setSampMode m => Sys2Proof.Machine.execSetSampMode m s
  | .stepPrescale d => Sys2Proof.Machine.execStepPrescale d s
  | .stepZoom d => Sys2Proof.Machine.execStepZoom d s
  | .setInterp m => Sys2Proof.Machine.execSetInterp m s
  | .toggleRun => Sys2Proof.Machine.execToggleRun s
  | .armSingle => Sys2Proof.Machine.execArmSingle s
  | .dumpRaw => Sys2Proof.Machine.execDumpRaw s
  | .quit => Sys2Proof.Machine.execQuit s
  | .cmdReserved w => Sys2Proof.Machine.execCmdReserved w s
  | .frameEmit w ready => Sys2Proof.Machine.execFrameEmit w ready s
  | .toVolt raw => Sys2Proof.Machine.execToVolt raw s
  | .sinc x => Sys2Proof.Machine.execSinc x s
  | .kbuild => Sys2Proof.Machine.execKbuild s
  | .ilin c z => Sys2Proof.Machine.execIlin c z s
  | .isinc c p => Sys2Proof.Machine.execIsinc c p s
  | .resample => Sys2Proof.Machine.execResample s
  | .evFrame fr => Sys2Proof.Machine.execEvFrame fr s
  | .evFrameNotReady fr => Sys2Proof.Machine.execEvFrameNotReady fr s
  | .evFrameReady fr => Sys2Proof.Machine.execEvFrameReady fr s
  | .singleDone => Sys2Proof.Machine.execSingleDone s
  | .retune c => Sys2Proof.Machine.execRetune c s
  | .unfreeze => Sys2Proof.Machine.execUnfreeze s
  | .evTimeout => Sys2Proof.Machine.execEvTimeout s
  | .evLinkErr => Sys2Proof.Machine.execEvLinkErr s
  | .evReset chanOk dispOk => Sys2Proof.Machine.execEvReset chanOk dispOk s

end Sys2Proof.Machine
end

