-- ==== Sys2Proof/Machine/Fetch.lean ====
section
/-! DEFINITION. Which operation a step runs: the input ports and their conditions (R46), run to completion of a frame read (R288),
arbitration (R289), the timeout's condition (R290), and the host's placement of a command word. -/

namespace Sys2Proof.Machine

/-- An input event other than `RST` (R46). -/
inductive Event where
  | rx (b : Byte)
  | cmd (w : Byte)
  | lerr
  | tmo
  deriving DecidableEq, Repr

/-- The block takes events at all (R46, R296, R312). -/
def State.awake (s : State) : Bool := s.HALT = .none && s.KVALID

/-- The byte `RX` offers and the block takes: `RXEN = 1` (R46, R156). -/
def State.rxOffer (s : State) : Option Byte := if s.awake && s.RXEN then s.env.rx.head? else none

/-- The command word `CMD` offers and the block takes: only in `FS = IDLE` (R46, R288). -/
def State.cmdOffer (s : State) : Option Byte := if s.awake && s.FS = .idle then s.env.cmd.head? else none

/-- A link error on offer that the block takes as an event of its own: `RXEN = 1`, any `FS` (R283). -/
def State.lerrOffer (s : State) : Bool := s.awake && s.RXEN && s.env.lerr

/-- A timeout that the block takes: in `FS = IDLE`, and never while an `RX` byte or a `CMD` is on offer and enabled (R289, R290). -/
def State.tmoOffer (s : State) : Bool :=
  s.awake && s.FS = .idle && s.env.tmo && s.rxOffer.isNone && s.cmdOffer.isNone

/-- Every event the block may take in this step (R46, R289). -/
def State.enabled (s : State) : List Event :=
  (s.rxOffer.map Event.rx).toList ++ (s.cmdOffer.map Event.cmd).toList ++
    (if s.lerrOffer then [.lerr] else []) ++ (if s.tmoOffer then [.tmo] else [])

/-- The event this step takes and the counter after it. With more than one enabled the choice is the free value
`Config.arbiter` (R289). -/
def State.choose (s : State) : Option (Event × Nat) :=
  match s.enabled with
  | [] => none
  | [e] => some (e, s.free)
  | es => (es[Config.arbiter s.free % es.length]?).map (fun e => (e, s.free + 1))

/-- Consuming an event removes it from the environment's offer (R46, R68). -/
def consume (e : Event) (s : State) : State :=
  match e with
  | .rx _ => { s with env := { s.env with rx := s.env.rx.tail } }
  | .cmd _ => { s with env := { s.env with cmd := s.env.cmd.tail } }
  | .lerr => { s with env := { s.env with lerr := false } }
  | .tmo => { s with env := { s.env with tmo := false } }

/-- The operation an event selects in state `fs` of the frame synchronizer (R99, R102, R245, R283). -/
def select (e : Event) (fs : FsState) : Instr :=
  match e with
  | .rx b => decodeAt (.rx fs) b
  | .cmd w => decodeAt .cmd w
  | .lerr => .evLinkErr
  | .tmo => .evTimeout

/-- What a step does before any operation runs. -/
inductive Fetched where
  /-- run this operation in this state -/
  | run (i : Instr) (s : State)
  /-- nothing is enabled: the block waits (R288), or has ended by QUIT (R296) -/
  | wait
  /-- the block is halted by an error (R296) -/
  | stopped (f : Fault)

/-- A reset on offer is always taken (R46, R287); a halted block takes nothing else (R296); else one enabled event. -/
def fetch (s : State) : Fetched :=
  match s.env.rst with
  | some (c, d) => .run (.evReset c d) { s with env := { s.env with rst := none } }
  | none =>
    match s.HALT with
    | .startup => .stopped .startupError
    | .link => .stopped .linkError
    | .quit => .wait
    | .none =>
      match s.choose with
      | some (e, n) => .run (select e s.FS) (consume e { s with free := n })
      | none => .wait

/-- Place the command word `w` so that the next step fetches and runs it: it is all the environment offers, and the block is at
its wait point, not halted, with its kernels built (log entry 17). -/
def placeCommand (w : Byte) (s : State) : State :=
  { s with HALT := .none, KVALID := true, FS := .idle, env := { Env.quiet with cmd := [w] } }

end Sys2Proof.Machine
end

