-- ==== Sys2Proof/Machine/Step.lean ====
section
/-! DEFINITION. One step of the block: one input event with all its effects (R66), and the host's placement of an instruction. -/

namespace Sys2Proof.Machine

/-- One step. With nothing enabled the block waits and its state does not change (R151, R288; log entry 10). -/
def step (s : State) : Host.Outcome State Fault Refusal :=
  match fetch s with
  | .run i t => exec i t
  | .wait => .next s
  | .stopped f => .fault f

/-- `s` with the instruction whose bits are `w` where `step` takes its next instruction from: the `CMD` port (log entry 17). -/
def State.withFetchWord (s : State) (_nbits w : Nat) : State := placeCommand (BitVec.ofNat 8 w) s

end Sys2Proof.Machine
end

