-- ==== Sys2Proof/Machine/Environment.lean ====
section
/-! DEFINITION. The environment's moves between steps: offering events on the input ports (R46, R47). -/

namespace Sys2Proof.Machine

/-- A move of the environment. -/
inductive EnvMove where
  /-- the device's next byte arrives in the backlog -/
  | byteArrives (b : Byte)
  /-- the input layer issues a command word -/
  | command (w : Byte)
  /-- the bounded wait expires -/
  | timeout
  /-- the channel reports a transport-level error -/
  | linkError
  /-- reset, with the outcomes of the two acquisitions -/
  | reset (chanOk dispOk : Bool)
  deriving DecidableEq, Repr

/-- The environment after a move: arrival order is kept (R61, R289). DESIGN CHOICE: a reset offered before an earlier one is taken
replaces it, with its `(chan_ok, disp_ok)`; R46 does not say which pair counts (log entry 21). -/
def Env.after (e : Env) : EnvMove → Env
  | .byteArrives b => { e with rx := e.rx ++ [b] }
  | .command w => { e with cmd := e.cmd ++ [w] }
  | .timeout => { e with tmo := true }
  | .linkError => { e with lerr := true }
  | .reset c d => { e with rst := some (c, d) }

/-- The state after a move of the environment, which writes no register and no file (R22). -/
def State.offer (s : State) (m : EnvMove) : State := { s with env := s.env.after m }

end Sys2Proof.Machine
end

