-- ==== Sys2Proof/Safety.lean ====
section
/-! DEFINITION. The terms claims are stated in: the exact value of a real (R12), the named properties of a number format (U9), what a
frame, a retune and a ready frame leave behind, and the invariant of R51. -/

namespace Sys2Proof

/-! ## Numerics -/

/-- The reference numerics (R12): exact real arithmetic, `EPS = 1/1000` (R7). -/
noncomputable def Num.exact (vmin vmax : ℝ) : Num ℝ where
  ofNat n := (n : ℝ)
  pi := Real.pi
  eps := 1 / 1000
  vmin := vmin
  vmax := vmax
  add := (· + ·)
  sub := (· - ·)
  mul := (· * ·)
  div := (· / ·)
  sin := Real.sin
  abs x := |x|
  lt a b := decide (a < b)

/-- The normative value of a real (R12), for the parameters `VMIN` and `VMAX`. -/
noncomputable def RealTerm.toReal (vmin vmax : ℝ) (t : RealTerm) : ℝ := t.eval (Num.exact vmin vmax)

/-- The cardinal sine with its guard, on exact reals (R181). -/
noncomputable def sincExact (x : ℝ) : ℝ := if |x| > 1 / 1000 then Real.sin x / x else 1

/-- The properties a model over `NUM` may assume (U9.1 to U9.3), for a format with negation `neg` and finite values `finite`. -/
structure Num.Named {R : Type} (n : Num R) (neg : R → R) (finite : R → Prop) : Prop where
  abs_neg : ∀ x, n.abs (neg x) = n.abs x
  eps_pos : n.lt (n.ofNat 0) n.eps = true
  sin_neg : ∀ x, n.sin (neg x) = neg (n.sin x)
  div_neg : ∀ a b, n.div (neg a) (neg b) = n.div a b
  mul_zero : ∀ x, finite x → n.mul x (n.ofNat 0) = n.ofNat 0
  add_zero : ∀ x, finite x → n.add x (n.ofNat 0) = x
  sub_self : ∀ x, finite x → n.sub x x = n.ofNat 0

/-- The named properties of TOVOLT in a number format, for its pair `(VMIN, VMAX)` (R172): the lower end, which U9.3 gives (log entry 25);
the three equations of the upper end (U9.4), the first at the finite `VMAX - VMIN` (U9.7); strict monotonicity (U9.5). -/
structure Num.NamedVolts {R : Type} (n : Num R) (finite : R → Prop) : Prop where
  volt_zero : (RealTerm.toVolt 0).eval n = n.vmin
  div_full : n.div (n.ofNat 255) (n.ofNat 255) = n.ofNat 1
  mul_one : ∀ d, finite d → n.mul d (n.ofNat 1) = d
  span_finite : finite (n.sub n.vmax n.vmin)
  vmin_add_span : n.add n.vmin (n.sub n.vmax n.vmin) = n.vmax
  volt_increasing : ∀ a b : Byte, a.toNat < b.toNat →
    n.lt ((RealTerm.toVolt a).eval n) ((RealTerm.toVolt b).eval n) = true

/-- A number format computes a real within `TOL` of its normative value (R12, U9.6); `val` is the format's exact value map. -/
def Num.within {R : Type} (n : Num R) (val : R → ℝ) (r : RealParams) (t : RealTerm) : Prop :=
  |val (t.eval n) - t.toReal r.VMIN r.VMAX| ≤ r.TOL

/-- The exact value of element `i` of a row of reals (0 past its end). -/
noncomputable def valueAt (vmin vmax : ℝ) (v : List RealTerm) (i : Nat) : ℝ :=
  match v[i]? with
  | some t => t.toReal vmin vmax
  | none => 0

/-- SINC in a number format, in the order R181 writes it. -/
def Num.sinc {R : Type} (n : Num R) (x : R) : R := if n.lt n.eps (n.abs x) then n.div (n.sin x) x else n.ofNat 1

/-- Element `i` of a row of reals in a number format (the format's 0 past its end). -/
def Num.valueAt {R : Type} (n : Num R) (v : List RealTerm) (i : Nat) : R :=
  match v[i]? with
  | some t => t.eval n
  | none => n.ofNat 0

/-- ISINC's accumulator after the samples `0, ..., k - 1`, in the order R205 writes it. -/
def Num.accumulate {R : Type} (n : Num R) (s w : List RealTerm) : Nat → R
  | 0 => n.ofNat 0
  | k + 1 => n.add (n.accumulate s w k) (n.mul (n.sub (n.valueAt s k) (n.valueAt s 0)) (n.valueAt w k))

namespace Machine

/-! ## Outputs -/

/-- What a `DISPOUT` snapshot of `s` shows as its trace (R45, R236): the valid rows of `DISP`, none while `RAWV = 0`. -/
def State.Shows (s : State) (rows : List (List RealTerm)) : Prop :=
  if s.RAWV then s.DISP.readRows s.P.N 0 s.NCH = some rows else rows = []

/-- The snapshot of R236 with the given trace. -/
def snapshotWith (fresh : Bool) (rows : List (List RealTerm)) (s : State) : Snapshot where
  fresh := fresh
  sync := s.SYNC
  cfg := s.cfg
  zp := s.ZP
  interp := s.INTERP
  nch := if s.RAWV then s.NCH else 0
  trace := rows

/-- `s` with `SYNC` changed to `new`, and the stale snapshot that a change of its value emits (R236). -/
def afterSync (new : SyncState) (rows : List (List RealTerm)) (s : State) : State :=
  { s with
    SYNC := new
    out := s.out ++ (if s.SYNC = new then [] else [.dispout (snapshotWith false rows { s with SYNC := new })]) }

/-- `s` after an accepted retune to control word `w` (R240). -/
def afterRetune (w : Byte) (rows : List (List RealTerm)) (s : State) : State :=
  afterSync .unsync rows { s with CFG := w, out := s.out ++ [.tx w] }

/-- `Q i w` holds of each retune command `i` whose result is VALID (R241) and the word `w` it makes of `CFG`: exactly the command's own
field is replaced (R242, R243, R244, R246, R247). -/
def State.RetuneCommands (s : State) (Q : Instr → Byte → Prop) : Prop :=
  ((psRange s.P s.cfg.samplingMode).1 ≤ s.cfg.prescale.toNat ∧ s.cfg.prescale.toNat ≤ (psRange s.P s.cfg.samplingMode).2 →
    (∀ n : BitVec 4, 1 ≤ n.toNat → n.toNat ≤ 4 →
      Q (.setChannels n) ((s.CFG &&& 0xCF) ||| BitVec.ofNat 8 (16 * (n.toNat - 1)))) ∧
    Q (.setSlope .falling) (s.CFG &&& 0xF7) ∧ Q (.setSlope .rising) (s.CFG ||| 0x08) ∧
    Q (.setTrigMode .auto) (s.CFG &&& 0xBF) ∧ Q (.setTrigMode .normal) (s.CFG ||| 0x40)) ∧
  (s.P.psRealTime.1 ≤ s.CFG.toNat % 8 → s.CFG.toNat % 8 ≤ s.P.psRealTime.2 →
    Q (.setSampMode .realTime) (s.CFG &&& 0x7F)) ∧
  (s.P.psEquivalentTime.1 ≤ s.CFG.toNat % 8 → s.CFG.toNat % 8 ≤ s.P.psEquivalentTime.2 →
    Q (.setSampMode .equivalentTime) (s.CFG ||| 0x80)) ∧
  (s.CFG.toNat % 8 < 7 → (psRange s.P s.cfg.samplingMode).1 ≤ s.CFG.toNat % 8 + 1 →
    s.CFG.toNat % 8 + 1 ≤ (psRange s.P s.cfg.samplingMode).2 → Q (.stepPrescale .up) (s.CFG + 1)) ∧
  (0 < s.CFG.toNat % 8 → (psRange s.P s.cfg.samplingMode).1 ≤ s.CFG.toNat % 8 - 1 →
    s.CFG.toNat % 8 - 1 ≤ (psRange s.P s.cfg.samplingMode).2 → Q (.stepPrescale .down) (s.CFG - 1))

/-- What `i` does when its `TX` write sends the word `w` with a link error on offer (R283; log entries 14 and 15): the writes of the
retune stand; the write meets the error, which is consumed, and the block halts, or, with `RXEN = 1` only, leaves it on offer. -/
def State.SendsUnderLinkError (s : State) (rows : List (List RealTerm)) (i : Instr) (w : Byte) : Prop :=
  (s.RXEN = false →
    exec i s = .next (halt .link { afterRetune w rows s with env := { s.env with lerr := false } })) ∧
  (s.RXEN = true →
    exec i s = .next
      (halt .link { afterRetune w rows s with env := { s.env with lerr := false }, free := s.free + 1 }) ∨
    exec i s = .next { afterRetune w rows s with free := s.free + 1 })

/-! ## Resampling -/

/-- The interpolator `INTERP` names at the zoom power `ZP`, applied to one channel's voltages (R210). -/
def State.interpolate (s : State) (v : List RealTerm) : Option (List RealTerm) :=
  match s.INTERP with
  | .linear => ilin s.P.N (2 ^ s.ZP) v
  | .sinc => isinc s.P.N s.ZP (kernelRow s.ZP s) v

/-- The resampler can run on `s`: valid parameters, a zoom power in range, the kernels built (R210, R322). -/
structure State.CanResample (s : State) : Prop where
  params : s.P.Valid
  zp_le : s.ZP ≤ s.P.MAXZP
  kvalid : s.KVALID = true
  kern : s.KERN = kernelTable s.P

/-- The valid rows of `DISP` are the resampled rows of `VOLT` (R210). -/
def State.Resampled (s : State) : Prop :=
  ∀ c < s.NCH, ∃ v o, s.VOLT.readN (c * s.P.N) s.P.N = some v ∧ s.interpolate v = some o ∧
    s.DISP.readN (c * s.P.N) s.P.N = some o

/-- `s` after a ready frame of configuration `c` with payload `samples`, the display file being `disp` and its valid rows `rows`
(R233, R235). -/
def afterReady (c : AcqConfig) (samples : List Byte) (disp : Memory RealTerm) (rows : List (List RealTerm)) (s : State) :
    State :=
  { s with
    nchM1 := c.channelCountMinus1
    RAW := Memory.ofList 0 samples
    VOLT := Memory.ofList 0 (samples.map RealTerm.toVolt)
    DISP := disp
    RAWV := true
    SYNC := .ready
    RUN := s.RUN && !s.SSA
    RXEN := s.RXEN && !s.SSA
    SSA := false
    out := s.out ++ [.dispout
      { fresh := true, sync := .ready, cfg := s.cfg, zp := s.ZP, interp := s.INTERP, nch := c.channelCount, trace := rows }] }

/-- `disp` is what RESAMPLE makes of `samples` (R210, R233): row `ch` of `rows` stands at channel `ch` and is the interpolated row of
that channel's voltages; no channel `>= channelCount` holds a value. -/
def State.Displays (s : State) (c : AcqConfig) (samples : List Byte) (disp : Memory RealTerm)
    (rows : List (List RealTerm)) : Prop :=
  rows.length = c.channelCount ∧
  (∀ ch < c.channelCount, ∃ row, rows[ch]? = some row ∧ disp.readN (ch * s.P.N) s.P.N = some row ∧
    s.interpolate (((samples.map RealTerm.toVolt).drop (ch * s.P.N)).take s.P.N) = some row) ∧
  ∀ a, c.channelCount * s.P.N ≤ a → disp.read a = none

/-- `s` after a re-application that made its display file `disp` with valid rows `rows` (R250, R251). -/
def afterReapply (disp : Memory RealTerm) (rows : List (List RealTerm)) (s : State) : State :=
  { s with DISP := disp, out := s.out ++ [.dispout (snapshotWith false rows s)] }

/-- The interpolator of mode `m` at zoom power `p`, with the table KBUILD builds (R203, R205). -/
def interpolator (P : Params) (m : Interp) (p : Nat) (v : List RealTerm) : Option (List RealTerm) :=
  match m with
  | .linear => ilin P.N (2 ^ p) v
  | .sinc => isinc P.N p (fun r => (kernelTable P).readN ((p * P.N + r) * P.N) P.N) v

/-- The valid rows of `DISP` are the rows of `VOLT` interpolated in mode `m` at zoom power `p`. -/
def State.DisplaysAt (s : State) (m : Interp) (p : Nat) : Prop :=
  ∀ c < s.NCH, ∃ v o, s.VOLT.readN (c * s.P.N) s.P.N = some v ∧ interpolator s.P m p v = some o ∧
    s.DISP.readN (c * s.P.N) s.P.N = some o

/-! ## The invariant of reachable states -/

/-- The invariant of R51, with the file contents of R37, where the displayed values come from, and the canonical form of every
memory (its addresses are a range). Item (c) holds by the width of `nchM1`. -/
structure State.Inv (s : State) : Prop where
  params : s.P.Valid
  /-- the staged bytes are those at the positions before `(CI, SI)` of the frame in progress (R37) -/
  fbuf_held : s.FBUF.map Prod.fst = List.range (if s.FS = .payload then s.CI.toNat * s.P.N + s.SI else 0)
  /-- (a) -/
  zp_le : s.ZP ≤ s.P.MAXZP
  /-- (b) -/
  rxen_run : s.RXEN = s.RUN
  /-- (d) -/
  ready_trace : s.SYNC = .ready → s.RAWV = true
  /-- (e) -/
  position : s.FS = .payload → s.CI.toNat < (decodeCW s.FCW).channelCount ∧ s.SI < s.P.N
  /-- (f) -/
  reading : s.FS ≠ .idle → s.RXEN = true
  /-- (g) -/
  kvalid : s.HALT = .none → s.KVALID = true
  kern : s.KERN = if s.KVALID then kernelTable s.P else []
  raw_held : s.RAW.map Prod.fst = List.range (if s.RAWV then s.NCH * s.P.N else 0)
  /-- (h) -/
  volt : s.VOLT = s.RAW.map (fun e => (e.1, RealTerm.toVolt e.2))
  disp_held : s.DISP.map Prod.fst = List.range (if s.RAWV then s.NCH * s.P.N else 0)
  /-- the trace on display was resampled in one mode at one zoom power (R210), which are `INTERP` and `ZP` where `REAPPLY` is true, and
  which those may have left since where it is false (R329) -/
  disp_value : s.RAWV = true →
    ∃ m, ∃ p ≤ s.P.MAXZP, s.DisplaysAt m p ∧ (s.P.REAPPLY = true → m = s.INTERP ∧ p = s.ZP)

/-- Every file is in canonical form. -/
abbrev State.FilesWf (s : State) : Prop := s.FBUF.wf ∧ s.RAW.wf ∧ s.VOLT.wf ∧ s.DISP.wf ∧ s.KERN.wf

/-- The block is not stopped by an error that only a reset ends (R296). -/
def State.Live (s : State) : Prop := s.env.rst.isSome = true ∨ s.HALT = .none ∨ s.HALT = .quit

end Machine

/-- A number format conforms (R12, U9.6): for parameters that meet R7's constraints, `abs` and the comparison are exact on finite values
(U9.1), and every real that the block holds in a state that meets the invariant is finite (U9.7) and computed within `TOL`. -/
structure Num.Conforms {R : Type} (n : Num R) (finite : R → Prop) (val : R → ℝ) (P : Params) (r : RealParams) : Prop where
  params : P.Valid
  reals : r.Valid
  abs_exact : ∀ x, finite x → val (n.abs x) = |val x|
  lt_exact : ∀ x y, finite x → finite y → (n.lt x y = true ↔ val x < val y)
  held : ∀ s : Machine.State, s.P = P → s.Inv → ∀ a t,
    s.VOLT.read a = some t ∨ s.DISP.read a = some t ∨ s.KERN.read a = some t →
      finite (t.eval n) ∧ n.within val r t

end Sys2Proof
end

