-- ==== Sys2Proof/Certificates/Slice0/Obligations.lean ====
section
/-! DEFINITION. The statements for the provers, each a def Obligations.<Name> : Prop. -/

open Sys2Proof Sys2Proof.Machine

/-! ## Encoding -/

/-- For every well-formed operation that a byte selects, its byte decodes to it in each of its contexts, with every operand at
every value the encoding admits (R92, R99, R102). -/
def Obligations.DecodeOfEncodeIsTheInstruction : Prop :=
  ∀ i : Instr, i.wf = true → ∀ x ∈ i.contexts, ∃ b, encode i = some b ∧ decodeAt x b = i

/-- Every byte selects, in every context, one well-formed operation of that context, whose byte it is (R99, R104, R106). -/
def Obligations.EncodeOfDecodeIsTheByte : Prop :=
  ∀ (x : Ctx) (b : Byte), encode (decodeAt x b) = some b ∧ (decodeAt x b).wf = true ∧ x ∈ (decodeAt x b).contexts

/-- The decoder is R106's table: the first row that takes the byte names the decoded operation. -/
def Obligations.FirstTableRowIsTheDecodedOne : Prop :=
  ∀ (x : Ctx) (b : Byte), (firstRow x b).map OpcodeRow.mnemonic = some (decodeAt x b).mnemonic

/-- R123. -/
def Obligations.CodecIsABijection : Prop :=
  (∀ b : Byte, encodeCW (decodeCW b) = b) ∧ ∀ c : AcqConfig, decodeCW (encodeCW c) = c

/-- R125: changing one field changes exactly the bits of that field's mask. -/
def Obligations.FieldChangeTouchesItsMaskOnly : Prop :=
  ∀ c : AcqConfig,
    encodeCW { c with triggerSlope := .rising } = encodeCW c ||| 0x08 ∧
    encodeCW { c with samplingMode := .equivalentTime } = encodeCW c ||| 0x80 ∧
    encodeCW { c with triggerMode := .normal } = encodeCW c ||| 0x40 ∧
    encodeCW { c with channelCountMinus1 := 3 } = encodeCW c ||| 0x30 ∧
    encodeCW { c with prescale := 7 } = encodeCW c ||| 0x07 ∧
    (∀ v, encodeCW { c with samplingMode := v } &&& ~~~(0x80 : Byte) = encodeCW c &&& ~~~(0x80 : Byte)) ∧
    (∀ v, encodeCW { c with triggerMode := v } &&& ~~~(0x40 : Byte) = encodeCW c &&& ~~~(0x40 : Byte)) ∧
    (∀ v, encodeCW { c with channelCountMinus1 := v } &&& ~~~(0x30 : Byte) = encodeCW c &&& ~~~(0x30 : Byte)) ∧
    (∀ v, encodeCW { c with triggerSlope := v } &&& ~~~(0x08 : Byte) = encodeCW c &&& ~~~(0x08 : Byte)) ∧
    (∀ v, encodeCW { c with prescale := v } &&& ~~~(0x07 : Byte) = encodeCW c &&& ~~~(0x07 : Byte)) ∧
    (∀ v, v ≠ c.samplingMode → encodeCW { c with samplingMode := v } ≠ encodeCW c) ∧
    (∀ v, v ≠ c.triggerMode → encodeCW { c with triggerMode := v } ≠ encodeCW c) ∧
    (∀ v, v ≠ c.channelCountMinus1 → encodeCW { c with channelCountMinus1 := v } ≠ encodeCW c) ∧
    (∀ v, v ≠ c.triggerSlope → encodeCW { c with triggerSlope := v } ≠ encodeCW c) ∧
    ∀ v, v ≠ c.prescale → encodeCW { c with prescale := v } ≠ encodeCW c

/-- Words written out from R99 and R102 decode to what they stand for. -/
def Obligations.DecodedWordsOfTheSpec : Prop :=
  decodeAt .cmd 0b00010010 = .setChannels 2 ∧ decodeAt .cmd 0b00100001 = .setSlope .rising ∧
  decodeAt .cmd 0b01011111 = .stepPrescale .down ∧ decodeAt .cmd 0b01100001 = .stepZoom .up ∧
  decodeAt .cmd 0b11110000 = .quit ∧ decodeAt .cmd 0b00010101 = .cmdReserved 0x15 ∧
  decodeAt (.rx .hunt) 0b00000000 = .rxSync ∧ decodeAt (.rx .flag) 0b00000010 = .rxFlagX 0x02 ∧
  (decodeCW 0b10010001).channelCount = 2

/-- R99: the operation a received byte selects, for every pair of `FS` and byte. -/
def Obligations.ReceivedByteSelectsByPosition : Prop :=
  ∀ b : Byte,
    (∀ fs, fs = .idle ∨ fs = .hunt → decodeRx fs b = if b = 0x00 then .rxSync else .rxSkip b) ∧
    decodeRx .ctrl b = .rxCtrl b ∧
    (b = 0x00 → decodeRx .flag b = .rxFlag0) ∧ (b = 0x01 → decodeRx .flag b = .rxFlag1) ∧
    (2 ≤ b.toNat → decodeRx .flag b = .rxFlagX b) ∧
    decodeRx .payload b = .rxData b

/-- R104, R258: exactly the words R104 lists are reserved; a reserved word has no effect on any register, file or port, and the step
that takes it only consumes it. -/
def Obligations.ReservedWordsDoNothing : Prop :=
  ∀ (w : Byte) (s : State),
    (decodeCmd w = .cmdReserved w ↔
      (w.toNat / 16 ∈ [0x0, 0xB, 0xC, 0xD, 0xE] ∨
       (w.toNat / 16 = 0x1 ∧ ¬ (1 ≤ w.toNat % 16 ∧ w.toNat % 16 ≤ 4)) ∨
       (w.toNat / 16 ∈ [0x2, 0x3, 0x4, 0x7] ∧ 2 ≤ w.toNat % 16) ∨
       (w.toNat / 16 ∈ [0x5, 0x6] ∧ w.toNat % 16 ≠ 0x1 ∧ w.toNat % 16 ≠ 0xF) ∨
       (w.toNat / 16 ∈ [0x8, 0x9, 0xA, 0xF] ∧ w.toNat % 16 ≠ 0))) ∧
    exec (.cmdReserved w) s = .next s ∧
    (s.env.rst = none → s.HALT = .none → s.enabled = [.cmd w] → decodeCmd w = .cmdReserved w →
      step s = .next { s with env := { s.env with cmd := s.env.cmd.tail } })

/-! ## Events and steps -/

/-- A step takes the one event on offer, removes it from the environment's offer, and is `exec` of the operation the event decodes
to; a reset on offer is taken whatever else is on offer (log entry 9). -/
def Obligations.StepRunsTheDecodedOperation : Prop :=
  ∀ s : State,
    (∀ c d, s.env.rst = some (c, d) → step s = exec (.evReset c d) { s with env := { s.env with rst := none } }) ∧
    (s.env.rst = none → s.HALT = .none →
      (∀ b, s.enabled = [.rx b] →
        step s = exec (decodeAt (.rx s.FS) b) { s with env := { s.env with rx := s.env.rx.tail } }) ∧
      (∀ w, s.enabled = [.cmd w] → step s = exec (decodeAt .cmd w) { s with env := { s.env with cmd := s.env.cmd.tail } }) ∧
      (s.enabled = [.lerr] → step s = exec .evLinkErr { s with env := { s.env with lerr := false } }) ∧
      (s.enabled = [.tmo] → step s = exec .evTimeout { s with env := { s.env with tmo := false } }))

/-- The conditions of R46 under which each event is taken, with R289's on the timeout. -/
def Obligations.EventsAreTakenOnlyUnderTheirConditions : Prop :=
  ∀ s : State,
    (∀ b, .rx b ∈ s.enabled ↔ s.HALT = .none ∧ s.KVALID = true ∧ s.RXEN = true ∧ s.env.rx.head? = some b) ∧
    (∀ w, .cmd w ∈ s.enabled ↔ s.HALT = .none ∧ s.KVALID = true ∧ s.FS = .idle ∧ s.env.cmd.head? = some w) ∧
    (.lerr ∈ s.enabled ↔ s.HALT = .none ∧ s.KVALID = true ∧ s.RXEN = true ∧ s.env.lerr = true) ∧
    (.tmo ∈ s.enabled ↔ s.HALT = .none ∧ s.KVALID = true ∧ s.FS = .idle ∧ s.env.tmo = true ∧
      (∀ b, .rx b ∉ s.enabled) ∧ ∀ w, .cmd w ∉ s.enabled)

/-- Whenever events are enabled, a step takes one of them, whichever the arbitration picks (R289); the free value's counter is the
only other thing the choice may change. -/
def Obligations.EveryStepTakesAnEnabledEvent : Prop :=
  ∀ s : State, s.env.rst = none → s.HALT = .none → s.enabled ≠ [] →
    ∃ e ∈ s.enabled, ∃ n, step s = exec (select e s.FS) (consume e { s with free := n })

/-- R46, R151, R288, R303, R324: a block that is not halted, with no reset on offer and no event enabled, stays as it is: with nothing on
offer; inside a frame read with no byte and no link error, whatever commands and timeouts are on offer; frozen with no command and
no timeout, whatever bytes and errors are. That the wait is a step that changes nothing is the model's choice (log entry 10). -/
def Obligations.BlockWaitsWhenNothingIsEnabled : Prop :=
  ∀ s : State, s.HALT = .none → s.env.rst = none →
    (s.enabled = [] → step s = .next s) ∧
    (s.env.rx = [] → s.env.cmd = [] → s.env.lerr = false → s.env.tmo = false → step s = .next s) ∧
    (s.FS ≠ .idle → s.env.rx = [] → s.env.lerr = false → step s = .next s) ∧
    (s.RXEN = false → s.env.cmd = [] → s.env.tmo = false → step s = .next s)

/-- R296: a halted block takes no event but a reset; with `STARTUP` or `LINK` a step is a fault, after `QUIT` it changes nothing (the
model's choice of a normal end, log entry 11). -/
def Obligations.HaltedBlockTakesOnlyReset : Prop :=
  ∀ s : State, s.env.rst = none →
    (s.HALT = .startup → step s = .fault .startupError) ∧
    (s.HALT = .link → step s = .fault .linkError) ∧
    (s.HALT = .quit → step s = .next s)

/-! ## Frame synchronizer -/

/-- R142, R143, R145, R147: when each is selected; each completes in every state and writes only the registers the rule names. At the
position (0, 0) of RX.FLAG1 no element of `FBUF` holds a value (the model's reading of R37, log entry 5). -/
def Obligations.HuntControlAndFlagBytes : Prop :=
  ∀ (s : State) (b : Byte),
    exec (.rxSkip b) s = .next { s with FS := .hunt } ∧
    exec .rxSync s = .next { s with FS := .ctrl } ∧
    exec (.rxCtrl b) s = .next { s with FCW := b, FS := .flag } ∧
    exec .rxFlag1 s = .next { s with FBUF := [], CI := 0, SI := 0, FS := .payload } ∧
    (s.FS = .idle ∨ s.FS = .hunt → (b ≠ 0 → decodeRx s.FS b = .rxSkip b) ∧ (b = 0 → decodeRx s.FS b = .rxSync)) ∧
    (s.FS = .ctrl → decodeRx s.FS b = .rxCtrl b) ∧
    (s.FS = .flag → b = 1 → decodeRx s.FS b = .rxFlag1)

/-- R146, R148, R150, R231, R232: a frame that is not ready completes whenever the trace on display can be shown. `CFG` takes the
frame's control word, `SYNC` becomes `SYNC_NOTREADY`, a stale snapshot is emitted when that changes it, and nothing else is written; with
no frame in progress no element of `FBUF` holds a value (log entry 5). -/
def Obligations.NotReadyFrameEnds : Prop :=
  ∀ (s : State) (rows : List (List RealTerm)), s.Shows rows →
    (∀ w, exec (.frameEmit w false) s = .next (afterSync .notReady rows { s with FS := .idle, FBUF := [], CFG := w })) ∧
    exec .rxFlag0 s = .next (afterSync .notReady rows { s with FS := .idle, FBUF := [], CFG := s.FCW }) ∧
    (∀ b, exec (.rxFlagX b) s = .next (afterSync .notReady rows { s with FS := .idle, FBUF := [], CFG := s.FCW })) ∧
    (∀ fr : Frame, fr.ready = false →
      exec (.evFrame fr) s = .next (afterSync .notReady rows { s with CFG := encodeCW fr.config })) ∧
    ∀ fr, exec (.evFrameNotReady fr) s = .next (afterSync .notReady rows s)

/-- R149: selected by any byte in `PAYLOAD`; the byte is stored at `FBUF[CI][SI]`, and then the position moves to the next sample, to the next channel, or the frame
is emitted. The stored address is the meaning's own `CI*N + SI`. -/
def Obligations.PayloadByteIsStored : Prop :=
  ∀ (s : State) (b : Byte), decodeRx .payload b = .rxData b ∧ (s.SI < s.P.N →
    ∃ m : Memory Byte,
      (∀ a, m.read a = if a = s.CI.toNat * s.P.N + s.SI then some b else s.FBUF.read a) ∧
      (s.SI < s.P.N - 1 → exec (.rxData b) s = .next { s with FBUF := m, SI := s.SI + 1 }) ∧
      (¬ s.SI < s.P.N - 1 → s.CI.toNat + 1 < (decodeCW s.FCW).channelCount →
        exec (.rxData b) s = .next { s with FBUF := m, CI := s.CI + 1, SI := 0 }) ∧
      (¬ s.SI < s.P.N - 1 → ¬ s.CI.toNat + 1 < (decodeCW s.FCW).channelCount →
        exec (.rxData b) s = exec (.frameEmit s.FCW true) { s with FBUF := m }))

/-- R150: a ready frame whose staged samples all hold values completes; its payload is `FBUF` in channel-major order, of which no
element holds a value afterwards (log entry 5). Where a sample holds no value, reading it is the fault R37 asks for. -/
def Obligations.ReadyFrameIsEmitted : Prop :=
  ∀ (s : State) (w : Byte),
    ((∃ a < (decodeCW w).channelCount * s.P.N, s.FBUF.read a = none) → exec (.frameEmit w true) s = .fault (.noValue .fbuf)) ∧
    (s.CanResample → s.DISP.wf → (∀ a < (decodeCW w).channelCount * s.P.N, (s.FBUF.read a).isSome = true) →
      ∃ v d rows, v.length = (decodeCW w).channelCount * s.P.N ∧ (∀ j < v.length, v[j]? = s.FBUF.read j) ∧
        exec (.frameEmit w true) s =
          .next (afterReady (decodeCW w) v d rows { s with FS := .idle, FBUF := [], CFG := w }) ∧
        s.Displays (decodeCW w) v d rows)

/-- R231, R233: a ready frame replaces `RAW`, `VOLT` and `DISP`, is resampled, makes `SYNC` ready, ends an armed sweep and emits one
fresh snapshot; nothing else is written. -/
def Obligations.ReadyFrameReplacesTheTrace : Prop :=
  ∀ (s : State) (fr : Frame) (v : List Byte), s.CanResample → s.DISP.wf → fr.ready = true →
    frameSamples s.P.N fr = some v →
    (∃ d rows, exec (.evFrameReady fr) s = .next (afterReady fr.config v d rows s) ∧ s.Displays fr.config v d rows) ∧
    ∃ d rows, exec (.evFrame fr) s = .next (afterReady fr.config v d rows { s with CFG := encodeCW fr.config }) ∧
      s.Displays fr.config v d rows

/-! ## Value-returning operations -/

/-- R121: the fields of the result, bit by bit; nothing but the result is written (where it stands is the model's, log entry 13). -/
def Obligations.DecodeReadsTheFields : Prop :=
  ∀ (s : State) (b : Byte), ∃ c : AcqConfig, exec (.decode b) s = .next { s with ret := .config c } ∧
    (c.samplingMode = if b.toNat / 128 = 0 then .realTime else .equivalentTime) ∧
    (c.triggerMode = if b.toNat / 64 % 2 = 0 then .auto else .normal) ∧
    c.channelCount = b.toNat / 16 % 4 + 1 ∧
    (c.triggerSlope = if b.toNat / 8 % 2 = 0 then .falling else .rising) ∧
    c.prescale.toNat = b.toNat % 8

/-- R124: the word as an integer; nothing but the result is written (where it stands is the model's, log entry 13). -/
def Obligations.EncodeAssemblesTheFields : Prop :=
  ∀ (s : State) (c : AcqConfig), ∃ b : Byte, exec (.encode c) s = .next { s with ret := .byte b } ∧
    b.toNat = 128 * (if c.samplingMode = .equivalentTime then 1 else 0) + 64 * (if c.triggerMode = .normal then 1 else 0) +
      16 * (c.channelCount - 1) + 8 * (if c.triggerSlope = .rising then 1 else 0) + c.prescale.toNat

/-- R171: the value of the result, exact and in every number format, in the order written; nothing but the result is written (where it
stands is the model's, log entry 13). -/
def Obligations.ToVoltIsTheAffineMap : Prop :=
  ∀ (s : State) (raw : Byte), ∃ t : RealTerm, exec (.toVolt raw) s = .next { s with ret := .real t } ∧
    (∀ vmin vmax : ℝ, t.toReal vmin vmax = vmin + (vmax - vmin) * ((raw.toNat : ℝ) / 255)) ∧
    ∀ (R : Type) (n : Num R),
      t.eval n = n.add n.vmin (n.mul (n.sub n.vmax n.vmin) (n.div (n.ofNat raw.toNat) (n.ofNat 255)))

/-- R172: in exact arithmetic; and in every number format with the named properties, where the ends and the strict bounds of the codes
between them follow. -/
def Obligations.ToVoltEndsAndIncreases : Prop :=
  (∀ r : RealParams, r.Valid →
    (RealTerm.toVolt 0).toReal r.VMIN r.VMAX = r.VMIN ∧ (RealTerm.toVolt 255).toReal r.VMIN r.VMAX = r.VMAX ∧
    ∀ a b : Byte, a.toNat < b.toNat →
      (RealTerm.toVolt a).toReal r.VMIN r.VMAX < (RealTerm.toVolt b).toReal r.VMIN r.VMAX) ∧
  ∀ (R : Type) (n : Num R) (finite : R → Prop), n.NamedVolts finite →
    (RealTerm.toVolt 0).eval n = n.vmin ∧ (RealTerm.toVolt 255).eval n = n.vmax ∧
    ∀ a : Byte, (a ≠ 0 → n.lt n.vmin ((RealTerm.toVolt a).eval n) = true) ∧
      (a ≠ 255 → n.lt ((RealTerm.toVolt a).eval n) n.vmax = true)

/-- R181: the value of the result, exact and in every number format; nothing but the result is written (where it stands is the model's,
log entry 13). -/
def Obligations.SincIsTheGuardedQuotient : Prop :=
  ∀ (s : State) (x : RealTerm), ∃ t : RealTerm, exec (.sinc x) s = .next { s with ret := .real t } ∧
    (∀ vmin vmax : ℝ, t.toReal vmin vmax =
      if |x.toReal vmin vmax| > 1 / 1000 then Real.sin (x.toReal vmin vmax) / x.toReal vmin vmax else 1) ∧
    ∀ (R : Type) (n : Num R), t.eval n = n.sinc (x.eval n)

/-- R182: `sinc(0) = 1`, the quotient outside the guard, and evenness, in exact arithmetic; evenness also in every number format with
the named properties U9.1 and U9.2. -/
def Obligations.SincIsEven : Prop :=
  (∀ vmin vmax : ℝ, ∀ x y : RealTerm,
    (x.toReal vmin vmax = 0 → x.sinc.toReal vmin vmax = 1) ∧
    (|x.toReal vmin vmax| > 1 / 1000 →
      x.sinc.toReal vmin vmax = Real.sin (x.toReal vmin vmax) / x.toReal vmin vmax) ∧
    (y.toReal vmin vmax = -x.toReal vmin vmax → y.sinc.toReal vmin vmax = x.sinc.toReal vmin vmax)) ∧
  ∀ (R : Type) (n : Num R) (neg : R → R) (finite : R → Prop), n.Named neg finite →
    ∀ x y : RealTerm, y.eval n = neg (x.eval n) → y.sinc.eval n = x.sinc.eval n

/-! ## Kernels and interpolation -/

/-- R184, R186: KBUILD completes, writes exactly the `(MAXZP+1)*N*N` elements of `KERN`, each with the exact value of R184 and in
every number format with the value of R186's expression, and `KVALID`. -/
def Obligations.KbuildFillsTheTable : Prop :=
  ∀ s : State, ∃ k : Memory RealTerm, exec .kbuild s = .next { s with KERN := k, KVALID := true } ∧
    (∀ p ≤ s.P.MAXZP, ∀ r < s.P.N, ∀ m < s.P.N, ∃ t, k.read ((p * s.P.N + r) * s.P.N + m) = some t ∧
      (∀ vmin vmax : ℝ, t.toReal vmin vmax = sincExact (Real.pi * ((r : ℝ) / 2 ^ p - m))) ∧
      ∀ (R : Type) (n : Num R), t.eval n = n.sinc (n.mul n.pi (n.sub
        (n.add (n.ofNat (r / 2 ^ p)) (n.div (n.ofNat (r % 2 ^ p)) (n.ofNat (2 ^ p)))) (n.ofNat m)))) ∧
    ∀ a, (s.P.MAXZP + 1) * s.P.N * s.P.N ≤ a → k.read a = none

/-- R188, R189: at an integer phase the kernel row is one-hot; at zoom power 0 every row is one. -/
def Obligations.IntegerPhasesAreOneHot : Prop :=
  ∀ vmin vmax : ℝ, ∀ p k m : Nat,
    (kernelEntry p (k * 2 ^ p) m).toReal vmin vmax = if k = m then 1 else 0

/-- R190: an entry depends on `k` and `m` only through `k - m`, the prototype is even, and the coarser table is nested in the
finer one. -/
def Obligations.KernelIsPolyphase : Prop :=
  ∀ vmin vmax : ℝ, ∀ p k l m : Nat, l < 2 ^ p →
    (kernelEntry p (k * 2 ^ p + l) m).toReal vmin vmax =
      sincExact (Real.pi * (((k : ℝ) - m) * 2 ^ p + l) / 2 ^ p) ∧
    (∀ k' m' : Nat, k + m' = k' + m →
      (kernelEntry p (k' * 2 ^ p + l) m').toReal vmin vmax = (kernelEntry p (k * 2 ^ p + l) m).toReal vmin vmax) ∧
    (∀ j : ℝ, sincExact (Real.pi * -j / 2 ^ p) = sincExact (Real.pi * j / 2 ^ p)) ∧
    ∀ r, (kernelEntry (p + 1) (2 * r) m).toReal vmin vmax = (kernelEntry p r m).toReal vmin vmax

/-- R200, R201, R203: ILIN completes for every zoom factor `2^p <= N` and writes the `N` outputs of its channel with the values of
the formula, exact and in every number format in the order written, the copy at `l = 0`; every other element of `DISP` is unchanged, and nothing else is written. -/
def Obligations.IlinWritesTheInterpolatedRow : Prop :=
  ∀ (s : State) (c : BitVec 2) (p : Nat) (v : List RealTerm), s.P.Valid → p ≤ s.P.N.log2 →
    s.VOLT.readN (c.toNat * s.P.N) s.P.N = some v →
    ∃ d o, exec (.ilin c (2 ^ p)) s = .next { s with DISP := d } ∧
      d.readN (c.toNat * s.P.N) s.P.N = some o ∧ o.length = s.P.N ∧
      (∀ a, a < c.toNat * s.P.N ∨ (c.toNat + 1) * s.P.N ≤ a → d.read a = s.DISP.read a) ∧
      (∀ vmin vmax : ℝ, ∀ k < s.P.N / 2 ^ p, ∀ l < 2 ^ p,
        valueAt vmin vmax o (k * 2 ^ p + l) =
          valueAt vmin vmax v k + (valueAt vmin vmax v (k + 1) - valueAt vmin vmax v k) * ((l : ℝ) / 2 ^ p)) ∧
      ∀ (R : Type) (n : Num R), ∀ k < s.P.N / 2 ^ p, ∀ l < 2 ^ p,
        n.valueAt o (k * 2 ^ p + l) = if l = 0 then n.valueAt v k else
          n.add (n.valueAt v k)
            (n.mul (n.sub (n.valueAt v (k + 1)) (n.valueAt v k)) (n.div (n.ofNat l) (n.ofNat (2 ^ p))))

/-- R204: the identity copy at `z = 1`, the copy at `l = 0`, and each output between its two neighbours. -/
def Obligations.IlinCopiesAndStaysBetweenNeighbours : Prop :=
  ∀ (N p : Nat) (v o : List RealTerm), N = 2 ^ N.log2 → p ≤ N.log2 → v.length = N → ilin N (2 ^ p) v = some o →
    (p = 0 → o = v) ∧
    (∀ k < N / 2 ^ p, o[k * 2 ^ p]? = v[k]?) ∧
    ∀ vmin vmax : ℝ, ∀ k < N / 2 ^ p, ∀ l < 2 ^ p, l ≠ 0 →
      min (valueAt vmin vmax v k) (valueAt vmin vmax v (k + 1)) ≤ valueAt vmin vmax o (k * 2 ^ p + l) ∧
      valueAt vmin vmax o (k * 2 ^ p + l) ≤ max (valueAt vmin vmax v k) (valueAt vmin vmax v (k + 1))

/-- R200, R205: ISINC completes whenever the kernels are built and its rows hold values, and writes the `N` outputs of its channel
with the values of the formula, exact and in every number format in the order written; every other element of `DISP` is unchanged,
and nothing else is written. With `KVALID = 0` it is the model's fault (R322, log entry 19). -/
def Obligations.IsincWritesTheInterpolatedRow : Prop :=
  ∀ (s : State) (c : BitVec 2) (p : Nat),
    (s.KVALID = false → exec (.isinc c p) s = .fault .kernelNotBuilt) ∧
    ∀ v : List RealTerm, s.P.Valid → p ≤ s.P.N.log2 → s.KVALID = true →
      s.VOLT.readN (c.toNat * s.P.N) s.P.N = some v →
      (∀ r < s.P.N, (s.KERN.readN ((p * s.P.N + r) * s.P.N) s.P.N).isSome = true) →
      ∃ d o, exec (.isinc c p) s = .next { s with DISP := d } ∧
        d.readN (c.toNat * s.P.N) s.P.N = some o ∧ o.length = s.P.N ∧
        (∀ a, a < c.toNat * s.P.N ∨ (c.toNat + 1) * s.P.N ≤ a → d.read a = s.DISP.read a) ∧
        ∀ r < s.P.N, ∀ w, s.KERN.readN ((p * s.P.N + r) * s.P.N) s.P.N = some w →
          (∀ vmin vmax : ℝ, valueAt vmin vmax o r = valueAt vmin vmax v 0 +
            ∑ m ∈ Finset.range s.P.N, (valueAt vmin vmax v m - valueAt vmin vmax v 0) * valueAt vmin vmax w m) ∧
          ∀ (R : Type) (n : Num R), n.valueAt o r = n.add (n.valueAt v 0) (n.accumulate v w s.P.N)

/-- R207, in exact arithmetic, with the table KBUILD builds: the identity at zoom power 0, the samples at integer phases, affine
equivariance, and constants. -/
def Obligations.IsincReconstructsExactly : Prop :=
  ∀ (P : Params) (p : Nat) (v o : List RealTerm), P.Valid → p ≤ P.MAXZP → v.length = P.N →
    isinc P.N p (fun r => (kernelTable P).readN ((p * P.N + r) * P.N) P.N) v = some o →
    ∀ vmin vmax : ℝ,
      (p = 0 → ∀ j < P.N, valueAt vmin vmax o j = valueAt vmin vmax v j) ∧
      (∀ k < P.N / 2 ^ p, valueAt vmin vmax o (k * 2 ^ p) = valueAt vmin vmax v k) ∧
      (∀ (a b : ℝ) (v' o' : List RealTerm), v'.length = P.N →
        isinc P.N p (fun r => (kernelTable P).readN ((p * P.N + r) * P.N) P.N) v' = some o' →
        (∀ m < P.N, valueAt vmin vmax v' m = a + b * valueAt vmin vmax v m) →
        ∀ j < P.N, valueAt vmin vmax o' j = a + b * valueAt vmin vmax o j) ∧
      ((∀ m < P.N, valueAt vmin vmax v m = valueAt vmin vmax v 0) →
        ∀ j < P.N, valueAt vmin vmax o j = valueAt vmin vmax v 0)

/-- R210: RESAMPLE completes in every state that meets the invariant, has a trace and is not halted. Each valid channel's row of `DISP`
is the interpolator of `INTERP` at `ZP` applied to that channel's voltages, and nothing else is written. -/
def Obligations.ResampleWritesEveryValidChannel : Prop :=
  ∀ s : State, s.Inv → s.RAWV = true → s.KVALID = true →
    ∃ d, exec .resample s = .next { s with DISP := d } ∧
      (∀ c < s.NCH, ∃ v o, s.VOLT.readN (c * s.P.N) s.P.N = some v ∧ d.readN (c * s.P.N) s.P.N = some o ∧
        (s.INTERP = .linear → ilin s.P.N (2 ^ s.ZP) v = some o) ∧
        (s.INTERP = .sinc →
          isinc s.P.N s.ZP (fun r => s.KERN.readN ((s.ZP * s.P.N + r) * s.P.N) s.P.N) v = some o)) ∧
      ∀ a, s.NCH * s.P.N ≤ a → d.read a = s.DISP.read a

/-- R211: the output of a channel depends on that channel's voltages, `ZP`, `INTERP` and `KERN` only. -/
def Obligations.ChannelsAreIndependent : Prop :=
  ∀ (s s' t t' : State) (c : Nat), s.P.Valid → s.ZP ≤ s.P.MAXZP →
    s'.P = s.P → s'.ZP = s.ZP → s'.INTERP = s.INTERP → s'.KERN = s.KERN →
    c < s.NCH → c < s'.NCH → s'.VOLT.readN (c * s.P.N) s.P.N = s.VOLT.readN (c * s.P.N) s.P.N →
    exec .resample s = .next t → exec .resample s' = .next t' →
    t'.DISP.readN (c * s.P.N) s.P.N = t.DISP.readN (c * s.P.N) s.P.N

/-- R212: with re-application, zooming in one power and back restores `DISP` exactly; only outputs were added. That the trace on display
is the one of `ZP` and `INTERP` is part of the invariant (R329). -/
def Obligations.ZoomInAndBackRestoresTheTrace : Prop :=
  ∀ s : State, s.Inv → s.KVALID = true → s.P.REAPPLY = true → s.RAWV = true → s.ZP < s.P.MAXZP →
    ∃ t u, exec (.stepZoom .up) s = .next t ∧ t.ZP = s.ZP + 1 ∧ exec (.stepZoom .down) t = .next u ∧
      u = { s with out := u.out }

/-- R286: kernel weights, voltages and display values are bounded, the last in every state that meets the invariant and has a trace,
whether or not `ZP` and `INTERP` have moved on since the trace was resampled (R329). -/
def Obligations.RealsAreBounded : Prop :=
  ∀ k : RealParams, k.Valid →
    (∀ p r m : Nat, |(kernelEntry p r m).toReal k.VMIN k.VMAX| ≤ 1) ∧
    (∀ raw : Byte, |(RealTerm.toVolt raw).toReal k.VMIN k.VMAX| ≤ max |k.VMIN| |k.VMAX|) ∧
    ∀ s : State, s.Inv → s.RAWV = true → ∀ c < s.NCH, ∀ j < s.P.N,
      ∃ x x0, s.DISP.read (c * s.P.N + j) = some x ∧ s.VOLT.read (c * s.P.N) = some x0 ∧
        |x.toReal k.VMIN k.VMAX| ≤ |x0.toReal k.VMIN k.VMAX| + s.P.N * (k.VMAX - k.VMIN)

/-! ## Sequencer -/

/-- R240, R241, with no link error on offer: a retune to a `VALID` configuration writes `CFG`, emits it on `TX`, makes `SYNC` `UNSYNC`,
and emits a stale snapshot when that changes it; any other retune does nothing. -/
def Obligations.RetuneSendsAndDesynchronizes : Prop :=
  ∀ (s : State) (c : AcqConfig) (rows : List (List RealTerm)), s.env.lerr = false → s.Shows rows →
    (((psRange s.P c.samplingMode).1 ≤ c.prescale.toNat ∧ c.prescale.toNat ≤ (psRange s.P c.samplingMode).2) →
      exec (.retune c) s = .next (afterRetune (encodeCW c) rows s)) ∧
    (¬ ((psRange s.P c.samplingMode).1 ≤ c.prescale.toNat ∧ c.prescale.toNat ≤ (psRange s.P c.samplingMode).2) →
      exec (.retune c) s = .next s)

/-- R242, R243, R244, R246, R247, with no link error on offer: each retune command whose result is VALID sends the control word in which
exactly its own field is replaced. -/
def Obligations.RetuneCommandsReplaceOneField : Prop :=
  ∀ (s : State) (rows : List (List RealTerm)), s.env.lerr = false → s.Shows rows →
    s.RetuneCommands fun i w => exec i s = .next (afterRetune w rows s)

/-- R240-R244, R246, R247: each of the five retune commands, when its result falls outside the type or outside `PS_RANGE` of the
result's mode, is dropped whole. The current prescale may be outside already, since the device reports any (R231). -/
def Obligations.RejectedRetuneDoesNothing : Prop :=
  ∀ s : State,
    (∀ n : BitVec 4, n.toNat = 0 ∨ 4 < n.toNat → exec (.setChannels n) s = .next s) ∧
    (s.CFG.toNat % 8 < (psRange s.P s.cfg.samplingMode).1 ∨ (psRange s.P s.cfg.samplingMode).2 < s.CFG.toNat % 8 →
      (∀ n, exec (.setChannels n) s = .next s) ∧ (∀ e, exec (.setSlope e) s = .next s) ∧
      ∀ m, exec (.setTrigMode m) s = .next s) ∧
    (∀ m, s.CFG.toNat % 8 < (psRange s.P m).1 ∨ (psRange s.P m).2 < s.CFG.toNat % 8 →
      exec (.setSampMode m) s = .next s) ∧
    (s.CFG.toNat % 8 = 7 ∨ s.CFG.toNat % 8 + 1 < (psRange s.P s.cfg.samplingMode).1 ∨
        (psRange s.P s.cfg.samplingMode).2 < s.CFG.toNat % 8 + 1 →
      exec (.stepPrescale .up) s = .next s) ∧
    (s.CFG.toNat % 8 = 0 ∨ s.CFG.toNat % 8 - 1 < (psRange s.P s.cfg.samplingMode).1 ∨
        (psRange s.P s.cfg.samplingMode).2 < s.CFG.toNat % 8 - 1 →
      exec (.stepPrescale .down) s = .next s)

/-- R283, R240: with a link error on offer during its `TX` write, the writes of a retune, and of each retune command whose result is
VALID, stand and the halt follows in the same step: always while `RXEN = 0`; while `RXEN = 1` the write may meet the error or leave it
on offer (log entries 14 and 15). -/
def Obligations.RetuneMayMeetALinkError : Prop :=
  ∀ (s : State) (rows : List (List RealTerm)), s.env.lerr = true → s.Shows rows →
    (∀ c, validConfig s.P c = true → s.SendsUnderLinkError rows (.retune c) (encodeCW c)) ∧
    s.RetuneCommands (s.SendsUnderLinkError rows)

/-- R245: what a `TMO` event selects; a timeout degrades a ready trace while running, and does nothing in any other state. -/
def Obligations.TimeoutMarksTheTraceStale : Prop :=
  ∀ (s : State) (rows : List (List RealTerm)), s.Shows rows →
    (s.RUN = true → s.SYNC = .ready → exec .evTimeout s = .next
      { s with SYNC := .notReady,
               out := s.out ++ [.dispout (snapshotWith false rows { s with SYNC := .notReady })] }) ∧
    (¬ (s.RUN = true ∧ s.SYNC = .ready) → exec .evTimeout s = .next s) ∧
    select .tmo s.FS = .evTimeout

/-- R250: the zoom power saturates at both ends; the trace is re-applied exactly when `REAPPLY` and `RAWV` hold, which writes the valid
rows of `DISP` and no other element. -/
def Obligations.ZoomStepSaturates : Prop :=
  ∀ (s : State) (d : StepDir),
    ∃ zp, (d = .up → zp = min s.P.MAXZP (s.ZP + 1)) ∧ (d = .down → zp = min s.P.MAXZP (s.ZP - 1)) ∧
      ((s.P.REAPPLY && s.RAWV) = false → exec (.stepZoom d) s = .next { s with ZP := zp }) ∧
      (s.Inv → s.KVALID = true → s.P.REAPPLY = true → s.RAWV = true →
        ∃ m rows, exec (.stepZoom d) s = .next (afterReapply m rows { s with ZP := zp }) ∧
          State.Resampled { s with ZP := zp, DISP := m } ∧ State.Shows { s with DISP := m } rows ∧
          ∀ a, s.NCH * s.P.N ≤ a → m.read a = s.DISP.read a)

/-- R251: the mode is written; the trace is re-applied exactly when `REAPPLY` and `RAWV` hold, which writes the valid rows of `DISP` and
no other element. -/
def Obligations.SetInterpWritesTheMode : Prop :=
  ∀ (s : State) (i : Interp),
    ((s.P.REAPPLY && s.RAWV) = false → exec (.setInterp i) s = .next { s with INTERP := i }) ∧
    (s.Inv → s.KVALID = true → s.P.REAPPLY = true → s.RAWV = true →
      ∃ m rows, exec (.setInterp i) s = .next (afterReapply m rows { s with INTERP := i }) ∧
        State.Resampled { s with INTERP := i, DISP := m } ∧ State.Shows { s with DISP := m } rows ∧
        ∀ a, s.NCH * s.P.N ≤ a → m.read a = s.DISP.read a)

/-- R235, R252, R253, R254: the run flags change together, and leaving `Frozen` empties the backlog and says so on `RXFLUSH`. -/
def Obligations.RunModeCommands : Prop :=
  ∀ s : State,
    (s.RUN = true → exec .toggleRun s = .next { s with RUN := false, RXEN := false }) ∧
    (s.RUN = false → exec .toggleRun s = .next
      { s with RUN := true, RXEN := true, env := { s.env with rx := [] }, out := s.out ++ [.rxflush] }) ∧
    exec .unfreeze s = .next
      { s with RUN := true, RXEN := true, env := { s.env with rx := [] }, out := s.out ++ [.rxflush] } ∧
    (s.RUN = true → exec .armSingle s = .next { s with SSA := true }) ∧
    (s.RUN = false → exec .armSingle s = .next
      { s with SSA := true, RUN := true, RXEN := true, env := { s.env with rx := [] }, out := s.out ++ [.rxflush] }) ∧
    exec .singleDone s = .next { s with RUN := false, SSA := false, RXEN := false }

/-- R261 (b), R331: an armed block is running; frames that are not ready leave it armed; the first ready frame freezes and disarms
it, and a frozen block takes no received byte. -/
def Obligations.SingleSweepFreezesOnce : Prop :=
  ∀ s a : State, s.RXEN = s.RUN → exec .armSingle s = .next a →
    a.SSA = true ∧ a.RUN = true ∧ a.RXEN = true ∧
    (∀ fr u, fr.ready = false → exec (.evFrame fr) a = .next u → u.SSA = true ∧ u.RUN = true ∧ u.RXEN = true) ∧
    ∀ fr t, fr.ready = true → exec (.evFrame fr) a = .next t →
      t.RUN = false ∧ t.SSA = false ∧ t.RXEN = false ∧ t.SYNC = .ready ∧ ∀ b, .rx b ∉ t.enabled

/-- R256: the dump carries the raw rows and the current configuration; without a ready frame nothing is emitted; no state is
written. -/
def Obligations.DumpCarriesTheRawRows : Prop :=
  ∀ s : State,
    (s.RAWV = false → exec .dumpRaw s = .next s) ∧
    ∀ rows, s.RAWV = true → s.RAW.readRows s.P.N 0 s.NCH = some rows →
      exec .dumpRaw s = .next { s with out := s.out ++ [.dumpout { cfg := decodeCW s.CFG, nch := s.NCH, raw := rows }] }

/-- R257, R283, R293: QUIT and a link error halt with their cause and emit it; everything else keeps its value; after it the block
takes no event but a reset. -/
def Obligations.QuitAndLinkErrorHalt : Prop :=
  ∀ s : State,
    exec .quit s = .next { s with HALT := .quit, out := s.out ++ [.exit .quit] } ∧
    exec .evLinkErr s = .next { s with HALT := .link, out := s.out ++ [.exit .link] } ∧
    ∀ t, (exec .quit s = .next t ∨ exec .evLinkErr s = .next t) → t.enabled = []

/-! ## Reset -/

/-- R310, R311, R312: the reset sequence from any state, halted ones included. The parameters, the environment's offers and the
model's own fields stay; `FCW`, `CI`, `SI` and `NCH`, which R50 gives no value, take the model's (log entry 4). -/
def Obligations.ResetSequence : Prop :=
  ∀ (s : State) (chanOk dispOk : Bool),
    exec (.evReset true true) s = .next
      { State.resetWith s.P with env := s.env, out := s.out, ret := s.ret, free := s.free } ∧
    ((chanOk && dispOk) = false → exec (.evReset chanOk dispOk) s = .next
      { State.resetWith s.P with
        KVALID := false, KERN := [], HALT := .startup,
        env := s.env, out := s.out ++ [.exit .startup], ret := s.ret, free := s.free })

/-- R50, R310, R313: what a reset leaves, from any state. A successful one sets every register that R50 gives a value, empties the
buffers, builds the whole table of R184 and emits nothing; a failed one differs in `HALT`, `KVALID` and `KERN`. -/
def Obligations.ResetLeavesTheStatedValues : Prop :=
  ∀ (s : State) (chanOk dispOk : Bool), ∃ t, exec (.evReset chanOk dispOk) s = .next t ∧
    t.CFG = s.P.CFG_RESET ∧ t.ZP = 0 ∧ t.INTERP = .linear ∧ t.FS = .idle ∧ t.SYNC = .unsync ∧ t.RUN = true ∧ t.SSA = false ∧
    t.RXEN = true ∧ t.RAWV = false ∧
    (∀ a, t.FBUF.read a = none ∧ t.RAW.read a = none ∧ t.VOLT.read a = none ∧ t.DISP.read a = none) ∧
    (chanOk = true → dispOk = true → t.HALT = .none ∧ t.KVALID = true ∧ t.out = s.out ∧ t.env = s.env ∧
      ∀ p ≤ s.P.MAXZP, ∀ r < s.P.N, ∀ m < s.P.N, ∃ x, t.KERN.read ((p * s.P.N + r) * s.P.N + m) = some x ∧
        ∀ vmin vmax : ℝ, x.toReal vmin vmax = sincExact (Real.pi * ((r : ℝ) / 2 ^ p - m))) ∧
    (chanOk = false ∨ dispOk = false → t.HALT = .startup ∧ t.KVALID = false ∧ ∀ a, t.KERN.read a = none)

/-- The invariant holds after reset, for every valid parameter record; `State.reset` is the state a successful reset leaves for the
default parameters (log entry 1), whose `CFG_RESET` is 0x00. -/
def Obligations.ResetMeetsTheInvariant : Prop :=
  State.reset.Inv ∧ (∀ P : Params, P.Valid → (State.resetWith P).Inv) ∧ State.reset.CFG = 0x00 ∧
  ∀ s : State, s.P = Params.default → exec (.evReset true true) s = .next
    { State.reset with env := s.env, out := s.out, ret := s.ret, free := s.free }

/-! ## The whole machine -/

/-- R51: every step from a state that meets the invariant gives a state that meets it. The canonical form in it is the model's choice (log
entry 6), and when `FBUF` is emptied its reading of R37 (log entry 5). -/
def Obligations.StepKeepsTheInvariant : Prop :=
  ∀ s t : State, s.Inv → step s = .next t → t.Inv

/-- R285, R286, R37: from a state that meets the invariant and is not stopped by an error, a step always answers a next state: no
received byte, command or timeout raises anything, and no element without a value is read. That a step answers the same state with
nothing enabled, and after `QUIT`, is the model's choice (log entries 10 and 11). -/
def Obligations.StepNeverFaultsUnderTheInvariant : Prop :=
  ∀ s : State, s.Inv → s.Live → ∃ t, step s = .next t

/-- R237: the only steps that change `SYNC` without a reset. -/
def Obligations.SyncChangesOnlyByItsTable : Prop :=
  ∀ s t : State, s.env.rst = none → step s = .next t → t.SYNC ≠ s.SYNC →
    (t.SYNC = .ready ∧ s.FS = .payload ∧ t.FS = .idle) ∨
    (t.SYNC = .notReady ∧ s.FS = .flag ∧ t.FS = .idle) ∨
    (t.SYNC = .unsync ∧ s.FS = .idle ∧ ∃ w, s.env.cmd.head? = some w ∧ 1 ≤ w.toNat / 16 ∧ w.toNat / 16 ≤ 5) ∨
    (t.SYNC = .notReady ∧ s.SYNC = .ready ∧ s.RUN = true ∧ s.FS = .idle ∧ s.env.tmo = true)

/-- R152: the only transitions of `FS` without a reset, each by a received byte. -/
def Obligations.FsMovesOnlyByItsTable : Prop :=
  ∀ s t : State, s.env.rst = none → step s = .next t → t.FS ≠ s.FS →
    s.RXEN = true ∧ ∃ b, s.env.rx.head? = some b ∧
      ((s.FS = .idle ∧ b ≠ 0 ∧ t.FS = .hunt) ∨
       ((s.FS = .idle ∨ s.FS = .hunt) ∧ b = 0 ∧ t.FS = .ctrl) ∨
       (s.FS = .ctrl ∧ t.FS = .flag) ∨
       (s.FS = .flag ∧ b = 1 ∧ t.FS = .payload) ∨
       (s.FS = .flag ∧ b ≠ 1 ∧ t.FS = .idle) ∨
       (s.FS = .payload ∧ ¬ s.SI < s.P.N - 1 ∧ ¬ s.CI.toNat + 1 < (decodeCW s.FCW).channelCount ∧ t.FS = .idle))

/-- R38, R66, R291: without a reset, only the step that ends a ready frame changes `RAW`, `VOLT`, `RAWV` or `NCH`, and beside it only the
re-application of a STEP_ZOOM or SET_INTERP word taken in that step changes `DISP` (R250, R251); a step that ends inside a frame read
changes `DISP` and `CFG` no more, and emits no snapshot. -/
def Obligations.TraceChangesOnlyWhenAFrameEnds : Prop :=
  ∀ s t : State, s.env.rst = none → step s = .next t →
    (¬ (s.FS = .payload ∧ t.FS = .idle) →
      t.RAW = s.RAW ∧ t.VOLT = s.VOLT ∧ t.RAWV = s.RAWV ∧ t.nchM1 = s.nchM1 ∧
      (t.DISP = s.DISP ∨ (s.FS = .idle ∧ s.P.REAPPLY = true ∧ s.RAWV = true ∧ t.env = { s.env with cmd := s.env.cmd.tail } ∧
        ∃ w, s.env.cmd.head? = some w ∧ (w = 0x61 ∨ w = 0x6F ∨ w = 0x70 ∨ w = 0x71)))) ∧
    (t.FS ≠ .idle → t.CFG = s.CFG ∧ t.SYNC = s.SYNC ∧ t.DISP = s.DISP ∧
      ∃ new, t.out = s.out ++ new ∧ ∀ v, .dispout v ∉ new)

/-- R40, R187, R323, R21: no step but a reset writes `KERN` or `KVALID`, and no step at all writes the parameters. -/
def Obligations.KernelsAndParametersAreFixed : Prop :=
  ∀ s t : State, step s = .next t →
    t.P = s.P ∧ (s.env.rst = none → t.KERN = s.KERN ∧ t.KVALID = s.KVALID)

/-- R24, R25, R249: without a reset, only STEP_ZOOM changes `ZP` and only SET_INTERP changes `INTERP`, and a step that changes either
leaves the configuration, the synchronization, the run flags and the raw data alone. -/
def Obligations.ZoomStateHasOnlyItsCommands : Prop :=
  ∀ s t : State, s.env.rst = none → step s = .next t →
    (t.ZP ≠ s.ZP → ∃ w, s.env.cmd.head? = some w ∧ (w = 0x61 ∨ w = 0x6F)) ∧
    (t.INTERP ≠ s.INTERP → ∃ w, s.env.cmd.head? = some w ∧ (w = 0x70 ∨ w = 0x71)) ∧
    (t.ZP ≠ s.ZP ∨ t.INTERP ≠ s.INTERP →
      t.CFG = s.CFG ∧ t.SYNC = s.SYNC ∧ t.RUN = s.RUN ∧ t.SSA = s.SSA ∧ t.RXEN = s.RXEN ∧ t.RAW = s.RAW ∧ t.VOLT = s.VOLT)

/-- R107, R240, R241: outputs only grow; whatever a step sends on `TX` is the new configuration, a `VALID` one, and the block is
desynchronized. -/
def Obligations.TransmittedWordsAreValid : Prop :=
  ∀ s t : State, step s = .next t → ∃ new, t.out = s.out ++ new ∧
    ∀ b, .tx b ∈ new → t.CFG = b ∧ t.SYNC = .unsync ∧ validConfig s.P (decodeCW b) = true

/-- R156, R303: a frozen block leaves the backlog alone until TOGGLE_RUN or ARM_SINGLE, which empty it; nothing else wakes it. -/
def Obligations.FrozenBlockTakesNoByte : Prop :=
  ∀ s t : State, s.RUN = false → s.RXEN = false → s.env.rst = none → step s = .next t →
    (t.RUN = false ∧ t.RXEN = false ∧ t.env.rx = s.env.rx) ∨
    (t.RUN = true ∧ t.RXEN = true ∧ t.env.rx = [] ∧ ∃ w, s.env.cmd.head? = some w ∧ (w = 0x80 ∨ w = 0x90))

/-- R63, R97, R154: the byte-per-step operations read a whole frame: after any non-zero bytes, a sync byte, a control word, the flag 1
and `channelCount * N` bytes, one step a byte, the block is back in `IDLE` with `CFG` the control word and `RAW` the payload,
channel-major; the bytes after the frame are untouched. -/
def Obligations.WholeReadyFrameIsRead : Prop :=
  ∀ (s : State) (skip payload rest : List Byte) (w : Byte),
    s.Inv → s.HALT = .none → s.RUN = true → s.FS = .idle → s.env.rst = none → s.env.lerr = false → s.env.cmd = [] →
    (∀ b ∈ skip, b ≠ 0) → payload.length = (decodeCW w).channelCount * s.P.N →
    s.env.rx = skip ++ 0x00 :: w :: 0x01 :: payload ++ rest →
    ∃ t, Host.Core.run Sys2Proof.core (skip.length + 3 + payload.length) s = .next t ∧
      t.FS = .idle ∧ t.CFG = w ∧ t.SYNC = .ready ∧ t.RAWV = true ∧ t.NCH = (decodeCW w).channelCount ∧
      t.env.rx = rest ∧ t.RUN = !s.SSA ∧ ∀ a, t.RAW.read a = payload[a]?

/-- Every operation keeps every file in canonical form, which is the model's choice (log entry 6): R36 and R37 give the elements of a
file and no order of them. -/
def Obligations.ExecKeepsFilesCanonical : Prop :=
  ∀ (i : Instr) (s t : State), s.FilesWf → exec i s = .next t → t.FilesWf
end

