-- ==== Sys2Proof/Laws/State.lean ====
section
/-! SUPPORT. One lemma per field per named update of the state, so that no proof unfolds a record update. -/

namespace Sys2Proof.Machine

variable (s : State)

/-! ### emit -/

@[simp] theorem emit_P (o : Out) : (emit o s).P = s.P := rfl
@[simp] theorem emit_CFG (o : Out) : (emit o s).CFG = s.CFG := rfl
@[simp] theorem emit_ZP (o : Out) : (emit o s).ZP = s.ZP := rfl
@[simp] theorem emit_INTERP (o : Out) : (emit o s).INTERP = s.INTERP := rfl
@[simp] theorem emit_SYNC (o : Out) : (emit o s).SYNC = s.SYNC := rfl
@[simp] theorem emit_RUN (o : Out) : (emit o s).RUN = s.RUN := rfl
@[simp] theorem emit_SSA (o : Out) : (emit o s).SSA = s.SSA := rfl
@[simp] theorem emit_RXEN (o : Out) : (emit o s).RXEN = s.RXEN := rfl
@[simp] theorem emit_KVALID (o : Out) : (emit o s).KVALID = s.KVALID := rfl
@[simp] theorem emit_RAWV (o : Out) : (emit o s).RAWV = s.RAWV := rfl
@[simp] theorem emit_nchM1 (o : Out) : (emit o s).nchM1 = s.nchM1 := rfl
@[simp] theorem emit_HALT (o : Out) : (emit o s).HALT = s.HALT := rfl
@[simp] theorem emit_FS (o : Out) : (emit o s).FS = s.FS := rfl
@[simp] theorem emit_FCW (o : Out) : (emit o s).FCW = s.FCW := rfl
@[simp] theorem emit_CI (o : Out) : (emit o s).CI = s.CI := rfl
@[simp] theorem emit_SI (o : Out) : (emit o s).SI = s.SI := rfl
@[simp] theorem emit_FBUF (o : Out) : (emit o s).FBUF = s.FBUF := rfl
@[simp] theorem emit_RAW (o : Out) : (emit o s).RAW = s.RAW := rfl
@[simp] theorem emit_VOLT (o : Out) : (emit o s).VOLT = s.VOLT := rfl
@[simp] theorem emit_DISP (o : Out) : (emit o s).DISP = s.DISP := rfl
@[simp] theorem emit_KERN (o : Out) : (emit o s).KERN = s.KERN := rfl
@[simp] theorem emit_env (o : Out) : (emit o s).env = s.env := rfl
@[simp] theorem emit_out (o : Out) : (emit o s).out = s.out ++ [o] := rfl
@[simp] theorem emit_ret (o : Out) : (emit o s).ret = s.ret := rfl
@[simp] theorem emit_free (o : Out) : (emit o s).free = s.free := rfl

/-! ### halt -/

@[simp] theorem halt_P (h : HaltCause) : (halt h s).P = s.P := rfl
@[simp] theorem halt_CFG (h : HaltCause) : (halt h s).CFG = s.CFG := rfl
@[simp] theorem halt_ZP (h : HaltCause) : (halt h s).ZP = s.ZP := rfl
@[simp] theorem halt_INTERP (h : HaltCause) : (halt h s).INTERP = s.INTERP := rfl
@[simp] theorem halt_SYNC (h : HaltCause) : (halt h s).SYNC = s.SYNC := rfl
@[simp] theorem halt_RUN (h : HaltCause) : (halt h s).RUN = s.RUN := rfl
@[simp] theorem halt_SSA (h : HaltCause) : (halt h s).SSA = s.SSA := rfl
@[simp] theorem halt_RXEN (h : HaltCause) : (halt h s).RXEN = s.RXEN := rfl
@[simp] theorem halt_KVALID (h : HaltCause) : (halt h s).KVALID = s.KVALID := rfl
@[simp] theorem halt_RAWV (h : HaltCause) : (halt h s).RAWV = s.RAWV := rfl
@[simp] theorem halt_nchM1 (h : HaltCause) : (halt h s).nchM1 = s.nchM1 := rfl
@[simp] theorem halt_HALT (h : HaltCause) : (halt h s).HALT = h := rfl
@[simp] theorem halt_FS (h : HaltCause) : (halt h s).FS = s.FS := rfl
@[simp] theorem halt_FCW (h : HaltCause) : (halt h s).FCW = s.FCW := rfl
@[simp] theorem halt_CI (h : HaltCause) : (halt h s).CI = s.CI := rfl
@[simp] theorem halt_SI (h : HaltCause) : (halt h s).SI = s.SI := rfl
@[simp] theorem halt_FBUF (h : HaltCause) : (halt h s).FBUF = s.FBUF := rfl
@[simp] theorem halt_RAW (h : HaltCause) : (halt h s).RAW = s.RAW := rfl
@[simp] theorem halt_VOLT (h : HaltCause) : (halt h s).VOLT = s.VOLT := rfl
@[simp] theorem halt_DISP (h : HaltCause) : (halt h s).DISP = s.DISP := rfl
@[simp] theorem halt_KERN (h : HaltCause) : (halt h s).KERN = s.KERN := rfl
@[simp] theorem halt_env (h : HaltCause) : (halt h s).env = s.env := rfl
@[simp] theorem halt_out (h : HaltCause) : (halt h s).out = s.out ++ [.exit h] := rfl
@[simp] theorem halt_ret (h : HaltCause) : (halt h s).ret = s.ret := rfl
@[simp] theorem halt_free (h : HaltCause) : (halt h s).free = s.free := rfl

/-! ### freeze -/

@[simp] theorem freeze_P : (freeze s).P = s.P := rfl
@[simp] theorem freeze_CFG : (freeze s).CFG = s.CFG := rfl
@[simp] theorem freeze_ZP : (freeze s).ZP = s.ZP := rfl
@[simp] theorem freeze_INTERP : (freeze s).INTERP = s.INTERP := rfl
@[simp] theorem freeze_SYNC : (freeze s).SYNC = s.SYNC := rfl
@[simp] theorem freeze_RUN : (freeze s).RUN = false := rfl
@[simp] theorem freeze_SSA : (freeze s).SSA = s.SSA := rfl
@[simp] theorem freeze_RXEN : (freeze s).RXEN = false := rfl
@[simp] theorem freeze_KVALID : (freeze s).KVALID = s.KVALID := rfl
@[simp] theorem freeze_RAWV : (freeze s).RAWV = s.RAWV := rfl
@[simp] theorem freeze_nchM1 : (freeze s).nchM1 = s.nchM1 := rfl
@[simp] theorem freeze_HALT : (freeze s).HALT = s.HALT := rfl
@[simp] theorem freeze_FS : (freeze s).FS = s.FS := rfl
@[simp] theorem freeze_FCW : (freeze s).FCW = s.FCW := rfl
@[simp] theorem freeze_CI : (freeze s).CI = s.CI := rfl
@[simp] theorem freeze_SI : (freeze s).SI = s.SI := rfl
@[simp] theorem freeze_FBUF : (freeze s).FBUF = s.FBUF := rfl
@[simp] theorem freeze_RAW : (freeze s).RAW = s.RAW := rfl
@[simp] theorem freeze_VOLT : (freeze s).VOLT = s.VOLT := rfl
@[simp] theorem freeze_DISP : (freeze s).DISP = s.DISP := rfl
@[simp] theorem freeze_KERN : (freeze s).KERN = s.KERN := rfl
@[simp] theorem freeze_env : (freeze s).env = s.env := rfl
@[simp] theorem freeze_out : (freeze s).out = s.out := rfl
@[simp] theorem freeze_ret : (freeze s).ret = s.ret := rfl
@[simp] theorem freeze_free : (freeze s).free = s.free := rfl

/-! ### rxFlush -/

@[simp] theorem rxFlush_P : (rxFlush s).P = s.P := rfl
@[simp] theorem rxFlush_CFG : (rxFlush s).CFG = s.CFG := rfl
@[simp] theorem rxFlush_ZP : (rxFlush s).ZP = s.ZP := rfl
@[simp] theorem rxFlush_INTERP : (rxFlush s).INTERP = s.INTERP := rfl
@[simp] theorem rxFlush_SYNC : (rxFlush s).SYNC = s.SYNC := rfl
@[simp] theorem rxFlush_RUN : (rxFlush s).RUN = s.RUN := rfl
@[simp] theorem rxFlush_SSA : (rxFlush s).SSA = s.SSA := rfl
@[simp] theorem rxFlush_RXEN : (rxFlush s).RXEN = s.RXEN := rfl
@[simp] theorem rxFlush_KVALID : (rxFlush s).KVALID = s.KVALID := rfl
@[simp] theorem rxFlush_RAWV : (rxFlush s).RAWV = s.RAWV := rfl
@[simp] theorem rxFlush_nchM1 : (rxFlush s).nchM1 = s.nchM1 := rfl
@[simp] theorem rxFlush_HALT : (rxFlush s).HALT = s.HALT := rfl
@[simp] theorem rxFlush_FS : (rxFlush s).FS = s.FS := rfl
@[simp] theorem rxFlush_FCW : (rxFlush s).FCW = s.FCW := rfl
@[simp] theorem rxFlush_CI : (rxFlush s).CI = s.CI := rfl
@[simp] theorem rxFlush_SI : (rxFlush s).SI = s.SI := rfl
@[simp] theorem rxFlush_FBUF : (rxFlush s).FBUF = s.FBUF := rfl
@[simp] theorem rxFlush_RAW : (rxFlush s).RAW = s.RAW := rfl
@[simp] theorem rxFlush_VOLT : (rxFlush s).VOLT = s.VOLT := rfl
@[simp] theorem rxFlush_DISP : (rxFlush s).DISP = s.DISP := rfl
@[simp] theorem rxFlush_KERN : (rxFlush s).KERN = s.KERN := rfl
@[simp] theorem rxFlush_env : (rxFlush s).env = { s.env with rx := [] } := rfl
@[simp] theorem rxFlush_out : (rxFlush s).out = s.out ++ [.rxflush] := rfl
@[simp] theorem rxFlush_ret : (rxFlush s).ret = s.ret := rfl
@[simp] theorem rxFlush_free : (rxFlush s).free = s.free := rfl

/-! ### thaw -/

@[simp] theorem thaw_P : (thaw s).P = s.P := rfl
@[simp] theorem thaw_CFG : (thaw s).CFG = s.CFG := rfl
@[simp] theorem thaw_ZP : (thaw s).ZP = s.ZP := rfl
@[simp] theorem thaw_INTERP : (thaw s).INTERP = s.INTERP := rfl
@[simp] theorem thaw_SYNC : (thaw s).SYNC = s.SYNC := rfl
@[simp] theorem thaw_RUN : (thaw s).RUN = true := rfl
@[simp] theorem thaw_SSA : (thaw s).SSA = s.SSA := rfl
@[simp] theorem thaw_RXEN : (thaw s).RXEN = true := rfl
@[simp] theorem thaw_KVALID : (thaw s).KVALID = s.KVALID := rfl
@[simp] theorem thaw_RAWV : (thaw s).RAWV = s.RAWV := rfl
@[simp] theorem thaw_nchM1 : (thaw s).nchM1 = s.nchM1 := rfl
@[simp] theorem thaw_HALT : (thaw s).HALT = s.HALT := rfl
@[simp] theorem thaw_FS : (thaw s).FS = s.FS := rfl
@[simp] theorem thaw_FCW : (thaw s).FCW = s.FCW := rfl
@[simp] theorem thaw_CI : (thaw s).CI = s.CI := rfl
@[simp] theorem thaw_SI : (thaw s).SI = s.SI := rfl
@[simp] theorem thaw_FBUF : (thaw s).FBUF = s.FBUF := rfl
@[simp] theorem thaw_RAW : (thaw s).RAW = s.RAW := rfl
@[simp] theorem thaw_VOLT : (thaw s).VOLT = s.VOLT := rfl
@[simp] theorem thaw_DISP : (thaw s).DISP = s.DISP := rfl
@[simp] theorem thaw_KERN : (thaw s).KERN = s.KERN := rfl
@[simp] theorem thaw_env : (thaw s).env = { s.env with rx := [] } := rfl
@[simp] theorem thaw_out : (thaw s).out = s.out ++ [.rxflush] := rfl
@[simp] theorem thaw_ret : (thaw s).ret = s.ret := rfl
@[simp] theorem thaw_free : (thaw s).free = s.free := rfl

/-! ### endSweep -/

@[simp] theorem endSweep_P : (endSweep s).P = s.P := rfl
@[simp] theorem endSweep_CFG : (endSweep s).CFG = s.CFG := rfl
@[simp] theorem endSweep_ZP : (endSweep s).ZP = s.ZP := rfl
@[simp] theorem endSweep_INTERP : (endSweep s).INTERP = s.INTERP := rfl
@[simp] theorem endSweep_SYNC : (endSweep s).SYNC = s.SYNC := rfl
@[simp] theorem endSweep_RUN : (endSweep s).RUN = false := rfl
@[simp] theorem endSweep_SSA : (endSweep s).SSA = false := rfl
@[simp] theorem endSweep_RXEN : (endSweep s).RXEN = false := rfl
@[simp] theorem endSweep_KVALID : (endSweep s).KVALID = s.KVALID := rfl
@[simp] theorem endSweep_RAWV : (endSweep s).RAWV = s.RAWV := rfl
@[simp] theorem endSweep_nchM1 : (endSweep s).nchM1 = s.nchM1 := rfl
@[simp] theorem endSweep_HALT : (endSweep s).HALT = s.HALT := rfl
@[simp] theorem endSweep_FS : (endSweep s).FS = s.FS := rfl
@[simp] theorem endSweep_FCW : (endSweep s).FCW = s.FCW := rfl
@[simp] theorem endSweep_CI : (endSweep s).CI = s.CI := rfl
@[simp] theorem endSweep_SI : (endSweep s).SI = s.SI := rfl
@[simp] theorem endSweep_FBUF : (endSweep s).FBUF = s.FBUF := rfl
@[simp] theorem endSweep_RAW : (endSweep s).RAW = s.RAW := rfl
@[simp] theorem endSweep_VOLT : (endSweep s).VOLT = s.VOLT := rfl
@[simp] theorem endSweep_DISP : (endSweep s).DISP = s.DISP := rfl
@[simp] theorem endSweep_KERN : (endSweep s).KERN = s.KERN := rfl
@[simp] theorem endSweep_env : (endSweep s).env = s.env := rfl
@[simp] theorem endSweep_out : (endSweep s).out = s.out := rfl
@[simp] theorem endSweep_ret : (endSweep s).ret = s.ret := rfl
@[simp] theorem endSweep_free : (endSweep s).free = s.free := rfl

/-! ### buildKernels -/

@[simp] theorem buildKernels_P : (buildKernels s).P = s.P := rfl
@[simp] theorem buildKernels_CFG : (buildKernels s).CFG = s.CFG := rfl
@[simp] theorem buildKernels_ZP : (buildKernels s).ZP = s.ZP := rfl
@[simp] theorem buildKernels_INTERP : (buildKernels s).INTERP = s.INTERP := rfl
@[simp] theorem buildKernels_SYNC : (buildKernels s).SYNC = s.SYNC := rfl
@[simp] theorem buildKernels_RUN : (buildKernels s).RUN = s.RUN := rfl
@[simp] theorem buildKernels_SSA : (buildKernels s).SSA = s.SSA := rfl
@[simp] theorem buildKernels_RXEN : (buildKernels s).RXEN = s.RXEN := rfl
@[simp] theorem buildKernels_KVALID : (buildKernels s).KVALID = true := rfl
@[simp] theorem buildKernels_RAWV : (buildKernels s).RAWV = s.RAWV := rfl
@[simp] theorem buildKernels_nchM1 : (buildKernels s).nchM1 = s.nchM1 := rfl
@[simp] theorem buildKernels_HALT : (buildKernels s).HALT = s.HALT := rfl
@[simp] theorem buildKernels_FS : (buildKernels s).FS = s.FS := rfl
@[simp] theorem buildKernels_FCW : (buildKernels s).FCW = s.FCW := rfl
@[simp] theorem buildKernels_CI : (buildKernels s).CI = s.CI := rfl
@[simp] theorem buildKernels_SI : (buildKernels s).SI = s.SI := rfl
@[simp] theorem buildKernels_FBUF : (buildKernels s).FBUF = s.FBUF := rfl
@[simp] theorem buildKernels_RAW : (buildKernels s).RAW = s.RAW := rfl
@[simp] theorem buildKernels_VOLT : (buildKernels s).VOLT = s.VOLT := rfl
@[simp] theorem buildKernels_DISP : (buildKernels s).DISP = s.DISP := rfl
@[simp] theorem buildKernels_KERN : (buildKernels s).KERN = kernelTable s.P := rfl
@[simp] theorem buildKernels_env : (buildKernels s).env = s.env := rfl
@[simp] theorem buildKernels_out : (buildKernels s).out = s.out := rfl
@[simp] theorem buildKernels_ret : (buildKernels s).ret = s.ret := rfl
@[simp] theorem buildKernels_free : (buildKernels s).free = s.free := rfl

/-! ### loadTrace -/

@[simp] theorem loadTrace_P (c : AcqConfig) (v : List Byte) : (loadTrace c v s).P = s.P := rfl
@[simp] theorem loadTrace_CFG (c : AcqConfig) (v : List Byte) : (loadTrace c v s).CFG = s.CFG := rfl
@[simp] theorem loadTrace_ZP (c : AcqConfig) (v : List Byte) : (loadTrace c v s).ZP = s.ZP := rfl
@[simp] theorem loadTrace_INTERP (c : AcqConfig) (v : List Byte) : (loadTrace c v s).INTERP = s.INTERP := rfl
@[simp] theorem loadTrace_SYNC (c : AcqConfig) (v : List Byte) : (loadTrace c v s).SYNC = s.SYNC := rfl
@[simp] theorem loadTrace_RUN (c : AcqConfig) (v : List Byte) : (loadTrace c v s).RUN = s.RUN := rfl
@[simp] theorem loadTrace_SSA (c : AcqConfig) (v : List Byte) : (loadTrace c v s).SSA = s.SSA := rfl
@[simp] theorem loadTrace_RXEN (c : AcqConfig) (v : List Byte) : (loadTrace c v s).RXEN = s.RXEN := rfl
@[simp] theorem loadTrace_KVALID (c : AcqConfig) (v : List Byte) : (loadTrace c v s).KVALID = s.KVALID := rfl
@[simp] theorem loadTrace_RAWV (c : AcqConfig) (v : List Byte) : (loadTrace c v s).RAWV = true := rfl
@[simp] theorem loadTrace_nchM1 (c : AcqConfig) (v : List Byte) : (loadTrace c v s).nchM1 = c.channelCountMinus1 := rfl
@[simp] theorem loadTrace_HALT (c : AcqConfig) (v : List Byte) : (loadTrace c v s).HALT = s.HALT := rfl
@[simp] theorem loadTrace_FS (c : AcqConfig) (v : List Byte) : (loadTrace c v s).FS = s.FS := rfl
@[simp] theorem loadTrace_FCW (c : AcqConfig) (v : List Byte) : (loadTrace c v s).FCW = s.FCW := rfl
@[simp] theorem loadTrace_CI (c : AcqConfig) (v : List Byte) : (loadTrace c v s).CI = s.CI := rfl
@[simp] theorem loadTrace_SI (c : AcqConfig) (v : List Byte) : (loadTrace c v s).SI = s.SI := rfl
@[simp] theorem loadTrace_FBUF (c : AcqConfig) (v : List Byte) : (loadTrace c v s).FBUF = s.FBUF := rfl
@[simp] theorem loadTrace_RAW (c : AcqConfig) (v : List Byte) : (loadTrace c v s).RAW = Memory.ofList 0 v := rfl
@[simp] theorem loadTrace_VOLT (c : AcqConfig) (v : List Byte) : (loadTrace c v s).VOLT = Memory.ofList 0 (v.map RealTerm.toVolt) := rfl
@[simp] theorem loadTrace_DISP (c : AcqConfig) (v : List Byte) : (loadTrace c v s).DISP = s.DISP.dropFrom (c.channelCount * s.P.N) := rfl
@[simp] theorem loadTrace_KERN (c : AcqConfig) (v : List Byte) : (loadTrace c v s).KERN = s.KERN := rfl
@[simp] theorem loadTrace_env (c : AcqConfig) (v : List Byte) : (loadTrace c v s).env = s.env := rfl
@[simp] theorem loadTrace_out (c : AcqConfig) (v : List Byte) : (loadTrace c v s).out = s.out := rfl
@[simp] theorem loadTrace_ret (c : AcqConfig) (v : List Byte) : (loadTrace c v s).ret = s.ret := rfl
@[simp] theorem loadTrace_free (c : AcqConfig) (v : List Byte) : (loadTrace c v s).free = s.free := rfl

/-! ### resetRegisters -/

@[simp] theorem resetRegisters_P : (resetRegisters s).P = s.P := rfl
@[simp] theorem resetRegisters_CFG : (resetRegisters s).CFG = s.P.CFG_RESET := rfl
@[simp] theorem resetRegisters_ZP : (resetRegisters s).ZP = 0 := rfl
@[simp] theorem resetRegisters_INTERP : (resetRegisters s).INTERP = .linear := rfl
@[simp] theorem resetRegisters_SYNC : (resetRegisters s).SYNC = .unsync := rfl
@[simp] theorem resetRegisters_RUN : (resetRegisters s).RUN = true := rfl
@[simp] theorem resetRegisters_SSA : (resetRegisters s).SSA = false := rfl
@[simp] theorem resetRegisters_RXEN : (resetRegisters s).RXEN = true := rfl
@[simp] theorem resetRegisters_KVALID : (resetRegisters s).KVALID = false := rfl
@[simp] theorem resetRegisters_RAWV : (resetRegisters s).RAWV = false := rfl
@[simp] theorem resetRegisters_nchM1 : (resetRegisters s).nchM1 = 0 := rfl
@[simp] theorem resetRegisters_HALT : (resetRegisters s).HALT = .none := rfl
@[simp] theorem resetRegisters_FS : (resetRegisters s).FS = .idle := rfl
@[simp] theorem resetRegisters_FCW : (resetRegisters s).FCW = 0 := rfl
@[simp] theorem resetRegisters_CI : (resetRegisters s).CI = 0 := rfl
@[simp] theorem resetRegisters_SI : (resetRegisters s).SI = 0 := rfl
@[simp] theorem resetRegisters_FBUF : (resetRegisters s).FBUF = [] := rfl
@[simp] theorem resetRegisters_RAW : (resetRegisters s).RAW = [] := rfl
@[simp] theorem resetRegisters_VOLT : (resetRegisters s).VOLT = [] := rfl
@[simp] theorem resetRegisters_DISP : (resetRegisters s).DISP = [] := rfl
@[simp] theorem resetRegisters_KERN : (resetRegisters s).KERN = [] := rfl
@[simp] theorem resetRegisters_env : (resetRegisters s).env = s.env := rfl
@[simp] theorem resetRegisters_out : (resetRegisters s).out = s.out := rfl
@[simp] theorem resetRegisters_ret : (resetRegisters s).ret = s.ret := rfl
@[simp] theorem resetRegisters_free : (resetRegisters s).free = s.free := rfl

/-! ### placeCommand -/

@[simp] theorem placeCommand_P (w : Byte) : (placeCommand w s).P = s.P := rfl
@[simp] theorem placeCommand_CFG (w : Byte) : (placeCommand w s).CFG = s.CFG := rfl
@[simp] theorem placeCommand_ZP (w : Byte) : (placeCommand w s).ZP = s.ZP := rfl
@[simp] theorem placeCommand_INTERP (w : Byte) : (placeCommand w s).INTERP = s.INTERP := rfl
@[simp] theorem placeCommand_SYNC (w : Byte) : (placeCommand w s).SYNC = s.SYNC := rfl
@[simp] theorem placeCommand_RUN (w : Byte) : (placeCommand w s).RUN = s.RUN := rfl
@[simp] theorem placeCommand_SSA (w : Byte) : (placeCommand w s).SSA = s.SSA := rfl
@[simp] theorem placeCommand_RXEN (w : Byte) : (placeCommand w s).RXEN = s.RXEN := rfl
@[simp] theorem placeCommand_KVALID (w : Byte) : (placeCommand w s).KVALID = true := rfl
@[simp] theorem placeCommand_RAWV (w : Byte) : (placeCommand w s).RAWV = s.RAWV := rfl
@[simp] theorem placeCommand_nchM1 (w : Byte) : (placeCommand w s).nchM1 = s.nchM1 := rfl
@[simp] theorem placeCommand_HALT (w : Byte) : (placeCommand w s).HALT = .none := rfl
@[simp] theorem placeCommand_FS (w : Byte) : (placeCommand w s).FS = .idle := rfl
@[simp] theorem placeCommand_FCW (w : Byte) : (placeCommand w s).FCW = s.FCW := rfl
@[simp] theorem placeCommand_CI (w : Byte) : (placeCommand w s).CI = s.CI := rfl
@[simp] theorem placeCommand_SI (w : Byte) : (placeCommand w s).SI = s.SI := rfl
@[simp] theorem placeCommand_FBUF (w : Byte) : (placeCommand w s).FBUF = s.FBUF := rfl
@[simp] theorem placeCommand_RAW (w : Byte) : (placeCommand w s).RAW = s.RAW := rfl
@[simp] theorem placeCommand_VOLT (w : Byte) : (placeCommand w s).VOLT = s.VOLT := rfl
@[simp] theorem placeCommand_DISP (w : Byte) : (placeCommand w s).DISP = s.DISP := rfl
@[simp] theorem placeCommand_KERN (w : Byte) : (placeCommand w s).KERN = s.KERN := rfl
@[simp] theorem placeCommand_env (w : Byte) : (placeCommand w s).env = { Env.quiet with cmd := [w] } := rfl
@[simp] theorem placeCommand_out (w : Byte) : (placeCommand w s).out = s.out := rfl
@[simp] theorem placeCommand_ret (w : Byte) : (placeCommand w s).ret = s.ret := rfl
@[simp] theorem placeCommand_free (w : Byte) : (placeCommand w s).free = s.free := rfl

/-! ### endSweepIfArmed -/

@[simp] theorem endSweepIfArmed_P : (endSweepIfArmed s).P = s.P := by
  cases h : s.SSA <;> simp [endSweepIfArmed, h]
@[simp] theorem endSweepIfArmed_CFG : (endSweepIfArmed s).CFG = s.CFG := by
  cases h : s.SSA <;> simp [endSweepIfArmed, h]
@[simp] theorem endSweepIfArmed_ZP : (endSweepIfArmed s).ZP = s.ZP := by
  cases h : s.SSA <;> simp [endSweepIfArmed, h]
@[simp] theorem endSweepIfArmed_INTERP : (endSweepIfArmed s).INTERP = s.INTERP := by
  cases h : s.SSA <;> simp [endSweepIfArmed, h]
@[simp] theorem endSweepIfArmed_SYNC : (endSweepIfArmed s).SYNC = s.SYNC := by
  cases h : s.SSA <;> simp [endSweepIfArmed, h]
@[simp] theorem endSweepIfArmed_RUN : (endSweepIfArmed s).RUN = (s.RUN && !s.SSA) := by
  cases h : s.SSA <;> simp [endSweepIfArmed, h]
@[simp] theorem endSweepIfArmed_SSA : (endSweepIfArmed s).SSA = false := by
  cases h : s.SSA <;> simp [endSweepIfArmed, h]
@[simp] theorem endSweepIfArmed_RXEN : (endSweepIfArmed s).RXEN = (s.RXEN && !s.SSA) := by
  cases h : s.SSA <;> simp [endSweepIfArmed, h]
@[simp] theorem endSweepIfArmed_KVALID : (endSweepIfArmed s).KVALID = s.KVALID := by
  cases h : s.SSA <;> simp [endSweepIfArmed, h]
@[simp] theorem endSweepIfArmed_RAWV : (endSweepIfArmed s).RAWV = s.RAWV := by
  cases h : s.SSA <;> simp [endSweepIfArmed, h]
@[simp] theorem endSweepIfArmed_nchM1 : (endSweepIfArmed s).nchM1 = s.nchM1 := by
  cases h : s.SSA <;> simp [endSweepIfArmed, h]
@[simp] theorem endSweepIfArmed_HALT : (endSweepIfArmed s).HALT = s.HALT := by
  cases h : s.SSA <;> simp [endSweepIfArmed, h]
@[simp] theorem endSweepIfArmed_FS : (endSweepIfArmed s).FS = s.FS := by
  cases h : s.SSA <;> simp [endSweepIfArmed, h]
@[simp] theorem endSweepIfArmed_FCW : (endSweepIfArmed s).FCW = s.FCW := by
  cases h : s.SSA <;> simp [endSweepIfArmed, h]
@[simp] theorem endSweepIfArmed_CI : (endSweepIfArmed s).CI = s.CI := by
  cases h : s.SSA <;> simp [endSweepIfArmed, h]
@[simp] theorem endSweepIfArmed_SI : (endSweepIfArmed s).SI = s.SI := by
  cases h : s.SSA <;> simp [endSweepIfArmed, h]
@[simp] theorem endSweepIfArmed_FBUF : (endSweepIfArmed s).FBUF = s.FBUF := by
  cases h : s.SSA <;> simp [endSweepIfArmed, h]
@[simp] theorem endSweepIfArmed_RAW : (endSweepIfArmed s).RAW = s.RAW := by
  cases h : s.SSA <;> simp [endSweepIfArmed, h]
@[simp] theorem endSweepIfArmed_VOLT : (endSweepIfArmed s).VOLT = s.VOLT := by
  cases h : s.SSA <;> simp [endSweepIfArmed, h]
@[simp] theorem endSweepIfArmed_DISP : (endSweepIfArmed s).DISP = s.DISP := by
  cases h : s.SSA <;> simp [endSweepIfArmed, h]
@[simp] theorem endSweepIfArmed_KERN : (endSweepIfArmed s).KERN = s.KERN := by
  cases h : s.SSA <;> simp [endSweepIfArmed, h]
@[simp] theorem endSweepIfArmed_env : (endSweepIfArmed s).env = s.env := by
  cases h : s.SSA <;> simp [endSweepIfArmed, h]
@[simp] theorem endSweepIfArmed_out : (endSweepIfArmed s).out = s.out := by
  cases h : s.SSA <;> simp [endSweepIfArmed, h]
@[simp] theorem endSweepIfArmed_ret : (endSweepIfArmed s).ret = s.ret := by
  cases h : s.SSA <;> simp [endSweepIfArmed, h]
@[simp] theorem endSweepIfArmed_free : (endSweepIfArmed s).free = s.free := by
  cases h : s.SSA <;> simp [endSweepIfArmed, h]

/-! ### consume, offer -/

@[simp] theorem consume_P (e : Event) : (consume e s).P = s.P := by cases e <;> rfl
@[simp] theorem consume_CFG (e : Event) : (consume e s).CFG = s.CFG := by cases e <;> rfl
@[simp] theorem consume_ZP (e : Event) : (consume e s).ZP = s.ZP := by cases e <;> rfl
@[simp] theorem consume_INTERP (e : Event) : (consume e s).INTERP = s.INTERP := by cases e <;> rfl
@[simp] theorem consume_SYNC (e : Event) : (consume e s).SYNC = s.SYNC := by cases e <;> rfl
@[simp] theorem consume_RUN (e : Event) : (consume e s).RUN = s.RUN := by cases e <;> rfl
@[simp] theorem consume_SSA (e : Event) : (consume e s).SSA = s.SSA := by cases e <;> rfl
@[simp] theorem consume_RXEN (e : Event) : (consume e s).RXEN = s.RXEN := by cases e <;> rfl
@[simp] theorem consume_KVALID (e : Event) : (consume e s).KVALID = s.KVALID := by cases e <;> rfl
@[simp] theorem consume_RAWV (e : Event) : (consume e s).RAWV = s.RAWV := by cases e <;> rfl
@[simp] theorem consume_nchM1 (e : Event) : (consume e s).nchM1 = s.nchM1 := by cases e <;> rfl
@[simp] theorem consume_HALT (e : Event) : (consume e s).HALT = s.HALT := by cases e <;> rfl
@[simp] theorem consume_FS (e : Event) : (consume e s).FS = s.FS := by cases e <;> rfl
@[simp] theorem consume_FCW (e : Event) : (consume e s).FCW = s.FCW := by cases e <;> rfl
@[simp] theorem consume_CI (e : Event) : (consume e s).CI = s.CI := by cases e <;> rfl
@[simp] theorem consume_SI (e : Event) : (consume e s).SI = s.SI := by cases e <;> rfl
@[simp] theorem consume_FBUF (e : Event) : (consume e s).FBUF = s.FBUF := by cases e <;> rfl
@[simp] theorem consume_RAW (e : Event) : (consume e s).RAW = s.RAW := by cases e <;> rfl
@[simp] theorem consume_VOLT (e : Event) : (consume e s).VOLT = s.VOLT := by cases e <;> rfl
@[simp] theorem consume_DISP (e : Event) : (consume e s).DISP = s.DISP := by cases e <;> rfl
@[simp] theorem consume_KERN (e : Event) : (consume e s).KERN = s.KERN := by cases e <;> rfl
@[simp] theorem consume_out (e : Event) : (consume e s).out = s.out := by cases e <;> rfl
@[simp] theorem consume_ret (e : Event) : (consume e s).ret = s.ret := by cases e <;> rfl
@[simp] theorem consume_free (e : Event) : (consume e s).free = s.free := by cases e <;> rfl
@[simp] theorem offer_P (m : EnvMove) : (s.offer m).P = s.P := rfl
@[simp] theorem offer_CFG (m : EnvMove) : (s.offer m).CFG = s.CFG := rfl
@[simp] theorem offer_ZP (m : EnvMove) : (s.offer m).ZP = s.ZP := rfl
@[simp] theorem offer_INTERP (m : EnvMove) : (s.offer m).INTERP = s.INTERP := rfl
@[simp] theorem offer_SYNC (m : EnvMove) : (s.offer m).SYNC = s.SYNC := rfl
@[simp] theorem offer_RUN (m : EnvMove) : (s.offer m).RUN = s.RUN := rfl
@[simp] theorem offer_SSA (m : EnvMove) : (s.offer m).SSA = s.SSA := rfl
@[simp] theorem offer_RXEN (m : EnvMove) : (s.offer m).RXEN = s.RXEN := rfl
@[simp] theorem offer_KVALID (m : EnvMove) : (s.offer m).KVALID = s.KVALID := rfl
@[simp] theorem offer_RAWV (m : EnvMove) : (s.offer m).RAWV = s.RAWV := rfl
@[simp] theorem offer_nchM1 (m : EnvMove) : (s.offer m).nchM1 = s.nchM1 := rfl
@[simp] theorem offer_HALT (m : EnvMove) : (s.offer m).HALT = s.HALT := rfl
@[simp] theorem offer_FS (m : EnvMove) : (s.offer m).FS = s.FS := rfl
@[simp] theorem offer_FCW (m : EnvMove) : (s.offer m).FCW = s.FCW := rfl
@[simp] theorem offer_CI (m : EnvMove) : (s.offer m).CI = s.CI := rfl
@[simp] theorem offer_SI (m : EnvMove) : (s.offer m).SI = s.SI := rfl
@[simp] theorem offer_FBUF (m : EnvMove) : (s.offer m).FBUF = s.FBUF := rfl
@[simp] theorem offer_RAW (m : EnvMove) : (s.offer m).RAW = s.RAW := rfl
@[simp] theorem offer_VOLT (m : EnvMove) : (s.offer m).VOLT = s.VOLT := rfl
@[simp] theorem offer_DISP (m : EnvMove) : (s.offer m).DISP = s.DISP := rfl
@[simp] theorem offer_KERN (m : EnvMove) : (s.offer m).KERN = s.KERN := rfl
@[simp] theorem offer_out (m : EnvMove) : (s.offer m).out = s.out := rfl
@[simp] theorem offer_ret (m : EnvMove) : (s.offer m).ret = s.ret := rfl
@[simp] theorem offer_free (m : EnvMove) : (s.offer m).free = s.free := rfl
@[simp] theorem offer_env (m : EnvMove) : (s.offer m).env = s.env.after m := rfl

/-- `NCH` is read from its two bits alone. -/
theorem NCH_eq {s t : State} (h : t.nchM1 = s.nchM1) : t.NCH = s.NCH := by simp [State.NCH, h]

/-- `1 <= NCH <= 4` holds by the width of the register (R32, R51 c). -/
theorem NCH_range : 1 ≤ s.NCH ∧ s.NCH ≤ 4 := by unfold State.NCH; omega

/-- What a row of fields says is what the state is. -/
theorem State.ext_fields {s t : State}
    (hP : s.P = t.P) (hCFG : s.CFG = t.CFG) (hZP : s.ZP = t.ZP) (hINTERP : s.INTERP = t.INTERP) (hSYNC : s.SYNC = t.SYNC)
    (hRUN : s.RUN = t.RUN) (hSSA : s.SSA = t.SSA) (hRXEN : s.RXEN = t.RXEN) (hKVALID : s.KVALID = t.KVALID) (hRAWV : s.RAWV = t.RAWV)
    (hnchM1 : s.nchM1 = t.nchM1) (hHALT : s.HALT = t.HALT) (hFS : s.FS = t.FS) (hFCW : s.FCW = t.FCW) (hCI : s.CI = t.CI)
    (hSI : s.SI = t.SI) (hFBUF : s.FBUF = t.FBUF) (hRAW : s.RAW = t.RAW) (hVOLT : s.VOLT = t.VOLT) (hDISP : s.DISP = t.DISP)
    (hKERN : s.KERN = t.KERN) (henv : s.env = t.env) (hout : s.out = t.out) (hret : s.ret = t.ret) (hfree : s.free = t.free) : s = t := by
  cases s; cases t; simp_all

end Sys2Proof.Machine
end

