-- ==== Sys2Proof/Laws/Fetch.lean ====
section
/-! SUPPORT. What the selection of an event can do, and what a step can do. -/

namespace Sys2Proof.Machine

/-- The chosen event is one of the enabled ones. -/
theorem choose_eq_some {s : State} {e : Event} {n : Nat} (h : s.choose = some (e, n)) : e ∈ s.enabled := by
  unfold State.choose at h
  split at h
  · simp at h
  · rename_i e' he
    simp only [Option.some.injEq, Prod.mk.injEq] at h
    simp [he, h.1]
  · simp only [Option.map_eq_some_iff, Prod.mk.injEq] at h
    obtain ⟨e', he', rfl, -⟩ := h
    exact List.mem_of_getElem? he'

/-- A single enabled event is the one chosen, and no free value is consulted. -/
theorem choose_single {s : State} {e : Event} (h : s.enabled = [e]) : s.choose = some (e, s.free) := by
  unfold State.choose; rw [h]

/-- With an event enabled, one is chosen. -/
theorem choose_isSome {s : State} (h : s.enabled ≠ []) : s.choose.isSome := by
  unfold State.choose
  split
  · rename_i h0; exact absurd h0 h
  · rfl
  · rename_i es h0 h1
    have hl : 0 < s.enabled.length := List.length_pos_iff.mpr h
    have : Config.arbiter s.free % s.enabled.length < s.enabled.length := Nat.mod_lt _ hl
    simp [List.getElem?_eq_getElem this]

theorem choose_none {s : State} (h : s.enabled = []) : s.choose = none := by
  unfold State.choose; rw [h]

/-- What a step runs: the reset on offer, or one enabled event of a block that is not halted. -/
theorem fetch_eq_run {s : State} {i : Instr} {t : State} (h : fetch s = .run i t) :
    (∃ c d, s.env.rst = some (c, d) ∧ i = .evReset c d ∧ t = { s with env := { s.env with rst := none } }) ∨
    (s.env.rst = none ∧ s.HALT = .none ∧ ∃ e n, e ∈ s.enabled ∧ i = select e s.FS ∧
      t = consume e { s with free := n }) := by
  unfold fetch at h
  split at h
  · rename_i c d hr
    simp only [Fetched.run.injEq] at h
    exact Or.inl ⟨c, d, hr, h.1.symm, h.2.symm⟩
  · rename_i hr
    split at h
    · simp at h
    · simp at h
    · simp at h
    · rename_i hh
      split at h
      · rename_i e n hc
        simp only [Fetched.run.injEq] at h
        exact Or.inr ⟨hr, hh, e, n, choose_eq_some hc, h.1.symm, h.2.symm⟩
      · simp at h

/-- All that a step that answers a next state can do. -/
theorem step_eq_next {s t : State} (h : step s = .next t) :
    t = s ∨ ∃ i u, fetch s = .run i u ∧ exec i u = .next t := by
  unfold step at h
  split at h
  · rename_i i u hf
    exact Or.inr ⟨i, u, hf, h⟩
  · simp only [Host.Outcome.next.injEq] at h
    exact Or.inl h.symm
  · simp at h

end Sys2Proof.Machine
end

