-- ==== Sys2Proof/Laws/Memory.lean ====
section
/-! SUPPORT. What the memory operations of Machine/Memory.lean do: read after write, what a bulk operation leaves unchanged, and that
each keeps the canonical form. -/

namespace Sys2Proof

variable {α : Type}

@[simp] theorem Memory.read_nil (a : Nat) : Memory.read ([] : Memory α) a = none := rfl

theorem Memory.read_cons (b : Nat) (v : α) (m : Memory α) (a : Nat) :
    Memory.read ((b, v) :: m) a = if a = b then some v else if a < b then none else Memory.read m a := rfl

/-- Read after write, at every address. -/
theorem Memory.read_write (m : Memory α) (a : Nat) (v : α) (x : Nat) :
    (m.write a v).read x = if x = a then some v else m.read x := by
  induction m with
  | nil => by_cases h : x = a <;> simp [Memory.write, Memory.read_cons, h]
  | cons e m ih =>
    obtain ⟨b, w⟩ := e
    simp only [Memory.write]
    split
    · simp only [Memory.read_cons]; split_ifs <;> first | rfl | omega
    · split
      · subst_vars; simp only [Memory.read_cons]; split_ifs <;> rfl
      · simp only [Memory.read_cons, ih]; split_ifs <;> first | rfl | omega

theorem Memory.addresses_write (m : Memory α) (a : Nat) (v : α) (x : Nat) :
    x ∈ (m.write a v).map Prod.fst ↔ x = a ∨ x ∈ m.map Prod.fst := by
  induction m with
  | nil => simp [Memory.write]
  | cons e m ih =>
    obtain ⟨b, w⟩ := e
    simp only [Memory.write]
    split
    · simp
    · split
      · subst_vars; simp
      · simp only [List.map_cons, List.mem_cons, ih]; tauto

/-- A write keeps the canonical form. -/
theorem Memory.write_wf {m : Memory α} (h : m.wf) (a : Nat) (v : α) : (m.write a v).wf := by
  induction m with
  | nil => simp [Memory.write, Memory.wf]
  | cons e m ih =>
    obtain ⟨b, w⟩ := e
    simp only [Memory.wf, List.map_cons, List.pairwise_cons] at h
    obtain ⟨hb, hm⟩ := h
    simp only [Memory.write]
    split
    · rename_i hab
      simp only [Memory.wf, List.map_cons, List.pairwise_cons, List.mem_cons]
      exact ⟨by rintro x (rfl | hx); exacts [hab, hab.trans (hb x hx)], hb, hm⟩
    · split
      · subst_vars
        simp only [Memory.wf, List.map_cons, List.pairwise_cons]
        exact ⟨hb, hm⟩
      · rename_i h1 h2
        have hw := ih hm
        simp only [Memory.wf, List.map_cons, List.pairwise_cons] at hw ⊢
        refine ⟨fun x hx => ?_, hw⟩
        rcases (Memory.addresses_write m a v x).mp hx with rfl | hx
        · omega
        · exact hb x hx

theorem Memory.writeN_wf {m : Memory α} (h : m.wf) (a : Nat) (vs : List α) : (m.writeN a vs).wf := by
  induction vs generalizing m a with
  | nil => exact h
  | cons v vs ih => exact ih (Memory.write_wf h a v) (a + 1)

/-- Read after a bulk write, at every address. -/
theorem Memory.read_writeN (m : Memory α) (a : Nat) (vs : List α) (x : Nat) :
    (m.writeN a vs).read x = if a ≤ x ∧ x < a + vs.length then vs[x - a]? else m.read x := by
  induction vs generalizing m a with
  | nil => simp [Memory.writeN]
  | cons v vs ih =>
    simp only [Memory.writeN, ih, Memory.read_write, List.length_cons]
    by_cases hx : x = a
    · subst hx; simp
    · by_cases h : a + 1 ≤ x ∧ x < a + 1 + vs.length
      · obtain ⟨k, rfl⟩ : ∃ k, x = a + 1 + k := ⟨x - (a + 1), by omega⟩
        have h1 : a + 1 + k - a = k + 1 := by omega
        have h2 : a + 1 + k - (a + 1) = k := by omega
        rw [if_pos h, if_pos (by omega), h1, h2]
        rfl
      · rw [if_neg h, if_neg hx, if_neg (by omega)]

/-- A bulk read answers exactly when every element holds a value, and then with those values. -/
theorem Memory.readN_eq_some (m : Memory α) (a n : Nat) (vs : List α) :
    m.readN a n = some vs ↔ vs.length = n ∧ ∀ i < n, m.read (a + i) = vs[i]? := by
  induction n generalizing a vs with
  | zero => simp [Memory.readN, eq_comm]
  | succ n ih =>
    simp only [Memory.readN]
    cases vs with
    | nil => constructor <;> intro h <;> [(split at h <;> simp at h); (exact absurd h.1 (by simp))]
    | cons v vs =>
      constructor
      · intro h
        split at h
        · rename_i w ws hw hws
          simp only [Option.some.injEq, List.cons.injEq] at h
          obtain ⟨rfl, rfl⟩ := h
          obtain ⟨hl, hr⟩ := (ih (a + 1) ws).mp hws
          refine ⟨by simp [hl], fun i hi => ?_⟩
          cases i with
          | zero => simpa using hw
          | succ i => simpa [Nat.add_assoc, Nat.add_comm 1 i] using hr i (by omega)
        · simp at h
      · rintro ⟨hl, hr⟩
        have h0 : m.read a = some v := by simpa using hr 0 (by omega)
        have h1 : m.readN (a + 1) n = some vs :=
          (ih (a + 1) vs).mpr ⟨by simpa using hl, fun i hi => by
            simpa [Nat.add_assoc, Nat.add_comm 1 i] using hr (i + 1) (by omega)⟩
        simp [h0, h1]

theorem Memory.readN_isSome (m : Memory α) (a n : Nat) :
    (m.readN a n).isSome ↔ ∀ i < n, (m.read (a + i)).isSome := by
  induction n generalizing a with
  | zero => simp [Memory.readN]
  | succ n ih =>
    have hs := ih (a + 1)
    simp only [Memory.readN]
    constructor
    · intro h i hi
      split at h
      · rename_i w ws hw hws
        cases i with
        | zero => simp [hw]
        | succ i =>
          rw [show a + (i + 1) = a + 1 + i by omega]
          exact hs.mp (by simp [hws]) i (by omega)
      · simp at h
    · intro h
      obtain ⟨v, hv⟩ := Option.isSome_iff_exists.mp (h 0 (by omega))
      obtain ⟨vs, hvs⟩ := Option.isSome_iff_exists.mp
        (hs.mpr (fun i hi => by rw [show a + 1 + i = a + (i + 1) by omega]; exact h (i + 1) (by omega)))
      simp only [Nat.add_zero] at hv
      simp [hv, hvs]

/-- Reading rows answers exactly when every row can be read, and then with those rows. -/
theorem Memory.readRows_eq_some (m : Memory α) (N c0 n : Nat) (rs : List (List α)) :
    m.readRows N c0 n = some rs ↔ rs.length = n ∧ ∀ c < n, m.readN ((c0 + c) * N) N = rs[c]? := by
  induction n generalizing c0 rs with
  | zero => simp [Memory.readRows, eq_comm]
  | succ n ih =>
    simp only [Memory.readRows]
    cases rs with
    | nil => constructor <;> intro h <;> [(split at h <;> simp at h); (exact absurd h.1 (by simp))]
    | cons v vs =>
      constructor
      · intro h
        split at h
        · rename_i w ws hw hws
          simp only [Option.some.injEq, List.cons.injEq] at h
          obtain ⟨rfl, rfl⟩ := h
          obtain ⟨hl, hr⟩ := (ih (c0 + 1) ws).mp hws
          refine ⟨by simp [hl], fun i hi => ?_⟩
          cases i with
          | zero => simpa using hw
          | succ i => simpa [Nat.add_assoc, Nat.add_comm 1 i] using hr i (by omega)
        · simp at h
      · rintro ⟨hl, hr⟩
        have h0 : m.readN (c0 * N) N = some v := by simpa using hr 0 (by omega)
        have h1 : m.readRows N (c0 + 1) n = some vs :=
          (ih (c0 + 1) vs).mpr ⟨by simpa using hl, fun i hi => by
            simpa [Nat.add_assoc, Nat.add_comm 1 i] using hr (i + 1) (by omega)⟩
        simp [h0, h1]

/-- Reading rows depends only on what is read. -/
theorem Memory.readN_congr {m m' : Memory α} {a n : Nat} (h : ∀ i < n, m.read (a + i) = m'.read (a + i)) :
    m.readN a n = m'.readN a n := by
  induction n generalizing a with
  | zero => rfl
  | succ n ih =>
    simp only [Memory.readN]
    rw [show m.read a = m'.read a by simpa using h 0 (by omega),
      ih (a := a + 1) (fun i hi => by rw [show a + 1 + i = a + (i + 1) by omega]; exact h (i + 1) (by omega))]

theorem Memory.readRows_isSome (m : Memory α) (N c0 n : Nat) :
    (m.readRows N c0 n).isSome ↔ ∀ c < n, (m.readN ((c0 + c) * N) N).isSome := by
  induction n generalizing c0 with
  | zero => simp [Memory.readRows]
  | succ n ih =>
    have hs := ih (c0 + 1)
    simp only [Memory.readRows]
    constructor
    · intro h i hi
      split at h
      · rename_i w ws hw hws
        cases i with
        | zero => simp [hw]
        | succ i =>
          rw [show c0 + (i + 1) = c0 + 1 + i by omega]
          exact hs.mp (by simp [hws]) i (by omega)
      · simp at h
    · intro h
      obtain ⟨v, hv⟩ := Option.isSome_iff_exists.mp (h 0 (by omega))
      obtain ⟨vs, hvs⟩ := Option.isSome_iff_exists.mp
        (hs.mpr (fun i hi => by rw [show c0 + 1 + i = c0 + (i + 1) by omega]; exact h (i + 1) (by omega)))
      simp only [Nat.add_zero] at hv
      simp [hv, hvs]

/-- Every row can be read when every element of the rows holds a value. -/
theorem Memory.readRows_isSome_of_read {m : Memory α} {N n : Nat} (h : ∀ a < n * N, (m.read a).isSome) :
    (m.readRows N 0 n).isSome := by
  refine (m.readRows_isSome N 0 n).mpr fun c hc => (m.readN_isSome _ _).mpr fun i hi => h _ ?_
  have h1 : (c + 1) * N ≤ n * N := Nat.mul_le_mul_right N hc
  rw [Nat.add_mul, Nat.one_mul] at h1
  simp only [Nat.zero_add]
  omega

theorem Memory.tabulate_addresses (f : Nat → α) (start n : Nat) :
    (Memory.tabulate f start n).map Prod.fst = List.range' start n := by
  induction n generalizing start with
  | zero => rfl
  | succ n ih => simp [Memory.tabulate, ih, List.range'_succ]

theorem Memory.tabulate_wf (f : Nat → α) (start n : Nat) : (Memory.tabulate f start n).wf := by
  simp only [Memory.wf, Memory.tabulate_addresses]; exact List.pairwise_lt_range'

theorem Memory.read_tabulate (f : Nat → α) (start n x : Nat) :
    (Memory.tabulate f start n).read x = if start ≤ x ∧ x < start + n then some (f x) else none := by
  induction n generalizing start with
  | zero => simp [Memory.tabulate]
  | succ n ih =>
    simp only [Memory.tabulate, Memory.read_cons, ih]
    split_ifs <;> first | rfl | omega | (subst_vars; rfl)

theorem Memory.ofList_addresses (start : Nat) (vs : List α) :
    (Memory.ofList start vs).map Prod.fst = List.range' start vs.length := by
  induction vs generalizing start with
  | nil => rfl
  | cons v vs ih => simp [Memory.ofList, ih, List.range'_succ]

theorem Memory.ofList_wf (start : Nat) (vs : List α) : (Memory.ofList start vs).wf := by
  simp only [Memory.wf, Memory.ofList_addresses]; exact List.pairwise_lt_range'

theorem Memory.read_ofList (start : Nat) (vs : List α) (x : Nat) :
    (Memory.ofList start vs).read x = if start ≤ x then vs[x - start]? else none := by
  induction vs generalizing start with
  | nil => simp [Memory.ofList]
  | cons v vs ih =>
    simp only [Memory.ofList, Memory.read_cons, ih]
    by_cases hx : x = start
    · subst hx; simp
    · rw [if_neg hx]
      by_cases h : start < x
      · obtain ⟨k, rfl⟩ : ∃ k, x = start + 1 + k := ⟨x - (start + 1), by omega⟩
        have h1 : start + 1 + k - start = k + 1 := by omega
        have h2 : start + 1 + k - (start + 1) = k := by omega
        rw [if_neg (by omega), if_pos (by omega), if_pos (by omega), h1, h2]
        rfl
      · rw [if_pos (by omega), if_neg (by omega)]

theorem Memory.ofList_map {β : Type} (f : α → β) (start : Nat) (vs : List α) :
    Memory.ofList start (vs.map f) = (Memory.ofList start vs).map (fun e => (e.1, f e.2)) := by
  induction vs generalizing start with
  | nil => rfl
  | cons v vs ih => simp [Memory.ofList, ih]

theorem Memory.mem_addresses_of_read {m : Memory α} {a : Nat} (h : (m.read a).isSome) : a ∈ m.map Prod.fst := by
  induction m with
  | nil => simp at h
  | cons e m ih =>
    obtain ⟨b, w⟩ := e
    rw [Memory.read_cons] at h
    split_ifs at h with h1 h2
    · simp [h1]
    · simp at h
    · exact List.mem_cons_of_mem _ (ih h)

theorem Memory.dropFrom_wf {m : Memory α} (h : m.wf) (n : Nat) : (m.dropFrom n).wf :=
  List.Pairwise.sublist ((List.filter_sublist (l := m)).map Prod.fst) h

theorem Memory.read_dropFrom {m : Memory α} (h : m.wf) (n x : Nat) :
    (m.dropFrom n).read x = if x < n then m.read x else none := by
  induction m with
  | nil => simp [Memory.dropFrom]
  | cons e m ih =>
    obtain ⟨b, w⟩ := e
    simp only [Memory.wf, List.map_cons, List.pairwise_cons] at h
    obtain ⟨hb, hm⟩ := h
    have ih := ih hm
    simp only [Memory.dropFrom] at ih ⊢
    by_cases hbn : b < n
    · rw [List.filter_cons_of_pos (by simpa using hbn)]
      simp only [Memory.read_cons, ih]
      split_ifs <;> first | rfl | omega
    · rw [List.filter_cons_of_neg (by simpa using hbn), ih]
      simp only [Memory.read_cons]
      by_cases hx : x < n
      · simp only [hx, if_true]
        rw [if_neg (by omega), if_pos (by omega)]
        exact Option.not_isSome_iff_eq_none.mp fun hs =>
          absurd (hb x (Memory.mem_addresses_of_read hs)) (by omega)
      · simp only [hx, if_false]

/-- In a canonical memory an element holds a value exactly when its address is listed. -/
theorem Memory.read_isSome {m : Memory α} (h : m.wf) (a : Nat) : (m.read a).isSome ↔ a ∈ m.map Prod.fst := by
  induction m with
  | nil => simp
  | cons e m ih =>
    obtain ⟨b, w⟩ := e
    simp only [Memory.wf, List.map_cons, List.pairwise_cons] at h
    obtain ⟨hb, hm⟩ := h
    simp only [Memory.read_cons, List.map_cons, List.mem_cons]
    split_ifs with h1 h2
    · simp [h1]
    · simp only [Option.isSome_none, Bool.false_eq_true, h1, false_or, false_iff]
      intro hx; have := hb a hx; omega
    · simp [ih hm, h1]

theorem Memory.wf_of_addresses_range {m : Memory α} {n : Nat} (h : m.map Prod.fst = List.range n) : m.wf := by
  simp only [Memory.wf, h]; exact List.pairwise_lt_range

/-- A canonical memory whose values stand exactly at the addresses below `n` lists exactly those addresses. -/
theorem Memory.addresses_eq_range {m : Memory α} (h : m.wf) (n : Nat)
    (hr : ∀ a, (m.read a).isSome ↔ a < n) : m.map Prod.fst = List.range n := by
  refine List.Perm.eq_of_pairwise (le := (· < ·)) (fun a b _ _ h1 h2 => by omega) h List.pairwise_lt_range ?_
  refine (List.perm_ext_iff_of_nodup ?_ List.nodup_range).mpr fun a => ?_
  · exact List.Pairwise.imp (fun h => Nat.ne_of_lt h) h
  · rw [← Memory.read_isSome h, hr, List.mem_range]

/-- Canonical memories that read the same are the same. -/
theorem Memory.eq_of_read {m m' : Memory α} (h : m.wf) (h' : m'.wf) (hr : ∀ a, m.read a = m'.read a) : m = m' := by
  induction m generalizing m' with
  | nil =>
    cases m' with
    | nil => rfl
    | cons e m' => have := hr e.1; obtain ⟨b, w⟩ := e; simp [Memory.read_cons] at this
  | cons e m ih =>
    obtain ⟨b, w⟩ := e
    cases m' with
    | nil => have := hr b; simp [Memory.read_cons] at this
    | cons e' m' =>
      obtain ⟨b', w'⟩ := e'
      simp only [Memory.wf, List.map_cons, List.pairwise_cons] at h h'
      have h1 := hr b
      have h2 := hr b'
      simp only [Memory.read_cons, if_true] at h1 h2
      have hb : b = b' := by
        by_contra hne
        rw [if_neg hne] at h1
        rw [if_neg (Ne.symm hne)] at h2
        split_ifs at h1 h2
        omega
      subst hb
      simp only [if_true, Option.some.injEq] at h1
      subst h1
      congr 1
      refine ih h.2 h'.2 fun a => ?_
      by_cases ha : b < a
      · have := hr a
        simpa only [Memory.read_cons, if_neg (by omega : ¬ a = b), if_neg (by omega : ¬ a < b)] using this
      · have e1 : Memory.read m a = none := by
          rw [← Option.not_isSome_iff_eq_none, Memory.read_isSome h.2]
          intro hm; have := h.1 a hm; omega
        have e2 : Memory.read m' a = none := by
          rw [← Option.not_isSome_iff_eq_none, Memory.read_isSome h'.2]
          intro hm; have := h'.1 a hm; omega
        rw [e1, e2]

/-- Rows read from a memory, one after the other, are its elements in address order. -/
theorem Memory.readRows_flatten {m : Memory α} {N n c0 : Nat} {rows : List (List α)} (h : m.readRows N c0 n = some rows) :
    rows.length = n ∧ (∀ r ∈ rows, r.length = N) ∧ rows.flatten.length = n * N ∧
      ∀ j < n * N, rows.flatten[j]? = m.read (c0 * N + j) := by
  induction n generalizing c0 rows with
  | zero => simp [Memory.readRows] at h; subst h; simp
  | succ n ih =>
    simp only [Memory.readRows] at h
    split at h
    · rename_i r rs hr hrs
      simp only [Option.some.injEq] at h
      subst h
      obtain ⟨h1, h2, h3, h4⟩ := ih hrs
      obtain ⟨hl, hg⟩ := (Memory.readN_eq_some _ _ _ _).mp hr
      refine ⟨by simp [h1], by simpa [hl] using h2, by rw [List.flatten_cons, List.length_append, hl, h3]; ring, fun j hj => ?_⟩
      rw [List.flatten_cons]
      by_cases hjN : j < N
      · rw [List.getElem?_append_left (by omega), hg j hjN]
      · rw [List.getElem?_append_right (by omega), hl, h4 (j - N) (by rw [Nat.succ_mul] at hj; omega)]
        congr 1
        rw [Nat.add_mul]
        omega
    · simp at h

end Sys2Proof
end

