-- ==== Sys2Proof/Laws/Numerics.lean ====
section
/-! SUPPORT. What the interpolators' building blocks do: the output grid, and when and with what outputs ILIN and ISINC answer. -/

namespace Sys2Proof

theorem collect_eq_some {α β : Type} (f : α → Option β) (l : List α) (r : List β) :
    collect f l = some r ↔ l.map f = r.map some := by
  induction l generalizing r with
  | nil => cases r <;> simp [collect]
  | cons a l ih =>
    cases r with
    | nil => simp only [collect]; split <;> simp
    | cons b r =>
      simp only [collect, List.map_cons, List.cons.injEq]
      constructor
      · intro h
        split at h
        · rename_i b' bs hb hbs
          simp only [Option.some.injEq, List.cons.injEq] at h
          obtain ⟨rfl, rfl⟩ := h
          exact ⟨hb, (ih _).mp hbs⟩
        · simp at h
      · rintro ⟨hb, hr⟩
        simp [hb, (ih r).mpr hr]

theorem collect_isSome {α β : Type} (f : α → Option β) (l : List α) :
    (collect f l).isSome ↔ ∀ a ∈ l, (f a).isSome := by
  induction l with
  | nil => simp [collect]
  | cons a l ih =>
    simp only [collect, List.mem_cons, forall_eq_or_imp, ← ih]
    cases f a <;> cases collect f l <;> simp

theorem collect_length {α β : Type} {f : α → Option β} {l : List α} {r : List β} (h : collect f l = some r) :
    r.length = l.length := by
  simpa using (congrArg List.length ((collect_eq_some f l r).mp h)).symm

theorem collect_get {α β : Type} {f : α → Option β} {l : List α} {r : List β} (h : collect f l = some r) (i : Nat) {a : α}
    (ha : l[i]? = some a) : r[i]? = f a := by
  have hm := congrArg (fun x => x[i]?) ((collect_eq_some f l r).mp h)
  simp only [List.getElem?_map, ha, Option.map_some] at hm
  cases hr : r[i]? with
  | none => simp [hr] at hm
  | some b => simp only [hr, Option.map_some, Option.some.injEq] at hm; rw [hm]

/-- The grid lists `(j / z, j mod z)` for the output indices `j` in order (R201). -/
theorem grid_eq (N z : Nat) : grid N z = (List.range (N / z * z)).map (fun j => (j / z, j % z)) := by
  unfold grid
  generalize N / z = q
  rcases Nat.eq_zero_or_pos z with rfl | hz
  · simp
  induction q with
  | zero => simp
  | succ q ih =>
    rw [List.range_succ, List.flatMap_append, ih, Nat.succ_mul, List.range_add, List.map_append]
    congr 1
    simp only [List.flatMap_cons, List.flatMap_nil, List.append_nil, List.map_map]
    refine List.map_congr_left fun l hl => ?_
    have hl : l < z := List.mem_range.mp hl
    simp only [Function.comp_apply, Prod.mk.injEq]
    rw [Nat.mul_comm q z, Nat.mul_add_div hz, Nat.div_eq_of_lt hl, Nat.mul_add_mod, Nat.mod_eq_of_lt hl]
    simp

theorem grid_length (N z : Nat) : (grid N z).length = N / z * z := by simp [grid_eq]

theorem grid_get {N z j : Nat} (h : j < N / z * z) : (grid N z)[j]? = some (j / z, j % z) := by
  simp [grid_eq, h]

/-- A zoom factor in range divides the buffer length (R7, R201). -/
theorem zoom_divides {N p : Nat} (hN : N = 2 ^ N.log2) (hp : p ≤ N.log2) : N / 2 ^ p * 2 ^ p = N := by
  obtain ⟨k, hk⟩ := Nat.pow_dvd_pow 2 hp
  rw [hN, hk, Nat.mul_div_cancel_left _ (by positivity), Nat.mul_comm]

/-- The input index of every output of ILIN is inside the buffer (R76). -/
theorem ilin_index {N z j : Nat} (hz : N / z * z = N) (hj : j < N) : j / z < N ∧ (j % z ≠ 0 → j / z + 1 < N) := by
  have hzpos : 0 < z := Nat.pos_of_ne_zero (by rintro rfl; simp at hz; omega)
  have hlt : j / z < N / z := (Nat.div_lt_iff_lt_mul hzpos).mpr (by omega)
  have hle : N / z ≤ N := Nat.div_le_self _ _
  refine ⟨by omega, fun h => ?_⟩
  have hz2 : 2 ≤ z := by
    rcases Nat.lt_or_ge z 2 with h2 | h2
    · have : z = 1 := by omega
      subst this; simp [Nat.mod_one] at h
    · exact h2
  have h3 : N / z * 2 ≤ N / z * z := Nat.mul_le_mul_left _ hz2
  omega

theorem ilinAt_isSome {z : Nat} {s : List RealTerm} {kl : Nat × Nat} (h0 : kl.1 < s.length)
    (h1 : kl.2 ≠ 0 → kl.1 + 1 < s.length) : (ilinAt z s kl).isSome := by
  unfold ilinAt
  split_ifs with h
  · simp [h0]
  · simp [List.getElem?_eq_getElem h0, List.getElem?_eq_getElem (h1 h)]

/-- ILIN answers for every buffer of `N` values and every zoom factor that divides `N` (R203). -/
theorem ilin_isSome {N z : Nat} {s : List RealTerm} (hs : s.length = N) (hz : N / z * z = N) : (ilin N z s).isSome := by
  refine (collect_isSome _ _).mpr fun kl hkl => ?_
  rw [grid_eq, List.mem_map] at hkl
  obtain ⟨j, hj, rfl⟩ := hkl
  rw [List.mem_range, hz] at hj
  have := ilin_index hz hj
  exact ilinAt_isSome (by simpa [hs] using this.1) (by simpa [hs] using this.2)

/-- ILIN's outputs: exactly one per grid point (R200, R201). -/
theorem ilin_spec {N z : Nat} {s o : List RealTerm} (hz : N / z * z = N) (h : ilin N z s = some o) :
    o.length = N ∧ ∀ j < N, o[j]? = ilinAt z s (j / z, j % z) := by
  refine ⟨by rw [collect_length h, grid_length, hz], fun j hj => ?_⟩
  exact collect_get h j (grid_get (by omega))

/-- ISINC answers for every buffer of `N >= 1` values when every kernel row can be read (R205). -/
theorem isinc_isSome {N p : Nat} {row : Nat → Option (List RealTerm)} {s : List RealTerm} (hs : 0 < s.length)
    (hz : N / 2 ^ p * 2 ^ p = N) (hrow : ∀ r < N, (row r).isSome) : (isinc N p row s).isSome := by
  refine (collect_isSome _ _).mpr fun kl hkl => ?_
  rw [grid_eq, List.mem_map] at hkl
  obtain ⟨j, hj, rfl⟩ := hkl
  rw [List.mem_range, hz] at hj
  obtain ⟨w, hw⟩ := Option.isSome_iff_exists.mp (hrow j hj)
  simp only [List.getElem?_eq_getElem hs, Nat.div_add_mod' j (2 ^ p), hw, Option.isSome_some]

/-- ISINC's outputs: exactly one per grid point (R200, R205). -/
theorem isinc_spec {N p : Nat} {row : Nat → Option (List RealTerm)} {s o : List RealTerm} (hz : N / 2 ^ p * 2 ^ p = N)
    (h : isinc N p row s = some o) :
    o.length = N ∧ ∀ j < N, ∃ s0 w, s[0]? = some s0 ∧ row j = some w ∧ o[j]? = some (isincSum s0 s w) := by
  refine ⟨by unfold isinc at h; rw [collect_length h, grid_length, hz], fun j hj => ?_⟩
  have hg := collect_get h j (grid_get (N := N) (z := 2 ^ p) (by omega))
  have hl : j < o.length := by unfold isinc at h; rw [collect_length h, grid_length, hz]; exact hj
  simp only [Nat.div_add_mod' j (2 ^ p)] at hg
  rw [List.getElem?_eq_getElem hl] at hg
  split at hg
  · rename_i s0 w hs0 hw
    exact ⟨s0, w, hs0, hw, by rw [List.getElem?_eq_getElem hl, hg]⟩
  · simp at hg

end Sys2Proof
end

