-- ==== Sys2Proof/Laws/Ops.lean ====
section
/-! SUPPORT. One lemma per shared operation that says everything it can do: when it answers, and what the state is then. -/

namespace Sys2Proof.Machine

/-! ## Answers -/

@[simp] theorem outcome_ok (s : State) : Answer.outcome (.ok s) = .next s := rfl
@[simp] theorem outcome_error (f : Fault) : Answer.outcome (.error f) = .fault f := rfl

theorem outcome_eq_next {a : Answer} {t : State} : Answer.outcome a = .next t ↔ a = .ok t := by
  cases a <;> simp [Answer.outcome]

@[simp] theorem andThen_ok (s : State) (f : State → Answer) : Answer.andThen (.ok s) f = f s := rfl

theorem andThen_eq_ok {a : Answer} {f : State → Answer} {t : State} :
    Answer.andThen a f = .ok t ↔ ∃ s, a = .ok s ∧ f s = .ok t := by
  cases a <;> simp [Answer.andThen]

/-! ## DISPOUT and SYNC -/

/-- A snapshot is answered exactly when the valid rows of `DISP` hold values. -/
theorem snapshot_eq_ok {fresh : Bool} {s : State} {v : Snapshot} :
    snapshot fresh s = .ok v ↔ ∃ rows, s.Shows rows ∧ v = snapshotWith fresh rows s := by
  unfold snapshot State.Shows snapshotWith
  cases h : s.RAWV
  · simp [eq_comm]
  · simp only [if_true]
    cases hr : s.DISP.readRows s.P.N 0 s.NCH <;> simp [eq_comm]

theorem Shows_unique {s : State} {r r' : List (List RealTerm)} (h : s.Shows r) (h' : s.Shows r') : r = r' := by
  unfold State.Shows at h h'
  split_ifs at h h'
  · rw [h] at h'; simpa using h'
  · rw [h, h']

theorem emitDispout_eq_ok {fresh : Bool} {s t : State} :
    emitDispout fresh s = .ok t ↔ ∃ rows, s.Shows rows ∧ t = emit (.dispout (snapshotWith fresh rows s)) s := by
  unfold emitDispout
  constructor
  · intro h
    split at h
    · rename_i v hv
      obtain ⟨rows, hr, rfl⟩ := snapshot_eq_ok.mp hv
      exact ⟨rows, hr, by simpa using h.symm⟩
    · simp at h
  · rintro ⟨rows, hr, rfl⟩
    rw [snapshot_eq_ok.mpr ⟨rows, hr, rfl⟩]

theorem emitDispout_shows {fresh : Bool} {s : State} {rows : List (List RealTerm)} (h : s.Shows rows) :
    emitDispout fresh s = .ok (emit (.dispout (snapshotWith fresh rows s)) s) :=
  emitDispout_eq_ok.mpr ⟨rows, h, rfl⟩

/-- Changing `SYNC` answers whenever the trace can be shown. -/
theorem syncTo_shows {s : State} {rows : List (List RealTerm)} (new : SyncState) (h : s.Shows rows) :
    syncTo new s = .ok (afterSync new rows s) := by
  unfold syncTo afterSync
  by_cases h1 : s.SYNC = new
  · simp [h1]
  · rw [if_pos h1, if_neg h1]
    exact emitDispout_shows (s := { s with SYNC := new }) (rows := rows) h

/-- All that changing `SYNC` can do. -/
theorem syncTo_eq_ok {new : SyncState} {s t : State} (h : syncTo new s = .ok t) :
    ∃ rows, (s.SYNC ≠ new → s.Shows rows) ∧ t = afterSync new rows s := by
  unfold syncTo at h
  by_cases h1 : s.SYNC = new
  · rw [if_neg (not_not.mpr h1), Except.ok.injEq] at h
    refine ⟨[], fun h2 => absurd h1 h2, ?_⟩
    simp only [← h, afterSync, h1, if_true, List.append_nil]
  · rw [if_pos h1] at h
    obtain ⟨rows, hr, rfl⟩ := emitDispout_eq_ok.mp h
    exact ⟨rows, fun _ => hr, by simp [afterSync, h1, emit]⟩

/-! ## Resampling -/

@[simp] theorem interpolate_disp (s : State) (d : Memory RealTerm) : ({ s with DISP := d } : State).interpolate = s.interpolate :=
  rfl

theorem interp_cases (s : State) : s.INTERP = .linear ∨ s.INTERP = .sinc := by cases s.INTERP <;> simp

theorem interpolate_linear {s : State} (h : s.INTERP = .linear) (v : List RealTerm) :
    s.interpolate v = ilin s.P.N (2 ^ s.ZP) v := by simp [State.interpolate, h]

theorem interpolate_sinc {s : State} (h : s.INTERP = .sinc) (v : List RealTerm) :
    s.interpolate v = isinc s.P.N s.ZP (kernelRow s.ZP s) v := by simp [State.interpolate, h]

theorem resampleChannel_linear {s : State} (h : s.INTERP = .linear) (c : Nat) :
    resampleChannel c s = ilinChannel c (2 ^ s.ZP) s := by simp [resampleChannel, h]

theorem resampleChannel_sinc {s : State} (h : s.INTERP = .sinc) (c : Nat) :
    resampleChannel c s = isincChannel c s.ZP s := by simp [resampleChannel, h]

/-- All that resampling one channel can do. -/
theorem resampleChannel_eq_ok {c : Nat} {s t : State} (h : resampleChannel c s = .ok t) :
    ∃ v o, s.VOLT.readN (c * s.P.N) s.P.N = some v ∧ s.interpolate v = some o ∧
      t = { s with DISP := s.DISP.writeN (c * s.P.N) o } := by
  rcases interp_cases s with hi | hi
  · simp only [interpolate_linear hi]
    rw [resampleChannel_linear hi, ilinChannel] at h
    split at h
    · simp at h
    · split at h
      · simp at h
      · rename_i v hv _ o ho
        exact ⟨v, o, hv, ho, (Except.ok.inj h).symm⟩
  · simp only [interpolate_sinc hi]
    rw [resampleChannel_sinc hi, isincChannel] at h
    split at h
    · split at h
      · simp at h
      · split at h
        · simp at h
        · rename_i v hv _ o ho
          exact ⟨v, o, hv, ho, (Except.ok.inj h).symm⟩
    · simp at h

/-- Resampling one channel answers whenever its voltages hold values and the interpolator answers. -/
theorem resampleChannel_ok {c : Nat} {s : State} {v o : List RealTerm} (hk : s.KVALID = true)
    (hv : s.VOLT.readN (c * s.P.N) s.P.N = some v) (ho : s.interpolate v = some o) :
    resampleChannel c s = .ok { s with DISP := s.DISP.writeN (c * s.P.N) o } := by
  rcases interp_cases s with hi | hi
  · rw [interpolate_linear hi] at ho
    simp only [resampleChannel_linear hi, ilinChannel, hv, ho]
  · rw [interpolate_sinc hi] at ho
    simp only [resampleChannel_sinc hi, isincChannel, hk, hv, ho, if_true]

/-- All that resampling the channels `c`, ..., `c + n - 1` can do: only `DISP` changes. -/
theorem resampleChannels_frame {n c : Nat} {s t : State} (h : resampleChannels n c s = .ok t) :
    ∃ d, t = { s with DISP := d } ∧ (s.DISP.wf → d.wf) := by
  induction n generalizing c s with
  | zero => exact ⟨s.DISP, by simpa [resampleChannels, eq_comm] using h, id⟩
  | succ n ih =>
    obtain ⟨s1, h1, h2⟩ := andThen_eq_ok.mp h
    obtain ⟨v, o, -, -, rfl⟩ := resampleChannel_eq_ok h1
    obtain ⟨d, rfl, hd⟩ := ih h2
    exact ⟨d, rfl, fun hw => hd (Memory.writeN_wf hw _ _)⟩

/-- Resampling answers whenever every channel's voltages can be read and interpolated to `N` values; each row then holds its
interpolated values, and every element outside the rows is as before. -/
theorem resampleChannels_ok {n c : Nat} {s : State} (hk : s.KVALID = true)
    (hr : ∀ ch, c ≤ ch → ch < c + n → ∃ v o, s.VOLT.readN (ch * s.P.N) s.P.N = some v ∧ s.interpolate v = some o ∧
      o.length = s.P.N) :
    ∃ d, resampleChannels n c s = .ok { s with DISP := d } ∧
      (∀ ch, c ≤ ch → ch < c + n → ∃ v o, s.VOLT.readN (ch * s.P.N) s.P.N = some v ∧ s.interpolate v = some o ∧
        d.readN (ch * s.P.N) s.P.N = some o) ∧
      ∀ a, a < c * s.P.N ∨ (c + n) * s.P.N ≤ a → d.read a = s.DISP.read a := by
  induction n generalizing c s with
  | zero => exact ⟨s.DISP, rfl, fun ch h1 h2 => by omega, fun a _ => rfl⟩
  | succ n ih =>
    obtain ⟨v, o, hv, ho, hl⟩ := hr c le_rfl (by omega)
    obtain ⟨d, hd, hrow, hout⟩ := ih (c := c + 1) (s := { s with DISP := s.DISP.writeN (c * s.P.N) o }) hk
      (fun ch h1 h2 => by simpa using hr ch (by omega) (by omega))
    refine ⟨d, ?_, ?_, ?_⟩
    · simp only [resampleChannels, resampleChannel_ok hk hv ho, andThen_ok, hd]
    · intro ch h1 h2
      rcases Nat.eq_or_lt_of_le h1 with rfl | h3
      · refine ⟨v, o, hv, ho, (Memory.readN_eq_some _ _ _ _).mpr ⟨hl, fun i hi => ?_⟩⟩
        rw [hout _ (Or.inl (by simp only [Nat.add_mul, Nat.one_mul]; omega)), Memory.read_writeN, if_pos (by omega)]
        simp
      · simpa using hrow ch (by omega) (by omega)
    · intro a ha
      have h1 : (c + 1) * s.P.N = c * s.P.N + s.P.N := by ring
      have h2 : (c + (n + 1)) * s.P.N = (c + 1 + n) * s.P.N := by ring
      have h3 : (c + 1) * s.P.N ≤ (c + 1 + n) * s.P.N := Nat.mul_le_mul_right _ (by omega)
      have h4 : a < (c + 1) * s.P.N ∨ (c + 1 + n) * s.P.N ≤ a := by omega
      rw [hout a h4, Memory.read_writeN, if_neg (by omega)]

/-- All that RESAMPLE can do: only `DISP` changes, and it requires `RAWV = 1` and `KVALID = 1`. -/
theorem resampleAll_frame {s t : State} (h : resampleAll s = .ok t) :
    s.RAWV = true ∧ s.KVALID = true ∧ ∃ d, t = { s with DISP := d } ∧ (s.DISP.wf → d.wf) := by
  unfold resampleAll at h
  split_ifs at h with h1 h2
  exact ⟨by simpa using h1, by simpa using h2, resampleChannels_frame h⟩

/-- A row of the kernel table holds values at every zoom power in range. -/
theorem kernelRow_isSome {s : State} (h : s.CanResample) {p r : Nat} (hp : p ≤ s.P.MAXZP) (hr : r < s.P.N) :
    (kernelRow p s r).isSome := by
  unfold kernelRow
  rw [h.kern, Memory.readN_isSome]
  intro i hi
  have h1 : p * s.P.N + r + 1 ≤ (s.P.MAXZP + 1) * s.P.N := by
    have : p * s.P.N ≤ s.P.MAXZP * s.P.N := Nat.mul_le_mul_right _ hp
    rw [Nat.add_mul, Nat.one_mul]; omega
  have h2 := Nat.mul_le_mul_right s.P.N h1
  have h3 : (p * s.P.N + r + 1) * s.P.N = (p * s.P.N + r) * s.P.N + s.P.N := by ring
  have h4 : (p * s.P.N + r) * s.P.N + i < (s.P.MAXZP + 1) * s.P.N * s.P.N := by omega
  simp [kernelTable, Memory.read_tabulate, h4]

/-- When the resampler can run, every buffer of `N` values is interpolated to `N` values (R200). -/
theorem interpolate_ok {s : State} (h : s.CanResample) {v : List RealTerm} (hv : v.length = s.P.N) :
    ∃ o, s.interpolate v = some o ∧ o.length = s.P.N := by
  obtain ⟨h2, hN, hM, -⟩ := h.params
  have hz : s.P.N / 2 ^ s.ZP * 2 ^ s.ZP = s.P.N := zoom_divides hN (h.zp_le.trans hM)
  rcases interp_cases s with hi | hi
  · simp only [interpolate_linear hi]
    obtain ⟨o, ho⟩ := Option.isSome_iff_exists.mp (ilin_isSome hv hz)
    exact ⟨o, ho, (ilin_spec hz ho).1⟩
  · simp only [interpolate_sinc hi]
    obtain ⟨o, ho⟩ := Option.isSome_iff_exists.mp
      (isinc_isSome (row := kernelRow s.ZP s) (by omega : 0 < v.length) hz (fun r hr => kernelRow_isSome h h.zp_le hr))
    exact ⟨o, ho, (isinc_spec hz ho).1⟩

/-- RESAMPLE answers whenever the resampler can run and the valid rows of `VOLT` hold values; the valid rows of `DISP` are then the
resampled ones and every other element of `DISP` is as before. -/
theorem resampleAll_ok {s : State} (h : s.CanResample) (hr : s.RAWV = true)
    (hv : ∀ a < s.NCH * s.P.N, (s.VOLT.read a).isSome) :
    ∃ d, resampleAll s = .ok { s with DISP := d } ∧ State.Resampled { s with DISP := d } ∧
      ∀ a, s.NCH * s.P.N ≤ a → d.read a = s.DISP.read a := by
  have hrow : ∀ ch < s.NCH, ∃ v o, s.VOLT.readN (ch * s.P.N) s.P.N = some v ∧ s.interpolate v = some o ∧
      o.length = s.P.N := by
    intro ch hch
    have hsome : (s.VOLT.readN (ch * s.P.N) s.P.N).isSome := by
      refine (Memory.readN_isSome _ _ _).mpr fun i hi => hv _ ?_
      have h1 : (ch + 1) * s.P.N ≤ s.NCH * s.P.N := Nat.mul_le_mul_right _ hch
      rw [Nat.add_mul, Nat.one_mul] at h1
      omega
    obtain ⟨v, hv'⟩ := Option.isSome_iff_exists.mp hsome
    obtain ⟨o, ho, hl⟩ := interpolate_ok h ((Memory.readN_eq_some _ _ _ _).mp hv').1
    exact ⟨v, o, hv', ho, hl⟩
  obtain ⟨d, hd, hrows, hout⟩ := resampleChannels_ok (n := s.NCH) (c := 0) h.kvalid
    (fun ch _ h2 => hrow ch (by omega))
  refine ⟨d, by simp [resampleAll, hr, h.kvalid, hd], fun c hc => ?_, fun a ha => hout a (Or.inr (by simpa using ha))⟩
  obtain ⟨v, o, h1, h2, h3⟩ := hrows c (Nat.zero_le _) (by simpa [State.NCH] using hc)
  exact ⟨v, o, h1, h2, h3⟩

/-! ## The invariant's file contents -/

theorem State.Inv.fbuf_wf {s : State} (h : s.Inv) : s.FBUF.wf := Memory.wf_of_addresses_range h.fbuf_held

/-- Every position before `(CI, SI)` of a payload in progress is staged (R37). -/
theorem State.Inv.staged {s : State} (h : s.Inv) (hf : s.FS = .payload) :
    ∀ a < s.CI.toNat * s.P.N + s.SI, (s.FBUF.read a).isSome := by
  intro a ha
  rw [Memory.read_isSome h.fbuf_wf, h.fbuf_held, if_pos hf, List.mem_range]
  exact ha

/-- With the table built, the interpolator `INTERP` names at `ZP` is `interpolator` there. -/
theorem interpolate_eq {s : State} (h : s.KERN = kernelTable s.P) (v : List RealTerm) :
    s.interpolate v = interpolator s.P s.INTERP s.ZP v := by
  rcases interp_cases s with hi | hi
  · rw [interpolate_linear hi, hi]; rfl
  · rw [interpolate_sinc hi, hi]
    unfold interpolator kernelRow
    rw [h]

/-- A trace resampled now is displayed in the present mode at the present zoom power. -/
theorem State.Resampled.displaysAt {s : State} (h : s.Resampled) (hk : s.KERN = kernelTable s.P) :
    s.DisplaysAt s.INTERP s.ZP := fun c hc => by
  obtain ⟨v, o, h1, h2, h3⟩ := h c hc
  exact ⟨v, o, h1, interpolate_eq hk v ▸ h2, h3⟩

/-- With re-application the trace on display is resampled in the present mode at the present zoom power: it never lags (R329). -/
theorem State.Inv.resampled {s : State} (h : s.Inv) (hk : s.KVALID = true) (hp : s.P.REAPPLY = true) (hr : s.RAWV = true) :
    s.Resampled := by
  obtain ⟨m, p, -, hd, hc⟩ := h.disp_value hr
  obtain ⟨rfl, rfl⟩ := hc hp
  intro c hc
  obtain ⟨v, o, h1, h2, h3⟩ := hd c hc
  exact ⟨v, o, h1, by rw [interpolate_eq (by rw [h.kern, if_pos hk]), h2], h3⟩

/-! ## Frame events -/

/-- The samples of a frame in payload order. -/
theorem frameSamples_length {N : Nat} {fr : Frame} {v : List Byte} (h : frameSamples N fr = some v) :
    v.length = fr.config.channelCount * N := by
  unfold frameSamples at h
  split at h
  · simp at h
  · rename_i rows hrows
    split_ifs at h with hc
    obtain ⟨hl, hall⟩ := hc
    simp only [Option.some.injEq] at h
    subst h
    rw [List.length_flatten, ← hl]
    have : rows.map List.length = List.replicate rows.length N := by
      rw [List.eq_replicate_iff]
      exact ⟨by simp, fun b hb => by
        obtain ⟨r, hr, rfl⟩ := List.mem_map.mp hb
        simpa using List.all_eq_true.mp hall r hr⟩
    simp [this]

/-- All that a ready frame can do (R233), whatever the state. -/
theorem frameReady_frame {fr : Frame} {s t : State} (h : frameReady fr s = .ok t) :
    ∃ v d rows, frameSamples s.P.N fr = some v ∧ s.KVALID = true ∧ (s.DISP.wf → d.wf) ∧
      d.readRows s.P.N 0 fr.config.channelCount = some rows ∧ t = afterReady fr.config v d rows s := by
  unfold frameReady at h
  split at h
  · simp at h
  · rename_i v hv
    obtain ⟨s1, h1, h2⟩ := andThen_eq_ok.mp h
    obtain ⟨-, hk, d, rfl, hd⟩ := resampleAll_frame h1
    obtain ⟨rows, hrows, rfl⟩ := emitDispout_eq_ok.mp h2
    refine ⟨v, d, rows, hv, by simpa using hk, fun hw => hd (by simpa using Memory.dropFrom_wf hw _), ?_, ?_⟩
    · simpa [State.Shows, State.NCH, AcqConfig.channelCount] using hrows
    · apply State.ext_fields <;>
        simp [afterReady, emit, snapshotWith, State.cfg, State.NCH, AcqConfig.channelCount]

/-- A ready frame is processed whenever the resampler can run and its samples are `channelCount * N` bytes (R233). -/
theorem frameReady_ok {fr : Frame} {s : State} {v : List Byte} (h : s.CanResample) (hw : s.DISP.wf)
    (hv : frameSamples s.P.N fr = some v) :
    ∃ d rows, frameReady fr s = .ok (afterReady fr.config v d rows s) ∧ s.Displays fr.config v d rows := by
  have hlen := frameSamples_length hv
  have hcan : (loadTrace fr.config v s).CanResample := ⟨h.params, h.zp_le, h.kvalid, h.kern⟩
  have hnch : (loadTrace fr.config v s).NCH = fr.config.channelCount := rfl
  obtain ⟨d, hd, hres, hout⟩ := resampleAll_ok hcan rfl (by
    intro a ha
    rw [hnch] at ha
    simp only [loadTrace_VOLT, loadTrace_P, Memory.read_ofList, Nat.zero_le, if_true, Nat.sub_zero] at ha ⊢
    simp [hlen, ha])
  have hrow : ∀ ch < fr.config.channelCount, ∃ row, d.readN (ch * s.P.N) s.P.N = some row ∧
      s.interpolate (((v.map RealTerm.toVolt).drop (ch * s.P.N)).take s.P.N) = some row := by
    intro ch hch
    obtain ⟨w, o, h1, h2, h3⟩ := hres ch hch
    refine ⟨o, by simpa using h3, ?_⟩
    have hw' : w = ((v.map RealTerm.toVolt).drop (ch * s.P.N)).take s.P.N := by
      have hb : (ch + 1) * s.P.N ≤ fr.config.channelCount * s.P.N := Nat.mul_le_mul_right _ hch
      rw [Nat.add_mul, Nat.one_mul] at hb
      obtain ⟨hl, hr⟩ := (Memory.readN_eq_some _ _ _ _).mp h1
      simp only [loadTrace_P, loadTrace_VOLT] at hl hr
      refine List.ext_getElem? fun i => ?_
      by_cases hi : i < s.P.N
      · rw [← hr i hi, Memory.read_ofList, List.getElem?_take, if_pos hi, List.getElem?_drop]
        simp
      · rw [List.getElem?_eq_none (by omega), List.getElem?_eq_none (by simp; omega)]
    rw [hw'] at h2
    exact h2
  have hsome : (d.readRows s.P.N 0 fr.config.channelCount).isSome :=
    (Memory.readRows_isSome _ _ _ _).mpr fun c hc => by
      obtain ⟨row, hr, -⟩ := hrow c hc
      simp [hr]
  obtain ⟨rows, hrows⟩ := Option.isSome_iff_exists.mp hsome
  obtain ⟨hrl, hrr⟩ := (Memory.readRows_eq_some _ _ _ _ _).mp hrows
  refine ⟨d, rows, ?_, hrl, fun ch hch => ?_, fun a ha => ?_⟩
  · unfold frameReady
    simp only [hv, hd, andThen_ok]
    rw [emitDispout_shows (rows := rows) (by simpa [State.Shows, State.NCH, AcqConfig.channelCount] using hrows)]
    congr 1
    apply State.ext_fields <;>
      simp [afterReady, emit, snapshotWith, State.cfg, State.NCH, AcqConfig.channelCount]
  · obtain ⟨row, h1, h2⟩ := hrow ch hch
    refine ⟨row, ?_, h1, h2⟩
    rw [← hrr ch hch, Nat.zero_add, h1]
  · rw [hout a (by simpa [hnch] using ha)]
    simp only [loadTrace_DISP, Memory.read_dropFrom hw, if_neg (by omega : ¬ a < fr.config.channelCount * s.P.N)]

/-! ## Retune -/

/-- The writes of an accepted retune answer whenever the trace can be shown (R240). -/
theorem retuneWrites_ok {s : State} {rows : List (List RealTerm)} (c : AcqConfig) (h : s.Shows rows) :
    retuneWrites c s = .ok (afterRetune (encodeCW c) rows s) := by
  unfold retuneWrites afterRetune
  exact syncTo_shows (s := emit (.tx (encodeCW c)) { s with CFG := encodeCW c }) .unsync h

/-- All that a retune can do (R240, R241, R283): it is dropped, or its writes stand and a link error may follow. -/
theorem retuneTo_eq_ok {c : AcqConfig} {s t : State} (h : retuneTo c s = .ok t) :
    (validConfig s.P c = false ∧ t = s) ∨
    (validConfig s.P c = true ∧ ∃ rows, (s.SYNC ≠ .unsync → s.Shows rows) ∧
      t = meetLinkError (afterRetune (encodeCW c) rows s)) := by
  unfold retuneTo at h
  split_ifs at h with hv
  · obtain ⟨u, hu, ht⟩ := andThen_eq_ok.mp h
    obtain ⟨rows, hr, rfl⟩ := syncTo_eq_ok hu
    exact Or.inr ⟨hv, rows, hr, (Except.ok.inj ht).symm⟩
  · exact Or.inl ⟨by simpa using hv, by simpa [eq_comm] using h⟩

/-- All that meeting a link error can do (R283): nothing without one on offer; else the block halts with the offer consumed, or
the error stays on offer. -/
theorem meetLinkError_cases (s : State) :
    (s.env.lerr = false ∧ meetLinkError s = s) ∨
    (s.env.lerr = true ∧ ∃ n, meetLinkError s = halt .link { s with env := { s.env with lerr := false }, free := n }) ∨
    (s.env.lerr = true ∧ s.RXEN = true ∧ meetLinkError s = { s with free := s.free + 1 }) := by
  unfold meetLinkError
  cases h : s.env.lerr
  · simp
  · cases h2 : s.RXEN
    · simp only [if_true, Bool.false_eq_true, if_false]
      exact Or.inr (Or.inl ⟨trivial, s.free, rfl⟩)
    · simp only [if_true]
      split_ifs
      · exact Or.inr (Or.inl ⟨trivial, s.free + 1, rfl⟩)
      · exact Or.inr (Or.inr ⟨trivial, trivial, rfl⟩)

end Sys2Proof.Machine
end

