-- ==== Sys2Proof/Laws/PerInstr.lean ====
section
/-! SUPPORT. Per-instruction facts about the syntax: a well-formed operation's byte lies in that operation's row of R106's table,
in each of its contexts. -/

namespace Sys2Proof.Laws.TableRow

/-- The byte the encoder writes for a well-formed operation is one that the operation's own row of the opcode table takes. -/
def Statement (i : Instr) : Prop :=
  i.wf = true → ∀ x ∈ i.contexts, ∃ b, encode i = some b ∧ ∃ r ∈ opcodeRows, r.mnemonic = i.mnemonic ∧ r.takes x b = true

/-- Showing a row of the table. -/
theorem of_row {i : Instr} {b : Byte} (n : Nat) (r : OpcodeRow) (he : encode i = some b) (hr : opcodeRows[n]? = some r)
    (hm : r.mnemonic = i.mnemonic) (ht : i.wf = true → ∀ x ∈ i.contexts, r.takes x b = true) : Statement i :=
  fun hw x hx => ⟨b, he, r, List.mem_of_getElem? hr, hm, ht hw x hx⟩

theorem no_context {i : Instr} (h : i.contexts = []) : Statement i := fun _ x hx => by simp [h] at hx

theorem decode (b : Byte) : Statement (.decode b) := no_context rfl
theorem encode (c : AcqConfig) : Statement (.encode c) := no_context rfl
theorem rxSkip (b : Byte) : Statement (.rxSkip b) :=
  of_row 0 _ rfl rfl rfl (by simp [Instr.contexts, OpcodeRow.takes, Instr.wf])
theorem rxSync : Statement .rxSync := of_row 1 _ rfl rfl rfl (by decide)
theorem rxCtrl (b : Byte) : Statement (.rxCtrl b) :=
  of_row 2 _ rfl rfl rfl (by simp [Instr.contexts, OpcodeRow.takes])
theorem rxFlag0 : Statement .rxFlag0 := of_row 3 _ rfl rfl rfl (by decide)
theorem rxFlag1 : Statement .rxFlag1 := of_row 4 _ rfl rfl rfl (by decide)
theorem rxFlagX (b : Byte) : Statement (.rxFlagX b) :=
  of_row 5 _ rfl rfl rfl (by simp [Instr.contexts, OpcodeRow.takes, Instr.wf])
theorem rxData (b : Byte) : Statement (.rxData b) :=
  of_row 6 _ rfl rfl rfl (by simp [Instr.contexts, OpcodeRow.takes])
theorem setChannels (n : BitVec 4) : Statement (.setChannels n) := of_row 7 _ rfl rfl rfl (by revert n; decide)
theorem setSlope (e : Slope) : Statement (.setSlope e) := of_row 8 _ rfl rfl rfl (by cases e <;> decide)
theorem setTrigMode (m : TriggerMode) : Statement (.setTrigMode m) := of_row 9 _ rfl rfl rfl (by cases m <;> decide)
theorem setSampMode (m : SamplingMode) : Statement (.setSampMode m) := of_row 10 _ rfl rfl rfl (by cases m <;> decide)
theorem stepPrescale (d : StepDir) : Statement (.stepPrescale d) := of_row 11 _ rfl rfl rfl (by cases d <;> decide)
theorem stepZoom (d : StepDir) : Statement (.stepZoom d) := of_row 12 _ rfl rfl rfl (by cases d <;> decide)
theorem setInterp (m : Interp) : Statement (.setInterp m) := of_row 13 _ rfl rfl rfl (by cases m <;> decide)
theorem toggleRun : Statement .toggleRun := of_row 14 _ rfl rfl rfl (by decide)
theorem armSingle : Statement .armSingle := of_row 15 _ rfl rfl rfl (by decide)
theorem dumpRaw : Statement .dumpRaw := of_row 16 _ rfl rfl rfl (by decide)
theorem quit : Statement .quit := of_row 17 _ rfl rfl rfl (by decide)
theorem cmdReserved (w : Byte) : Statement (.cmdReserved w) :=
  of_row 18 _ rfl rfl rfl (by simp [Instr.contexts, OpcodeRow.takes])
theorem frameEmit (w : Byte) (ready : Bool) : Statement (.frameEmit w ready) := no_context rfl
theorem toVolt (raw : Byte) : Statement (.toVolt raw) := no_context rfl
theorem sinc (x : RealTerm) : Statement (.sinc x) := no_context rfl
theorem kbuild : Statement .kbuild := no_context rfl
theorem ilin (c : BitVec 2) (z : Nat) : Statement (.ilin c z) := no_context rfl
theorem isinc (c : BitVec 2) (p : Nat) : Statement (.isinc c p) := no_context rfl
theorem resample : Statement .resample := no_context rfl
theorem evFrame (fr : Frame) : Statement (.evFrame fr) := no_context rfl
theorem evFrameNotReady (fr : Frame) : Statement (.evFrameNotReady fr) := no_context rfl
theorem evFrameReady (fr : Frame) : Statement (.evFrameReady fr) := no_context rfl
theorem singleDone : Statement .singleDone := no_context rfl
theorem retune (c : AcqConfig) : Statement (.retune c) := no_context rfl
theorem unfreeze : Statement .unfreeze := no_context rfl
theorem evTimeout : Statement .evTimeout := no_context rfl
theorem evLinkErr : Statement .evLinkErr := no_context rfl
theorem evReset (chanOk dispOk : Bool) : Statement (.evReset chanOk dispOk) := no_context rfl

end Sys2Proof.Laws.TableRow
end

