-- ==== Sys2Proof/Laws/Steps.lean ====
section
/-! SUPPORT. What every step can do without a reset: one inversion lemma for the commands, one for the received bytes, one for the
step. Statements about the whole machine are case analyses on `StepEffect`. -/

namespace Sys2Proof

theorem encodeCW_decodeCW (w : Byte) : encodeCW (decodeCW w) = w := by revert w; decide

theorem decodeCW_encodeCW (c : AcqConfig) : decodeCW (encodeCW c) = c := by
  obtain ⟨a, b, c, d, e⟩ := c
  cases a <;> cases b <;> cases d <;> revert c e <;> decide

/-- A command word selects an operation of the command context (R102). -/
theorem decodeCmd_context : ∀ w : Byte, .cmd ∈ (decodeCmd w).contexts := by decide

namespace Machine

/-! ## Which events are enabled -/

theorem mem_enabled (s : State) :
    (∀ b, .rx b ∈ s.enabled ↔ s.rxOffer = some b) ∧ (∀ w, .cmd w ∈ s.enabled ↔ s.cmdOffer = some w) ∧
    (.lerr ∈ s.enabled ↔ s.lerrOffer = true) ∧ (.tmo ∈ s.enabled ↔ s.tmoOffer = true) := by
  unfold State.enabled
  refine ⟨fun b => ?_, fun w => ?_, ?_, ?_⟩ <;> cases s.rxOffer <;> cases s.cmdOffer <;> cases s.lerrOffer <;>
    cases s.tmoOffer <;> simp [eq_comm]

theorem rxOffer_eq_some {s : State} {b : Byte} (h : s.rxOffer = some b) :
    s.HALT = .none ∧ s.KVALID = true ∧ s.RXEN = true ∧ s.env.rx.head? = some b := by
  unfold State.rxOffer State.awake at h
  split_ifs at h with h1
  simp only [Bool.and_eq_true, decide_eq_true_eq] at h1
  exact ⟨h1.1.1, h1.1.2, h1.2, h⟩

theorem cmdOffer_eq_some {s : State} {w : Byte} (h : s.cmdOffer = some w) :
    s.HALT = .none ∧ s.KVALID = true ∧ s.FS = .idle ∧ s.env.cmd.head? = some w := by
  unfold State.cmdOffer State.awake at h
  split_ifs at h with h1
  simp only [Bool.and_eq_true, decide_eq_true_eq] at h1
  exact ⟨h1.1.1, h1.1.2, h1.2, h⟩

/-! ## Commands -/

/-- The five retune commands (R242-R247). -/
def IsRetune (i : Instr) : Prop :=
  (∃ n, i = .setChannels n) ∨ (∃ e, i = .setSlope e) ∨ (∃ m, i = .setTrigMode m) ∨ (∃ m, i = .setSampMode m) ∨
    ∃ d, i = .stepPrescale d

/-- All that a command can do. -/
structure CommandEffect (i : Instr) (s t : State) : Prop where
  same : t.P = s.P ∧ t.KERN = s.KERN ∧ t.KVALID = s.KVALID ∧ t.FS = s.FS ∧ t.RAW = s.RAW ∧ t.VOLT = s.VOLT ∧
    t.RAWV = s.RAWV ∧ t.nchM1 = s.nchM1
  disp : t.DISP = s.DISP ∨
    (s.P.REAPPLY = true ∧ s.RAWV = true ∧ t.env = s.env ∧ ((∃ d, i = .stepZoom d) ∨ ∃ m, i = .setInterp m))
  sync : t.SYNC ≠ s.SYNC → t.SYNC = .unsync ∧ IsRetune i
  zp : t.ZP ≠ s.ZP → ∃ d, i = .stepZoom d
  interp : t.INTERP ≠ s.INTERP → ∃ m, i = .setInterp m
  zoom : t.ZP ≠ s.ZP ∨ t.INTERP ≠ s.INTERP →
    t.CFG = s.CFG ∧ t.SYNC = s.SYNC ∧ t.RUN = s.RUN ∧ t.SSA = s.SSA ∧ t.RXEN = s.RXEN
  out : ∃ new, t.out = s.out ++ new ∧
    ∀ b, .tx b ∈ new → t.CFG = b ∧ t.SYNC = .unsync ∧ validConfig s.P (decodeCW b) = true
  run : (t.RUN = s.RUN ∧ t.RXEN = s.RXEN ∧ t.env.rx = s.env.rx) ∨ s.RUN = true ∨
    (t.RUN = true ∧ t.RXEN = true ∧ t.env.rx = [] ∧ (i = .toggleRun ∨ i = .armSingle))

/-- A command that changes nothing. -/
theorem CommandEffect.nothing (i : Instr) (s : State) : CommandEffect i s s :=
  ⟨by simp, Or.inl rfl, by simp, by simp, by simp, by simp, ⟨[], by simp⟩, Or.inl (by simp)⟩

/-- A retune has a command's effect, whether it is dropped, stands, or meets a link error (R240, R241, R283). -/
theorem retuneTo_effect {i : Instr} {s t : State} {c : AcqConfig} (hi : IsRetune i) (e : retuneTo c s = .ok t) :
    CommandEffect i s t := by
  rcases retuneTo_eq_ok e with ⟨-, rfl⟩ | ⟨hv, rows, -, rfl⟩
  · exact .nothing _ _
  · obtain ⟨l, hl, htx⟩ : ∃ l, (afterRetune (encodeCW c) rows s).out = s.out ++ ([.tx (encodeCW c)] ++ l) ∧
        ∀ b, Out.tx b ∉ l := by
      refine ⟨_, by simp only [afterRetune, afterSync, List.append_assoc]; rfl, fun b => ?_⟩
      split_ifs <;> simp
    have hval : validConfig s.P (decodeCW (encodeCW c)) = true := by rw [decodeCW_encodeCW]; exact hv
    have hsent : ∀ b, Out.tx b ∈ [.tx (encodeCW c)] ++ l → b = encodeCW c := by
      intro b hb; simpa [htx] using hb
    rcases meetLinkError_cases (afterRetune (encodeCW c) rows s) with ⟨-, e⟩ | ⟨-, n, e⟩ | ⟨-, -, e⟩ <;> rw [e]
    · refine ⟨⟨rfl, rfl, rfl, rfl, rfl, rfl, rfl, rfl⟩, Or.inl rfl, fun _ => ⟨rfl, hi⟩, fun h => absurd rfl h,
        fun h => absurd rfl h, ?_, ⟨_, hl, ?_⟩, Or.inl ⟨rfl, rfl, rfl⟩⟩
      · rintro (h | h) <;> exact absurd rfl h
      · intro b hb; rw [hsent b hb]; exact ⟨rfl, rfl, hval⟩
    · refine ⟨⟨rfl, rfl, rfl, rfl, rfl, rfl, rfl, rfl⟩, Or.inl rfl, fun _ => ⟨rfl, hi⟩, fun h => absurd rfl h,
        fun h => absurd rfl h, ?_, ⟨([.tx (encodeCW c)] ++ l) ++ [.exit .link], by simp [hl], ?_⟩, Or.inl ⟨rfl, rfl, rfl⟩⟩
      · rintro (h | h) <;> exact absurd rfl h
      · intro b hb
        rw [hsent b (by simpa using hb)]
        exact ⟨rfl, rfl, hval⟩
    · refine ⟨⟨rfl, rfl, rfl, rfl, rfl, rfl, rfl, rfl⟩, Or.inl rfl, fun _ => ⟨rfl, hi⟩, fun h => absurd rfl h,
        fun h => absurd rfl h, ?_, ⟨_, hl, ?_⟩, Or.inl ⟨rfl, rfl, rfl⟩⟩
      · rintro (h | h) <;> exact absurd rfl h
      · intro b hb; rw [hsent b hb]; exact ⟨rfl, rfl, hval⟩

theorem retuneIf_effect {i : Instr} {s t : State} {c : Option AcqConfig} (hi : IsRetune i) (e : retuneIf c s = .ok t) :
    CommandEffect i s t := by
  cases c with
  | none => cases e; exact .nothing _ _
  | some c => exact retuneTo_effect hi e

/-- All that the re-application can do (R250, R251). -/
theorem reapply_eq_ok {s t : State} (e : reapply s = .ok t) :
    t = s ∨ (s.P.REAPPLY = true ∧ s.RAWV = true ∧ ∃ d rows, t = afterReapply d rows s ∧ (s.DISP.wf → d.wf)) := by
  unfold reapply at e
  split_ifs at e with hb
  · obtain ⟨u, h1, h2⟩ := andThen_eq_ok.mp e
    obtain ⟨-, -, d, rfl, hd⟩ := resampleAll_frame h1
    obtain ⟨rows, -, rfl⟩ := emitDispout_eq_ok.mp h2
    simp only [Bool.and_eq_true] at hb
    exact Or.inr ⟨hb.1, hb.2, d, rows, rfl, hd⟩
  · cases e; exact Or.inl rfl

/-- Every command word's operation has a command's effect. -/
theorem exec_command {i : Instr} {s t : State} (hi : .cmd ∈ i.contexts) (e : exec i s = .next t) : CommandEffect i s t := by
  cases i <;> simp only [Instr.contexts, List.mem_cons, List.not_mem_nil, or_false, reduceCtorEq, or_self] at hi
  case setChannels => exact retuneIf_effect (by simp [IsRetune]) (outcome_eq_next.mp e)
  case stepPrescale => exact retuneIf_effect (by simp [IsRetune]) (outcome_eq_next.mp e)
  case setSlope => exact retuneTo_effect (by simp [IsRetune]) (outcome_eq_next.mp e)
  case setTrigMode => exact retuneTo_effect (by simp [IsRetune]) (outcome_eq_next.mp e)
  case setSampMode => exact retuneTo_effect (by simp [IsRetune]) (outcome_eq_next.mp e)
  case stepZoom d =>
    rcases reapply_eq_ok (outcome_eq_next.mp e) with rfl | ⟨h1, h2, d, rows, rfl, -⟩
    · exact ⟨⟨rfl, rfl, rfl, rfl, rfl, rfl, rfl, rfl⟩, Or.inl rfl, by simp, by simp, by simp, by simp, ⟨[], by simp⟩,
        Or.inl (by simp)⟩
    · exact ⟨⟨rfl, rfl, rfl, rfl, rfl, rfl, rfl, rfl⟩, Or.inr ⟨h1, h2, rfl, by simp⟩, by simp [afterReapply], by simp,
        by simp [afterReapply], by simp [afterReapply], ⟨_, rfl, by simp⟩, Or.inl (by simp [afterReapply])⟩
  case setInterp m =>
    rcases reapply_eq_ok (outcome_eq_next.mp e) with rfl | ⟨h1, h2, d, rows, rfl, -⟩
    · exact ⟨⟨rfl, rfl, rfl, rfl, rfl, rfl, rfl, rfl⟩, Or.inl rfl, by simp, by simp, by simp, by simp, ⟨[], by simp⟩,
        Or.inl (by simp)⟩
    · exact ⟨⟨rfl, rfl, rfl, rfl, rfl, rfl, rfl, rfl⟩, Or.inr ⟨h1, h2, rfl, by simp⟩, by simp [afterReapply], by simp [afterReapply],
        by simp [afterReapply], by simp [afterReapply], ⟨_, rfl, by simp⟩, Or.inl (by simp [afterReapply])⟩
  case cmdReserved =>
    simp only [exec, execCmdReserved, Host.Outcome.next.injEq] at e
    subst e
    exact .nothing _ _
  case quit =>
    simp only [exec, execQuit, Host.Outcome.next.injEq] at e
    subst e
    exact ⟨by simp, Or.inl rfl, by simp, by simp, by simp, by simp, ⟨[.exit .quit], by simp⟩, Or.inl (by simp)⟩
  case toggleRun =>
    simp only [exec, execToggleRun, Host.Outcome.next.injEq] at e
    subst e
    split_ifs with h
    · exact ⟨by simp [freeze], Or.inl rfl, by simp, by simp, by simp, by simp, ⟨[], by simp⟩, Or.inr (Or.inl h)⟩
    · exact ⟨by simp [thaw], Or.inl rfl, by simp, by simp, by simp, by simp, ⟨[.rxflush], by simp [thaw, rxFlush]⟩,
        Or.inr (Or.inr (by simp [thaw, rxFlush]))⟩
  case armSingle =>
    simp only [exec, execArmSingle, Host.Outcome.next.injEq] at e
    subst e
    split_ifs with h
    · exact ⟨by simp, Or.inl rfl, by simp, by simp, by simp, by simp, ⟨[], by simp⟩, Or.inl (by simp)⟩
    · exact ⟨by simp [thaw], Or.inl rfl, by simp, by simp, by simp, by simp, ⟨[.rxflush], by simp [thaw, rxFlush]⟩,
        Or.inr (Or.inr (by simp [thaw, rxFlush]))⟩
  case dumpRaw =>
    simp only [exec, execDumpRaw] at e
    split at e
    · split at e
      · cases e
        exact ⟨by simp, Or.inl rfl, by simp, by simp, by simp, by simp, ⟨[_], rfl, by simp⟩, Or.inl (by simp)⟩
      · simp at e
    · cases e
      exact .nothing _ _

/-! ## Received bytes -/

/-- All that FRAME.EMIT can do (R150): a frame that is not ready, or a ready one. -/
theorem frameEmit_eq_ok {w : Byte} {ready : Bool} {s t : State} (e : frameEmit w ready s = .ok t) :
    (ready = false ∧ ∃ rows, t = afterSync .notReady rows { s with FS := .idle, FBUF := [], CFG := w }) ∨
    (ready = true ∧ ∃ v d rows, t = afterReady (decodeCW w) v d rows { s with FS := .idle, FBUF := [], CFG := w } ∧
      (s.DISP.wf → d.wf)) := by
  unfold frameEmit at e
  simp only at e
  split_ifs at e with h
  · split at e
    · simp at e
    · simp only [frameEvent, if_true] at e
      obtain ⟨v, d, rows, -, -, hd, -, rfl⟩ := frameReady_frame e
      exact Or.inr ⟨h, v, d, rows, by rw [encodeCW_decodeCW], hd⟩
  · simp only [frameEvent, Bool.false_eq_true, if_false] at e
    obtain ⟨rows, -, rfl⟩ := syncTo_eq_ok e
    exact Or.inl ⟨by simpa using h, rows, by rw [encodeCW_decodeCW]⟩

/-- All that a received byte `b` can do in a state `u` with the registers of `s` (R152). -/
inductive ReceiveEffect (s : State) (b : Byte) (u t : State) : Prop
  | skip : (s.FS = .idle ∨ s.FS = .hunt) → b ≠ 0 → t = { u with FS := .hunt } → ReceiveEffect s b u t
  | sync : (s.FS = .idle ∨ s.FS = .hunt) → b = 0 → t = { u with FS := .ctrl } → ReceiveEffect s b u t
  | ctrl : s.FS = .ctrl → t = { u with FS := .flag, FCW := b } → ReceiveEffect s b u t
  | flag1 : s.FS = .flag → b = 1 → t = { u with FS := .payload, FBUF := [], CI := 0, SI := 0 } → ReceiveEffect s b u t
  | notReady (rows : List (List RealTerm)) : s.FS = .flag → b ≠ 1 →
      t = afterSync .notReady rows { u with FS := .idle, FBUF := [], CFG := u.FCW } → ReceiveEffect s b u t
  | data (m : Memory Byte) (ci : BitVec 2) (si : Nat) : s.FS = .payload →
      t = { u with FBUF := m, CI := ci, SI := si } → (s.FBUF.wf → m.wf) → ReceiveEffect s b u t
  | last (v : List Byte) (d : Memory RealTerm) (rows : List (List RealTerm)) : s.FS = .payload →
      ¬ s.SI < s.P.N - 1 → ¬ s.CI.toNat + 1 < (decodeCW s.FCW).channelCount → (s.DISP.wf → d.wf) →
      t = afterReady (decodeCW u.FCW) v d rows { u with FBUF := [], FS := .idle, CFG := u.FCW } → ReceiveEffect s b u t

/-- Every received byte has one of these effects (R99). -/
theorem exec_received {s : State} {b : Byte} {env : Env} {n : Nat} {t : State}
    (e : exec (decodeRx s.FS b) { s with env := env, free := n } = .next t) :
    ReceiveEffect s b { s with env := env, free := n } t := by
  have key : ∀ fs, s.FS = fs → exec (decodeRx fs b) { s with env := env, free := n } = .next t →
      ReceiveEffect s b { s with env := env, free := n } t := by
    intro fs hfs he
    cases fs <;> simp only [decodeRx] at he
    · split_ifs at he with h <;> simp only [exec, execRxSync, execRxSkip, Host.Outcome.next.injEq] at he <;> subst he
      · exact .sync (Or.inl hfs) h rfl
      · exact .skip (Or.inl hfs) h rfl
    · split_ifs at he with h <;> simp only [exec, execRxSync, execRxSkip, Host.Outcome.next.injEq] at he <;> subst he
      · exact .sync (Or.inr hfs) h rfl
      · exact .skip (Or.inr hfs) h rfl
    · simp only [exec, execRxCtrl, Host.Outcome.next.injEq] at he
      subst he
      exact .ctrl hfs rfl
    · split_ifs at he with h0 h1
      · rcases frameEmit_eq_ok (outcome_eq_next.mp he) with ⟨-, rows, rfl⟩ | ⟨h, -⟩
        · exact .notReady rows hfs (by rw [h0]; decide) rfl
        · simp at h
      · simp only [exec, execRxFlag1, Host.Outcome.next.injEq] at he
        subst he
        exact .flag1 hfs h1 rfl
      · rcases frameEmit_eq_ok (outcome_eq_next.mp he) with ⟨-, rows, rfl⟩ | ⟨h, -⟩
        · exact .notReady rows hfs h1 rfl
        · simp at h
    · obtain ⟨u, h1, h2⟩ := andThen_eq_ok.mp (outcome_eq_next.mp he)
      unfold storeSample at h1
      split_ifs at h1
      cases h1
      unfold advancePosition at h2
      simp only at h2
      split_ifs at h2 with c1 c2
      · cases h2; exact .data _ _ _ hfs rfl (fun h => Memory.write_wf h _ _)
      · cases h2; exact .data _ _ _ hfs rfl (fun h => Memory.write_wf h _ _)
      · rcases frameEmit_eq_ok h2 with ⟨h, -⟩ | ⟨-, v, d, rows, rfl, hd⟩
        · simp at h
        · exact .last v d rows hfs c1 c2 hd rfl
  exact key _ rfl e

/-! ## Steps -/

/-- All that a step can do without a reset. -/
inductive StepEffect (s t : State) : Prop
  | wait : t = s → StepEffect s t
  | command (w : Byte) (n : Nat) : s.HALT = .none → s.FS = .idle → s.env.cmd.head? = some w →
      CommandEffect (decodeCmd w) { s with env := { s.env with cmd := s.env.cmd.tail }, free := n } t → StepEffect s t
  | received (b : Byte) (n : Nat) : s.HALT = .none → s.RXEN = true → s.env.rx.head? = some b →
      ReceiveEffect s b { s with env := { s.env with rx := s.env.rx.tail }, free := n } t → StepEffect s t
  | linkError (n : Nat) : s.RXEN = true →
      t = halt .link { s with env := { s.env with lerr := false }, free := n } → StepEffect s t
  | timeoutIgnored (n : Nat) : t = { s with env := { s.env with tmo := false }, free := n } → StepEffect s t
  | timeout (n : Nat) (rows : List (List RealTerm)) : s.FS = .idle → s.env.tmo = true → s.RUN = true → s.SYNC = .ready →
      t = afterSync .notReady rows { s with env := { s.env with tmo := false }, free := n } → StepEffect s t

/-- Every step without a reset that answers a next state has one of these effects. -/
theorem step_effect {s t : State} (hr : s.env.rst = none) (e : step s = .next t) : StepEffect s t := by
  rcases step_eq_next e with rfl | ⟨i, u, hf, he⟩
  · exact .wait rfl
  rcases fetch_eq_run hf with ⟨c, d, hr', rfl, rfl⟩ | ⟨-, -, ev, n, hev, rfl, rfl⟩
  · rw [hr] at hr'; simp at hr'
  obtain ⟨a1, a2, a3, a4⟩ := mem_enabled s
  cases ev with
  | cmd w =>
    obtain ⟨b1, -, b3, b4⟩ := cmdOffer_eq_some ((a2 w).mp hev)
    exact .command w n b1 b3 b4 (exec_command (decodeCmd_context w) he)
  | lerr =>
    simp only [select, exec, execEvLinkErr, Host.Outcome.next.injEq] at he
    subst he
    have h := a3.mp hev
    simp only [State.lerrOffer, Bool.and_eq_true] at h
    exact .linkError n h.1.2 rfl
  | tmo =>
    have h' := a4.mp hev
    simp only [State.tmoOffer, Bool.and_eq_true, decide_eq_true_eq] at h'
    have he := outcome_eq_next.mp he
    split_ifs at he with h
    · obtain ⟨rows, -, rfl⟩ := syncTo_eq_ok he
      exact .timeout n rows h'.1.1.1.2 h'.1.1.2 h.1 h.2 rfl
    · cases he
      exact .timeoutIgnored n rfl
  | rx b =>
    obtain ⟨b1, -, b3, b4⟩ := rxOffer_eq_some ((a1 b).mp hev)
    exact .received b n b1 b3 b4 (exec_received he)

end Machine

end Sys2Proof
end

