-- ==== Sys2Proof/Laws/Values.lean ====
section
/-! SUPPORT. The exact values of the rules' formulas (R12): what TOVOLT, SINC, the kernel table, ILIN and ISINC compute in exact
reals. -/

namespace Sys2Proof

variable (vmin vmax : ℝ)

theorem toVolt_toReal (raw : Byte) :
    (RealTerm.toVolt raw).toReal vmin vmax = vmin + (vmax - vmin) * ((raw.toNat : ℝ) / 255) := by
  simp [RealTerm.toVolt, RealTerm.toReal, RealTerm.eval, Num.exact]

/-- The lower end of TOVOLT from U9.3 (R172). The quotient `0 / 255` is a premise, because U9 does not list it (log entry 25). -/
theorem Num.Named.volt_zero {R : Type} {n : Num R} {neg : R → R} {finite : R → Prop} (h : n.Named neg finite)
    (hmin : finite n.vmin) (hspan : finite (n.sub n.vmax n.vmin)) (hdiv : n.div (n.ofNat 0) (n.ofNat 255) = n.ofNat 0) :
    (RealTerm.toVolt 0).eval n = n.vmin := by
  simp only [RealTerm.toVolt, RealTerm.eval]
  erw [hdiv, h.mul_zero _ hspan, h.add_zero _ hmin]

theorem sinc_toReal (x : RealTerm) : x.sinc.toReal vmin vmax = sincExact (x.toReal vmin vmax) := by
  simp only [RealTerm.sinc, RealTerm.toReal, RealTerm.eval, sincExact]
  simp only [Num.exact, decide_eq_true_eq, gt_iff_lt]
  split_ifs <;> simp

/-- The kernel's argument is `pi * (r / z - m)` with `z = 2^p` (R184). -/
theorem kernelEntry_toReal (p r m : Nat) :
    (kernelEntry p r m).toReal vmin vmax = sincExact (Real.pi * ((r : ℝ) / 2 ^ p - m)) := by
  simp only [kernelEntry, sinc_toReal]
  congr 1
  simp only [RealTerm.toReal, RealTerm.eval, Num.exact]
  congr 2
  have h2 : (0 : ℝ) < 2 ^ p := by positivity
  have h : (r : ℝ) = 2 ^ p * (r / 2 ^ p : ℕ) + (r % 2 ^ p : ℕ) := by exact_mod_cast (Nat.div_add_mod r (2 ^ p)).symm
  push_cast
  rw [eq_div_iff (ne_of_gt h2), add_mul, div_mul_cancel₀ _ (ne_of_gt h2), h]
  simp
  ring

/-- A sinc value is at most 1 in magnitude. -/
theorem abs_sincExact_le_one (x : ℝ) : |sincExact x| ≤ 1 := by
  unfold sincExact
  split_ifs with h
  · rw [abs_div, div_le_one (by linarith : 0 < |x|)]
    exact Real.abs_sin_le_abs
  · simp

variable {vmin vmax}

theorem valueAt_of_getElem? {v : List RealTerm} {i : Nat} {t : RealTerm} (h : v[i]? = some t) :
    valueAt vmin vmax v i = t.toReal vmin vmax := by
  simp [valueAt, h]

/-- The output index `k * z + l` and its parts (R201). -/
theorem grid_parts {p k l : Nat} (hl : l < 2 ^ p) : (k * 2 ^ p + l) / 2 ^ p = k ∧ (k * 2 ^ p + l) % 2 ^ p = l := by
  have : 0 < 2 ^ p := by positivity
  constructor
  · rw [Nat.mul_comm, Nat.mul_add_div this, Nat.div_eq_of_lt hl]; simp
  · rw [Nat.mul_add_mod', Nat.mod_eq_of_lt hl]

theorem grid_lt {N p k l : Nat} (hz : N / 2 ^ p * 2 ^ p = N) (hk : k < N / 2 ^ p) (hl : l < 2 ^ p) : k * 2 ^ p + l < N := by
  have : (k + 1) * 2 ^ p ≤ N / 2 ^ p * 2 ^ p := Nat.mul_le_mul_right _ hk
  rw [Nat.add_mul] at this
  omega

/-- ILIN's outputs in exact reals (R203): at `l = 0` the formula is the copy. -/
theorem ilin_value {N p : Nat} {v o : List RealTerm} (hz : N / 2 ^ p * 2 ^ p = N) (hv : v.length = N)
    (h : ilin N (2 ^ p) v = some o) {k l : Nat} (hk : k < N / 2 ^ p) (hl : l < 2 ^ p) :
    valueAt vmin vmax o (k * 2 ^ p + l) =
      valueAt vmin vmax v k + (valueAt vmin vmax v (k + 1) - valueAt vmin vmax v k) * ((l : ℝ) / 2 ^ p) := by
  obtain ⟨-, ho⟩ := ilin_spec hz h
  have hj := grid_lt hz hk hl
  have hat := ho _ hj
  have hidx := ilin_index hz hj
  rw [(grid_parts hl).1, (grid_parts hl).2] at hat hidx
  unfold ilinAt at hat
  by_cases h0 : l = 0
  · subst h0
    simp only [if_true, Nat.add_zero] at hat
    simp [valueAt, hat]
  · simp only [h0, if_false] at hat
    have h1 : k < v.length := by omega
    have h2 : k + 1 < v.length := by have := hidx.2 h0; omega
    simp only [List.getElem?_eq_getElem h1, List.getElem?_eq_getElem h2] at hat
    rw [valueAt_of_getElem? hat, valueAt_of_getElem? (List.getElem?_eq_getElem h1),
      valueAt_of_getElem? (List.getElem?_eq_getElem h2)]
    simp [RealTerm.toReal, RealTerm.eval, Num.exact]

/-- ISINC's accumulation in exact reals (R205). -/
theorem isincSum_toReal (s0 : RealTerm) {s row : List RealTerm} {N : Nat} (h1 : s.length = N) (h2 : row.length = N) :
    (isincSum s0 s row).toReal vmin vmax = s0.toReal vmin vmax +
      ∑ m ∈ Finset.range N, (valueAt vmin vmax s m - s0.toReal vmin vmax) * valueAt vmin vmax row m := by
  have key : ∀ (s row : List RealTerm) (acc : RealTerm) (N : Nat), s.length = N → row.length = N →
      ((s.zip row).foldl (fun acc e => .add acc (.mul (.sub e.1 s0) e.2)) acc : RealTerm).toReal vmin vmax =
        acc.toReal vmin vmax +
          ∑ m ∈ Finset.range N, (valueAt vmin vmax s m - s0.toReal vmin vmax) * valueAt vmin vmax row m := by
    intro s
    induction s with
    | nil => intro row acc N h1 h2; simp at h1; subst h1; simp
    | cons a s ih =>
      intro row acc N h1 h2
      cases row with
      | nil => simp at h1 h2; omega
      | cons b row =>
        obtain ⟨n, rfl⟩ : ∃ n, N = n + 1 := ⟨s.length, by simp at h1; omega⟩
        simp only [List.zip_cons_cons, List.foldl_cons]
        rw [ih row _ n (by simpa using h1) (by simpa using h2), Finset.sum_range_succ']
        simp only [valueAt, List.getElem?_cons_succ, List.getElem?_cons_zero]
        simp only [RealTerm.toReal, RealTerm.eval, Num.exact]
        ring
  have := key s row (.ofNat 0) N h1 h2
  unfold isincSum
  simp only [RealTerm.toReal, RealTerm.eval, Num.exact] at this ⊢
  rw [this]
  simp

/-- ISINC's outputs in exact reals (R205). -/
theorem isinc_value {N p : Nat} {row : Nat → Option (List RealTerm)} {v o w : List RealTerm} {r : Nat}
    (hz : N / 2 ^ p * 2 ^ p = N) (hv : v.length = N) (h : isinc N p row v = some o) (hr : r < N) (hw : row r = some w)
    (hwl : w.length = N) :
    valueAt vmin vmax o r = valueAt vmin vmax v 0 +
      ∑ m ∈ Finset.range N, (valueAt vmin vmax v m - valueAt vmin vmax v 0) * valueAt vmin vmax w m := by
  obtain ⟨-, hg⟩ := isinc_spec hz h
  obtain ⟨s0, w', e1, e2, e3⟩ := hg r hr
  rw [hw] at e2
  cases e2
  rw [valueAt_of_getElem? e3, valueAt_of_getElem? e1]
  exact isincSum_toReal _ hv hwl

/-- The reference numerics has the named properties of TOVOLT exactly because `VMIN < VMAX` (R172). -/
theorem Num.exact_namedVolts {r : RealParams} (hr : r.Valid) : (Num.exact r.VMIN r.VMAX).NamedVolts (fun _ => True) where
  volt_zero := by simp [RealTerm.toVolt, RealTerm.eval, Num.exact]
  div_full := by simp [Num.exact]
  mul_one _ _ := by simp [Num.exact]
  span_finite := trivial
  vmin_add_span := by simp [Num.exact]
  volt_increasing a b h := by
    have h' : (a.toNat : ℝ) < b.toNat := by exact_mod_cast h
    have hs : 0 < r.VMAX - r.VMIN := sub_pos.mpr hr.1
    simp only [RealTerm.toVolt, RealTerm.eval, Num.exact, decide_eq_true_eq]
    gcongr

/-- The reference numerics conforms for every valid parameter record: exact arithmetic has no deviation (R12). -/
theorem Num.exact_conforms {P : Params} {r : RealParams} (hP : P.Valid) (hr : r.Valid) :
    (Num.exact r.VMIN r.VMAX).Conforms (fun _ => True) id P r where
  params := hP
  reals := hr
  abs_exact _ _ := rfl
  lt_exact _ _ _ _ := by simp [Num.exact]
  held _ _ _ _ t _ := ⟨trivial, by simp [Num.within, RealTerm.toReal, hr.2.le]⟩

namespace Machine

/-- The element of the kernel table at zoom power `p`, phase index `r`, sample `m` (R36, R184). -/
theorem kernelTable_read {P : Params} {p r m : Nat} (hp : p ≤ P.MAXZP) (hr : r < P.N) (hm : m < P.N) :
    (kernelTable P).read ((p * P.N + r) * P.N + m) = some (kernelEntry p r m) := by
  have hN : 0 < P.N := by omega
  have h1 : p * P.N + r + 1 ≤ (P.MAXZP + 1) * P.N := by
    have : p * P.N ≤ P.MAXZP * P.N := Nat.mul_le_mul_right _ hp
    rw [Nat.add_mul, Nat.one_mul]; omega
  have h2 := Nat.mul_le_mul_right P.N h1
  have h3 : (p * P.N + r + 1) * P.N = (p * P.N + r) * P.N + P.N := by ring
  have e1 : ((p * P.N + r) * P.N + m) % P.N = m := by rw [Nat.mul_add_mod', Nat.mod_eq_of_lt hm]
  have e2 : ((p * P.N + r) * P.N + m) / P.N = p * P.N + r := by
    rw [Nat.mul_comm, Nat.mul_add_div hN, Nat.div_eq_of_lt hm]; simp
  have e3 : ((p * P.N + r) * P.N + m) / (P.N * P.N) = p := by
    rw [← Nat.div_div_eq_div_mul, e2, Nat.mul_comm, Nat.mul_add_div hN, Nat.div_eq_of_lt hr]; simp
  rw [kernelTable, Memory.read_tabulate, if_pos ⟨Nat.zero_le _, by omega⟩, kernelAt, e1, e2, e3, Nat.mul_add_mod',
    Nat.mod_eq_of_lt hr]

/-- Row `r` of the kernel table at zoom power `p`, in exact reals. -/
theorem kernelTable_row {P : Params} {p r : Nat} (hp : p ≤ P.MAXZP) (hr : r < P.N) :
    ∃ w, (kernelTable P).readN ((p * P.N + r) * P.N) P.N = some w ∧ w.length = P.N ∧
      ∀ m < P.N, valueAt vmin vmax w m = sincExact (Real.pi * ((r : ℝ) / 2 ^ p - m)) := by
  have hs : ((kernelTable P).readN ((p * P.N + r) * P.N) P.N).isSome :=
    (Memory.readN_isSome _ _ _).mpr fun i hi => by rw [kernelTable_read hp hr hi]; rfl
  obtain ⟨w, hw⟩ := Option.isSome_iff_exists.mp hs
  obtain ⟨hl, hg⟩ := (Memory.readN_eq_some _ _ _ _).mp hw
  refine ⟨w, hw, hl, fun m hm => ?_⟩
  have h := hg m hm
  rw [kernelTable_read hp hr hm] at h
  rw [valueAt_of_getElem? h.symm, kernelEntry_toReal]

end Machine

end Sys2Proof
end

