-- ==== Sys2Proof/Tests/Slice0.lean ====
section
/-! SUPPORT. The model's own tests. Expected results come from the spec: the opcode encodings (R92, R99, R102) and the vectors E, V
and P of spec/95_test_vectors.md, named in each comment. The last part shows, for every obligation with hypotheses, a concrete
state and operands that meet them. -/

namespace Sys2Proof.Tests

open Sys2Proof.Machine

/-! ## Well-formedness: each check refuses an ill-formed operation -/

theorem test_wf_rxSkip_zero : (Instr.rxSkip 0x00).wf = false := by decide
theorem test_wf_rxFlagX_one : (Instr.rxFlagX 0x01).wf = false := by decide
theorem test_wf_setChannels_ends :
    (Instr.setChannels 0).wf = false ∧ (Instr.setChannels 1).wf = true ∧ (Instr.setChannels 4).wf = true ∧
    (Instr.setChannels 5).wf = false := by decide
theorem test_wf_cmdReserved_legal : (Instr.cmdReserved 0x12).wf = false ∧ (Instr.cmdReserved 0x15).wf = true := by decide
theorem test_wf_ilin_three : (Instr.ilin 0 3).wf = false ∧ (Instr.ilin 0 0).wf = false ∧ (Instr.ilin 0 4).wf = true := by
  decide

/-- A one-channel configuration (control word 0x00). -/
def oneChannel : AcqConfig := decodeCW 0x00
/-- A two-channel configuration (control word 0x10). -/
def twoChannels : AcqConfig := decodeCW 0x10

theorem test_wf_frame_without_samples : (Instr.evFrame ⟨oneChannel, true, none⟩).wf = false := by decide
theorem test_wf_frame_row_count : (Instr.evFrame ⟨twoChannels, true, some [[1, 2]]⟩).wf = false := by decide
theorem test_wf_frame_row_length : (Instr.evFrame ⟨twoChannels, true, some [[1, 2], [3]]⟩).wf = false := by decide
theorem test_wf_frame_readiness :
    (Instr.evFrameReady ⟨oneChannel, false, none⟩).wf = false ∧
    (Instr.evFrameNotReady ⟨oneChannel, true, some [[1, 2]]⟩).wf = false := by decide

/-! ## Decoding: words written out bit by bit from R92, R99 and R102 -/

/-- V1, row 0x6D: `RealTime`, `Normal`, 3 channels, `Rising`, 5. -/
theorem test_decode_cw : decodeCW 0b01101101 = ⟨.realTime, .normal, 2, .rising, 5⟩ := by decide
/-- C1 of 90_conflicts.md: 0x91 has two channels. -/
theorem test_decode_cw_two_channels : decodeCW 0b10010001 = ⟨.equivalentTime, .auto, 1, .falling, 1⟩ := by decide
theorem test_decode_rx :
    decodeAt (.rx .idle) 0b01010101 = .rxSkip 0x55 ∧ decodeAt (.rx .idle) 0b00000000 = .rxSync ∧
    decodeAt (.rx .hunt) 0b10101010 = .rxSkip 0xAA ∧ decodeAt (.rx .hunt) 0b00000000 = .rxSync ∧
    decodeAt (.rx .ctrl) 0b00000000 = .rxCtrl 0x00 ∧ decodeAt (.rx .flag) 0b00000000 = .rxFlag0 ∧
    decodeAt (.rx .flag) 0b00000001 = .rxFlag1 ∧ decodeAt (.rx .flag) 0b11111111 = .rxFlagX 0xFF ∧
    decodeAt (.rx .payload) 0b00000000 = .rxData 0x00 := by decide
theorem test_decode_retune :
    decodeAt .cmd 0b00010001 = .setChannels 1 ∧ decodeAt .cmd 0b00010100 = .setChannels 4 ∧
    decodeAt .cmd 0b00100000 = .setSlope .falling ∧ decodeAt .cmd 0b00100001 = .setSlope .rising ∧
    decodeAt .cmd 0b00110000 = .setTrigMode .auto ∧ decodeAt .cmd 0b00110001 = .setTrigMode .normal ∧
    decodeAt .cmd 0b01000000 = .setSampMode .realTime ∧ decodeAt .cmd 0b01000001 = .setSampMode .equivalentTime ∧
    decodeAt .cmd 0b01010001 = .stepPrescale .up ∧ decodeAt .cmd 0b01011111 = .stepPrescale .down := by decide
theorem test_decode_view_and_run :
    decodeAt .cmd 0b01100001 = .stepZoom .up ∧ decodeAt .cmd 0b01101111 = .stepZoom .down ∧
    decodeAt .cmd 0b01110000 = .setInterp .linear ∧ decodeAt .cmd 0b01110001 = .setInterp .sinc ∧
    decodeAt .cmd 0b10000000 = .toggleRun ∧ decodeAt .cmd 0b10010000 = .armSingle ∧
    decodeAt .cmd 0b10100000 = .dumpRaw ∧ decodeAt .cmd 0b11110000 = .quit := by decide
/-- V7: the reserved words the table names. -/
theorem test_decode_reserved :
    [0x10, 0x15, 0x00, 0xB0, 0xE7, 0x81, 0x22, 0x52].map (decodeAt .cmd) =
      [0x10, 0x15, 0x00, 0xB0, 0xE7, 0x81, 0x22, 0x52].map Instr.cmdReserved := by decide
theorem test_encode :
    encode (.setChannels 2) = some 0x12 ∧ encode (.stepPrescale .down) = some 0x5F ∧ encode (.setInterp .sinc) = some 0x71 ∧
    encodeCW ⟨.equivalentTime, .auto, 2, .rising, 2⟩ = 0xAA ∧ encode .resample = none ∧ encode (.decode 0xAA) = none := by decide
theorem test_decode_table_word : decodeTableWord 8 0x12 = some (.setChannels 2) ∧ decodeTableWord 8 256 = none := by decide
theorem test_no_byte_waits : (decodeBytes (.rx .idle) []).toOption = none := by decide

/-! ## Helpers -/

/-- The parameters of the vectors of 95_test_vectors.md: `N = 4`, `MAXZP = 2`. -/
def params (reapply : Bool) : Params where
  N := 4
  MAXZP := 2
  psRealTime := (0, 7)
  psEquivalentTime := (0, 3)
  CFG_RESET := 0x00
  REAPPLY := reapply

/-- The state after reset. -/
def fresh (reapply : Bool) : State := State.resetWith (params reapply)

/-- The end state of P1: one ready frame `00 33 66 FF`, linear, no zoom; outputs dropped. -/
def traced (reapply : Bool) : State :=
  { fresh reapply with
    SYNC := .ready
    RAWV := true
    RAW := Memory.ofList 0 [0x00, 0x33, 0x66, 0xFF]
    VOLT := Memory.ofList 0 ([0x00, 0x33, 0x66, 0xFF].map RealTerm.toVolt)
    DISP := Memory.ofList 0 ([0x00, 0x33, 0x66, 0xFF].map RealTerm.toVolt) }

/-- The trace of P1. -/
def tracedRows : List (List RealTerm) := [[0x00, 0x33, 0x66, 0xFF].map RealTerm.toVolt]

/-- `s` with received bytes on offer. -/
def offerRx (bs : List Byte) (s : State) : State := { s with env := { Env.quiet with rx := bs } }
/-- `s` with a command word on offer. -/
def offerCmd (w : Byte) (s : State) : State := { s with env := { Env.quiet with cmd := [w] } }

/-- The next state, where there is one. -/
def next? : Host.Outcome State Fault Refusal → Option State
  | .next s => some s
  | _ => none
/-- The fault, where there is one. -/
def fault? : Host.Outcome State Fault Refusal → Option Fault
  | .fault f => some f
  | _ => none

/-- Fractions `numerator / denominator` with `VMIN = 0` and `VMAX = 5`, for the values of the linear path; `sin` and `pi` do not
occur there. -/
def fractions : Num (Int × Int) where
  ofNat n := (n, 1)
  pi := (0, 1)
  eps := (1, 1000)
  vmin := (0, 1)
  vmax := (5, 1)
  add a b := (a.1 * b.2 + b.1 * a.2, a.2 * b.2)
  sub a b := (a.1 * b.2 - b.1 * a.2, a.2 * b.2)
  mul a b := (a.1 * b.1, a.2 * b.2)
  div a b := (a.1 * b.2, a.2 * b.1)
  sin := id
  abs a := (a.1.natAbs, a.2.natAbs)
  lt a b := decide (a.1 * b.2 < b.1 * a.2)

/-- The terms have the values `n / d`, for the fractions `(n, d)` of the list in order. -/
def haveValues (r : List RealTerm) (vs : List (Int × Int)) : Bool :=
  r.length == vs.length && (r.zip vs).all (fun e => (e.1.eval fractions).1 * e.2.2 == e.2.1 * (e.1.eval fractions).2)

/-- The display row of channel `c` has the values of the list. -/
def displays (c : Nat) (vs : List (Int × Int)) (s : State) : Bool :=
  match s.DISP.readN (c * s.P.N) s.P.N with
  | some r => haveValues r vs
  | none => false

/-! ## One step of each operation -/

/-- R37: the bytes of an earlier frame hold no value in a new payload, nor when no frame is in progress. -/
theorem test_stale_payload_is_not_read :
    fault? (exec (.frameEmit 0x00 true) (fresh false)) = some (.noValue .fbuf) ∧
    (next? (step (offerRx [0x01] { fresh false with FS := .flag, FBUF := Memory.ofList 0 [1, 2, 3, 4] }))).map State.FBUF =
      some [] := by decide

theorem test_decode : (next? (exec (.decode 0x55) (fresh false))).map State.ret =
    some (.config ⟨.realTime, .normal, 1, .falling, 5⟩) := by decide
theorem test_encode_step : (next? (exec (.encode ⟨.equivalentTime, .normal, 3, .rising, 0⟩) (fresh false))).map State.ret =
    some (.byte 0xF8) := by decide
/-- V2, row 5. -/
theorem test_rx_skip : (next? (step (offerRx [0x55, 0xAA] (fresh false)))).map (fun t => (t.FS, t.env.rx)) =
    some (.hunt, [0xAA]) := by decide
theorem test_rx_sync : (next? (step (offerRx [0x00] { fresh false with FS := .hunt }))).map State.FS = some .ctrl := by decide
/-- V2, row 1: a control word 0 is no sync byte. -/
theorem test_rx_ctrl : (next? (step (offerRx [0x00] { fresh false with FS := .ctrl, FCW := 0x55 }))).map
    (fun t => (t.FS, t.FCW, t.CFG)) = some (.flag, 0x00, 0x00) := by decide
/-- P4: the first frame that is not ready emits one stale snapshot without a trace. -/
theorem test_rx_flag0 : (next? (step (offerRx [0x00] { fresh false with FS := .flag, FCW := 0x10 }))).map
    (fun t => (t.FS, t.CFG, t.SYNC, t.out)) = some (.idle, 0x10, .notReady,
      [.dispout ⟨false, .notReady, decodeCW 0x10, 0, .linear, 0, []⟩]) := by decide
theorem test_rx_flag1 : (next? (step (offerRx [0x01] { fresh false with FS := .flag, CI := 3, SI := 2 }))).map
    (fun t => (t.FS, t.CI, t.SI)) = some (.payload, 0, 0) := by decide
/-- V2, row 6: flag 0x02 is taken as not ready. -/
theorem test_rx_flagX : (next? (step (offerRx [0x02] { fresh false with FS := .flag, FCW := 0x07, SYNC := .notReady }))).map
    (fun t => (t.FS, t.CFG, t.SYNC, t.out)) = some (.idle, 0x07, .notReady, []) := by decide
/-- V2, row 3: the position goes from (0,3) to (1,0). -/
theorem test_rx_data_next_channel :
    (next? (step (offerRx [0x04] { fresh false with FS := .payload, FCW := 0x10, CI := 0, SI := 3 }))).map
      (fun t => (t.FS, t.CI, t.SI, t.FBUF)) = some (.payload, 1, 0, [(3, 0x04)]) := by decide
/-- P1: the last byte of the frame. -/
theorem test_rx_data_last :
    (next? (step (offerRx [0xFF]
      { fresh false with FS := .payload, SI := 3, FBUF := Memory.ofList 0 [0x00, 0x33, 0x66] }))).map
      (fun t => (t.FS, t.SYNC, t.RAW, displays 0 [(0, 1), (1, 1), (2, 1), (5, 1)] t)) =
      some (.idle, .ready, [(0, 0), (1, 51), (2, 102), (3, 255)], true) := by decide
/-- V7, row 2. -/
theorem test_set_channels : (next? (step (offerCmd 0x14 (traced false)))).map (fun t => (t.CFG, t.SYNC, t.out)) =
    some (0x30, .unsync, [.tx 0x30, .dispout ⟨false, .unsync, decodeCW 0x30, 0, .linear, 1, tracedRows⟩]) := by decide
/-- V7, row 5: no snapshot when `SYNC` is `UNSYNC` already. -/
theorem test_set_slope : (next? (step (offerCmd 0x21 { fresh false with CFG := 0x89 }))).map
    (fun t => (t.CFG, t.SYNC, t.out)) = some (0x89, .unsync, [.tx 0x89]) := by decide
theorem test_set_trigmode : (next? (step (offerCmd 0x31 (fresh false)))).map (fun t => (t.CFG, t.out)) =
    some (0x40, [.tx 0x40]) := by decide
theorem test_set_sampmode : (next? (step (offerCmd 0x41 { fresh false with CFG := 0x01 }))).map (fun t => (t.CFG, t.out)) =
    some (0x81, [.tx 0x81]) := by decide
/-- V7, row 11: prescale 5 is outside `PS_RANGE(EquivalentTime) = (0, 3)`. -/
theorem test_set_sampmode_dropped : (next? (step (offerCmd 0x41 { fresh false with CFG := 0x05 }))).map
    (fun t => (t.CFG, t.out)) = some (0x05, []) := by decide
theorem test_step_prescale : (next? (step (offerCmd 0x51 { fresh false with CFG := 0x81 }))).map (fun t => (t.CFG, t.out)) =
    some (0x82, [.tx 0x82]) := by decide
/-- V7, row 10: the sum leaves 0..7. -/
theorem test_step_prescale_dropped : (next? (step (offerCmd 0x5F { traced false with CFG := 0x80 }))).map
    (fun t => (t.CFG, t.SYNC, t.out)) = some (0x80, .ready, []) := by decide
theorem test_step_zoom_saturates : (next? (step (offerCmd 0x6F (fresh false)))).map State.ZP = some 0 ∧
    (next? (step (offerCmd 0x61 { fresh false with ZP := 2 }))).map State.ZP = some 2 := by decide
/-- P7, line 3: re-application at once. -/
theorem test_step_zoom_reapplies : (next? (step (offerCmd 0x61 (traced true)))).map
    (fun t => (t.ZP, displays 0 [(0, 1), (1, 2), (1, 1), (3, 2)] t, t.SYNC, t.out.length)) = some (1, true, .ready, 1) := by decide
/-- P2: without re-application `DISP` stays. -/
theorem test_set_interp : (next? (step (offerCmd 0x71 (traced false)))).map (fun t => (t.INTERP, t.DISP, t.out)) =
    some (.sinc, (traced false).DISP, []) := by decide
theorem test_toggle_run_freezes : (next? (step (offerCmd 0x80 { fresh false with SSA := true }))).map
    (fun t => (t.RUN, t.RXEN, t.SSA, t.out)) = some (false, false, true, []) := by decide
/-- P3, step 9: the backlog is discarded. -/
theorem test_toggle_run_thaws :
    (next? (step { fresh false with RUN := false, RXEN := false, env := { Env.quiet with rx := [0x00], cmd := [0x80] } })).map
      (fun t => (t.RUN, t.RXEN, t.env.rx, t.out)) = some (true, true, [], [.rxflush]) := by decide
theorem test_arm_single : (next? (step (offerCmd 0x90 { fresh false with RUN := false, RXEN := false }))).map
    (fun t => (t.RUN, t.RXEN, t.SSA, t.out)) = some (true, true, true, [.rxflush]) := by decide
theorem test_arm_single_running : (next? (step (offerCmd 0x90 (fresh false)))).map (fun t => (t.RUN, t.SSA, t.out)) =
    some (true, true, []) := by decide
theorem test_dump_raw : (next? (step (offerCmd 0xA0 { traced false with CFG := 0x89 }))).map State.out =
    some [.dumpout ⟨decodeCW 0x89, 1, [[0x00, 0x33, 0x66, 0xFF]]⟩] := by decide
theorem test_dump_raw_empty : (next? (step (offerCmd 0xA0 (fresh false)))).map State.out = some [] := by decide
theorem test_quit : (next? (step (offerCmd 0xF0 (fresh false)))).map (fun t => (t.HALT, t.out)) =
    some (.quit, [.exit .quit]) := by decide
theorem test_cmd_reserved : (next? (step (offerCmd 0xE7 (fresh false)))).map (fun t => (t.env.cmd, t.CFG, t.out)) =
    some ([], 0x00, []) := by decide
theorem test_frame_emit : (next? (exec (.frameEmit 0x81 false) { fresh false with FS := .flag })).map
    (fun t => (t.FS, t.CFG, t.SYNC)) = some (.idle, 0x81, .notReady) := by decide
/-- V2, row 3: a ready frame is channel-major. -/
theorem test_frame_emit_ready :
    (next? (exec (.frameEmit 0x10 true) { fresh false with FBUF := Memory.ofList 0 [1, 2, 3, 4, 5, 6, 7, 8] })).map
      (fun t => (t.NCH, t.RAW.readRows 4 0 2)) = some (2, some [[1, 2, 3, 4], [5, 6, 7, 8]]) := by decide
/-- V3. -/
theorem test_tovolt : haveValues ([0, 51, 153, 255].map RealTerm.toVolt) [(0, 1), (1, 1), (3, 1), (5, 1)] = true := by decide
theorem test_tovolt_step : (next? (exec (.toVolt 51) (fresh false))).map State.ret = some (.real (.toVolt 51)) := by decide
/-- V4: the guard's boundary `|x| = 0.001` gives 1. -/
theorem test_sinc_guard : (RealTerm.sinc (.div (.ofNat 1) (.ofNat 1000))).toReal 0 5 = 1 := by
  rw [sinc_toReal, sincExact, if_neg]
  simp [RealTerm.toReal, RealTerm.eval, Num.exact]
/-- V4: `SINC(pi/2) = 2/pi`. -/
theorem test_sinc_quotient : (RealTerm.sinc (.div .pi (.ofNat 2))).toReal 0 5 = 2 / Real.pi := by
  have h : |Real.pi / 2| > 1 / 1000 := by
    rw [abs_of_pos (by positivity)]
    have := Real.pi_gt_three
    linarith
  rw [sinc_toReal, show (RealTerm.div .pi (.ofNat 2)).toReal 0 5 = Real.pi / 2 by
    simp [RealTerm.toReal, RealTerm.eval, Num.exact], sincExact, if_pos h, Real.sin_pi_div_two]
  field_simp
theorem test_kbuild : (next? (exec .kbuild { fresh false with KVALID := false, KERN := [] })).map
    (fun t => (t.KVALID, t.KERN.length, t.KERN.read 47)) = some (true, 48, some (kernelEntry 2 3 3)) := by decide
/-- V5: row `p = 1`, `r = 1` starts with 0.636619772 = 2/pi. -/
theorem test_kernel_half_phase : (kernelEntry 1 1 0).toReal 0 5 = 2 / Real.pi := by
  have h : |Real.pi / 2| > 1 / 1000 := by
    rw [abs_of_pos (by positivity)]
    have := Real.pi_gt_three
    linarith
  rw [kernelEntry_toReal, show Real.pi * (((1 : ℕ) : ℝ) / 2 ^ 1 - ((0 : ℕ) : ℝ)) = Real.pi / 2 by push_cast; ring, sincExact,
    if_pos h, Real.sin_pi_div_two]
  field_simp
/-- V6: `s = (1, 3, 2, 7)`, `z = 2`; channel 1. -/
theorem test_ilin :
    (next? (exec (.ilin 1 2) { fresh false with VOLT := Memory.ofList 4 [.ofNat 1, .ofNat 3, .ofNat 2, .ofNat 7] })).map
      (displays 1 [(1, 1), (2, 1), (3, 1), (5, 2)]) = some true := by decide
/-- V6: `z = N = 4` reads only `s[0]` and `s[1]`. -/
theorem test_ilin_full_zoom :
    (next? (exec (.ilin 0 4) { fresh false with VOLT := Memory.ofList 0 [.ofNat 1, .ofNat 3, .ofNat 2, .ofNat 7] })).map
      (displays 0 [(1, 1), (3, 2), (2, 1), (5, 2)]) = some true := by decide
/-- E6: `N` outputs, in the channel's own row. -/
theorem test_isinc_count : (next? (exec (.isinc 1 1)
    { fresh false with VOLT := Memory.ofList 4 [.ofNat 1, .ofNat 3, .ofNat 2, .ofNat 7] })).map
      (fun t => t.DISP.map Prod.fst) = some [4, 5, 6, 7] := by decide
theorem test_isinc_unbuilt : fault? (exec (.isinc 0 1) { traced false with KVALID := false }) = some .kernelNotBuilt := by decide
/-- P2, last row: two channels, linear, `ZP = 1`. -/
theorem test_resample :
    (next? (exec .resample { traced false with
      ZP := 1, nchM1 := 1, VOLT := Memory.ofList 0 ([51, 153, 102, 255, 255, 204, 153, 102].map RealTerm.toVolt) })).map
      (fun t => (displays 0 [(1, 1), (2, 1), (3, 1), (5, 2)] t, displays 1 [(5, 1), (9, 2), (4, 1), (7, 2)] t)) = some (true, true) := by decide
/-- C4 of 90_conflicts.md: `CFG` is replaced by a frame that is not ready, too. -/
theorem test_ev_frame_not_ready : (next? (exec (.evFrame ⟨decodeCW 0x89, false, none⟩) (traced false))).map
    (fun t => (t.CFG, t.SYNC, t.RAW)) = some (0x89, .notReady, (traced false).RAW) := by decide
/-- E10: a ready frame ends an armed sweep and freezes the block. -/
theorem test_ev_frame_ready_armed :
    (next? (exec (.evFrame ⟨oneChannel, true, some [[0x00, 0x33, 0x66, 0xFF]]⟩) { fresh false with SSA := true })).map
      (fun t => (t.SYNC, t.RUN, t.SSA, t.RXEN, displays 0 [(0, 1), (1, 1), (2, 1), (5, 1)] t)) =
      some (.ready, false, false, false, true) := by decide
theorem test_ev_frame_notready : (next? (exec (.evFrameNotReady ⟨twoChannels, false, none⟩) (traced false))).map
    (fun t => (t.SYNC, t.CFG)) = some (.notReady, 0x00) := by decide
/-- R233, R37: fewer channels than before leave the others without a value. -/
theorem test_ev_frame_ready_fewer_channels :
    (next? (exec (.evFrameReady ⟨oneChannel, true, some [[0x00, 0x33, 0x66, 0xFF]]⟩)
      { fresh false with DISP := Memory.ofList 0 (List.replicate 8 .eps), nchM1 := 1 })).map
      (fun t => (t.NCH, t.DISP.length, t.CFG)) = some (1, 4, 0x00) := by decide
theorem test_single_done : (next? (exec .singleDone { fresh false with SSA := true })).map
    (fun t => (t.RUN, t.SSA, t.RXEN)) = some (false, false, false) := by decide
theorem test_retune : (next? (exec (.retune ⟨.realTime, .auto, 1, .falling, 2⟩) (fresh false))).map
    (fun t => (t.CFG, t.out)) = some (0x12, [.tx 0x12]) := by decide
theorem test_unfreeze : (next? (exec .unfreeze { fresh false with RUN := false, RXEN := false })).map
    (fun t => (t.RUN, t.RXEN, t.out)) = some (true, true, [.rxflush]) := by decide
/-- E11. -/
theorem test_ev_timeout : (next? (step { traced false with env := { Env.quiet with tmo := true } })).map
    (fun t => (t.SYNC, t.CFG, t.out)) =
      some (.notReady, 0x00, [.dispout ⟨false, .notReady, oneChannel, 0, .linear, 1, tracedRows⟩]) := by decide
/-- V7, last row: a frozen block ignores the timeout. -/
theorem test_ev_timeout_frozen :
    (next? (step { traced false with RUN := false, RXEN := false, env := { Env.quiet with tmo := true } })).map
      (fun t => (t.SYNC, t.out, t.env.tmo)) = some (.ready, [], false) := by decide
/-- P5, line 5: in the middle of a payload. -/
theorem test_ev_linkerr :
    (next? (step { fresh false with FS := .payload, SI := 3, env := { Env.quiet with cmd := [0xF0], tmo := true, lerr := true } })).map
      (fun t => (t.HALT, t.FS, t.out, t.env.cmd)) = some (.link, .payload, [.exit .link], [0xF0]) := by decide
/-- V8, row 4: a frozen block leaves the link error waiting. -/
theorem test_ev_linkerr_waits :
    (next? (step { fresh false with RUN := false, RXEN := false, env := { Env.quiet with lerr := true } })).map
      (fun t => (t.HALT, t.env.lerr)) = some (.none, true) := by decide
/-- P6. -/
theorem test_ev_reset_fails : (next? (step { traced false with env := { Env.quiet with rst := some (true, false) } })).map
    (fun t => (t.HALT, t.KVALID, t.KERN)) = some (.startup, false, []) := by decide
/-- V8, last row: a reset leaves a halt. -/
theorem test_ev_reset : (next? (step { traced false with HALT := .link, env := { Env.quiet with rst := some (true, true) } })).map
    (fun t => (t.HALT, t.SYNC, t.RAWV, t.KVALID, t.RUN)) = some (.none, .unsync, false, true, true) := by decide

/-! ## Witnesses: for each obligation with hypotheses, a state and operands that meet them -/

theorem fresh_inv (r : Bool) : (fresh r).Inv where
  params := by cases r <;> decide
  fbuf_held := rfl
  zp_le := Nat.zero_le _
  rxen_run := rfl
  ready_trace := by simp [fresh, State.resetWith]
  position := by simp [fresh, State.resetWith]
  reading := by simp [fresh, State.resetWith]
  kvalid := fun _ => rfl
  kern := rfl
  raw_held := rfl
  volt := rfl
  disp_held := rfl
  disp_value := by simp [fresh, State.resetWith]

theorem traced_interpolate (r : Bool) :
    (traced r).interpolate ([0x00, 0x33, 0x66, 0xFF].map RealTerm.toVolt) =
      some ([0x00, 0x33, 0x66, 0xFF].map RealTerm.toVolt) := by
  cases r <;> decide

theorem traced_resampled (r : Bool) : (traced r).Resampled := by
  intro c hc
  obtain rfl : c = 0 := by simp [traced, fresh, State.resetWith, State.NCH] at hc; omega
  exact ⟨_, _, rfl, traced_interpolate r, rfl⟩

theorem traced_inv (r : Bool) : (traced r).Inv where
  params := (fresh_inv r).params
  fbuf_held := rfl
  zp_le := Nat.zero_le _
  rxen_run := rfl
  ready_trace := fun _ => rfl
  position := by simp [traced, fresh, State.resetWith]
  reading := by simp [traced, fresh, State.resetWith]
  kvalid := fun _ => rfl
  kern := rfl
  raw_held := rfl
  volt := rfl
  disp_held := rfl
  disp_value := fun _ => ⟨.linear, 0, Nat.zero_le _, (traced_resampled r).displaysAt rfl, fun _ => ⟨rfl, rfl⟩⟩

theorem traced_shows (r : Bool) : (traced r).Shows tracedRows := rfl

theorem fresh_shows (r : Bool) : (fresh r).Shows [] := rfl

theorem fresh_can (r : Bool) : (fresh r).CanResample := ⟨(fresh_inv r).params, Nat.zero_le _, rfl, rfl⟩

/-- The frame of P1. -/
def readyFrame : Frame := ⟨oneChannel, true, some [[0x00, 0x33, 0x66, 0xFF]]⟩
/-- A frame that is not ready. -/
def idleFrame : Frame := ⟨oneChannel, false, none⟩

theorem witness_DecodeOfEncodeIsTheInstruction :
    (Instr.setChannels 4).wf = true ∧ .cmd ∈ (Instr.setChannels 4).contexts ∧
    (Instr.rxSkip 0xFF).wf = true ∧ .rx .idle ∈ (Instr.rxSkip 0xFF).contexts ∧ .rx .hunt ∈ (Instr.rxSkip 0xFF).contexts ∧
    (Instr.rxFlagX 0x02).wf = true ∧ .rx .flag ∈ (Instr.rxFlagX 0x02).contexts := by decide

theorem witness_FieldChangeTouchesItsMaskOnly :
    SamplingMode.equivalentTime ≠ oneChannel.samplingMode ∧ TriggerMode.normal ≠ oneChannel.triggerMode ∧
    (3 : BitVec 2) ≠ oneChannel.channelCountMinus1 ∧ Slope.rising ≠ oneChannel.triggerSlope ∧
    (7 : BitVec 3) ≠ oneChannel.prescale := by decide

theorem witness_ReceivedByteSelectsByPosition :
    (∃ b : Byte, b = 0x00) ∧ (∃ b : Byte, b = 0x01) ∧ (∃ b : Byte, b.toNat = 2) ∧ ∃ b : Byte, b.toNat = 255 :=
  ⟨⟨0, rfl⟩, ⟨1, rfl⟩, ⟨2, rfl⟩, ⟨255, rfl⟩⟩

theorem witness_ReservedWordsDoNothing :
    (fresh false).env.rst = none ∧ (fresh false).HALT = .none ∧ (offerCmd 0x15 (fresh false)).enabled = [.cmd 0x15] ∧
    decodeCmd 0x15 = .cmdReserved 0x15 := by decide

theorem witness_StepRunsTheDecodedOperation_reset :
    ({ fresh false with env := { Env.quiet with rst := some (true, false), lerr := true } } : State).env.rst =
      some (true, false) := rfl
theorem witness_StepRunsTheDecodedOperation_events :
    (offerRx [0x55] (fresh false)).enabled = [.rx 0x55] ∧ (offerCmd 0x12 (fresh false)).enabled = [.cmd 0x12] ∧
    ({ fresh false with env := { Env.quiet with lerr := true } } : State).enabled = [.lerr] ∧
    ({ fresh false with env := { Env.quiet with tmo := true } } : State).enabled = [.tmo] ∧
    (fresh false).env.rst = none ∧ (fresh false).HALT = .none := by decide

theorem witness_EveryStepTakesAnEnabledEvent :
    ({ fresh false with env := { Env.quiet with rx := [0x00], cmd := [0x12], tmo := true } } : State).enabled =
      [.rx 0x00, .cmd 0x12] ∧ (fresh false).HALT = .none := by decide

/-- Nothing on offer; a stalled payload with a command and a timeout; a frozen block with a byte and a link error. -/
theorem witness_BlockWaitsWhenNothingIsEnabled :
    ((fresh false).HALT = .none ∧ (fresh false).env = Env.quiet ∧ (fresh false).enabled = []) ∧
    (∃ s : State, s.HALT = .none ∧ s.env.rst = none ∧ s.FS ≠ .idle ∧ s.env.rx = [] ∧ s.env.lerr = false ∧
      s.env.cmd = [0xF0] ∧ s.env.tmo = true ∧ s.enabled = []) ∧
    ∃ s : State, s.HALT = .none ∧ s.env.rst = none ∧ s.RXEN = false ∧ s.env.cmd = [] ∧ s.env.tmo = false ∧
      s.env.rx = [0x00] ∧ s.env.lerr = true ∧ s.enabled = [] :=
  ⟨by decide,
    ⟨{ fresh false with FS := .payload, env := { Env.quiet with cmd := [0xF0], tmo := true } }, by decide⟩,
    ⟨{ fresh false with RUN := false, RXEN := false, env := { Env.quiet with rx := [0x00], lerr := true } }, by decide⟩⟩

theorem witness_HaltedBlockTakesOnlyReset :
    (fresh false).env.rst = none ∧ ({ fresh false with HALT := .startup } : State).HALT = .startup ∧
    ({ fresh false with HALT := .link } : State).HALT = .link ∧ ({ fresh false with HALT := .quit } : State).HALT = .quit := by
  decide

theorem witness_NotReadyFrameEnds :
    (traced false).Shows tracedRows ∧ (fresh false).Shows [] ∧ idleFrame.ready = false := ⟨rfl, rfl, rfl⟩

theorem witness_HuntControlAndFlagBytes :
    (fresh false).FS = .idle ∧ ({ fresh false with FS := .hunt } : State).FS = .hunt ∧ (0xFF : Byte) ≠ 0 ∧
    ({ fresh false with FS := .ctrl } : State).FS = .ctrl ∧ ({ fresh false with FS := .flag } : State).FS = .flag := by decide

/-- `SI = N - 2`; then `SI = N - 1` with a channel left; then `SI = N - 1` in the last channel. -/
theorem witness_PayloadByteIsStored :
    (∃ s : State, s.SI < s.P.N ∧ s.SI < s.P.N - 1 ∧ s.SI + 2 = s.P.N) ∧
    (∃ s : State, s.SI < s.P.N ∧ ¬ s.SI < s.P.N - 1 ∧ s.CI.toNat + 1 < (decodeCW s.FCW).channelCount) ∧
    ∃ s : State, s.SI < s.P.N ∧ ¬ s.SI < s.P.N - 1 ∧ ¬ s.CI.toNat + 1 < (decodeCW s.FCW).channelCount :=
  ⟨⟨{ fresh false with SI := 2 }, by decide⟩, ⟨{ fresh false with SI := 3, CI := 2, FCW := 0x30 }, by decide⟩,
    ⟨{ fresh false with SI := 3, CI := 3, FCW := 0x30 }, by decide⟩⟩

/-- All eight samples of two channels staged; the last one missing. -/
theorem witness_ReadyFrameIsEmitted :
    (∃ s : State, s.CanResample ∧ s.DISP.wf ∧
      ∀ a < (decodeCW 0x10).channelCount * s.P.N, (s.FBUF.read a).isSome = true) ∧
    ∃ s : State, ∃ a < (decodeCW 0x10).channelCount * s.P.N, s.FBUF.read a = none :=
  ⟨⟨{ fresh false with FBUF := Memory.ofList 0 [1, 2, 3, 4, 5, 6, 7, 8] },
    ⟨(fresh_inv false).params, Nat.zero_le _, rfl, rfl⟩, by decide, by decide⟩,
    ⟨{ fresh false with FBUF := Memory.ofList 0 [1, 2, 3, 4, 5, 6, 7] }, 7, by decide, by decide⟩⟩

theorem witness_ReadyFrameReplacesTheTrace :
    (traced false).CanResample ∧ (traced false).DISP.wf ∧ readyFrame.ready = true ∧
    frameSamples (traced false).P.N readyFrame = some [0x00, 0x33, 0x66, 0xFF] :=
  ⟨⟨(traced_inv false).params, Nat.zero_le _, rfl, rfl⟩, by decide, rfl, by decide⟩

/-- A valid record of real parameters: -5 to 5 within 1e-9. -/
noncomputable def volts : RealParams where
  VMIN := -5
  VMAX := 5
  TOL := 1e-9

theorem volts_valid : volts.Valid := by unfold RealParams.Valid volts; norm_num

theorem witness_ToVoltEndsAndIncreases : volts.Valid ∧ (0xFE : Byte).toNat < (0xFF : Byte).toNat :=
  ⟨volts_valid, by decide⟩
theorem witness_ToVoltEndsAndIncreases_format :
    (Num.exact volts.VMIN volts.VMAX).NamedVolts (fun _ => True) ∧ (0x33 : Byte) ≠ 0 ∧ (0x33 : Byte) ≠ 255 :=
  ⟨Num.exact_namedVolts volts_valid, by decide, by decide⟩

theorem witness_SincIsEven_values :
    (RealTerm.ofNat 0).toReal 0 5 = 0 ∧ |(RealTerm.ofNat 1).toReal 0 5| > 1 / 1000 ∧
    (RealTerm.sub (.ofNat 0) .pi).toReal 0 5 = -RealTerm.pi.toReal 0 5 := by
  simp only [RealTerm.toReal, RealTerm.eval, Num.exact]
  norm_num
theorem witness_SincIsEven_format : (Num.exact 0 5).Named (fun x => -x) (fun _ => True) where
  abs_neg := abs_neg
  eps_pos := by simp [Num.exact]
  sin_neg := Real.sin_neg
  div_neg a b := neg_div_neg_eq a b
  mul_zero x _ := by simp [Num.exact]
  add_zero x _ := by simp [Num.exact]
  sub_self x _ := by simp [Num.exact]
theorem witness_SincIsEven_operands :
    (RealTerm.sub (.ofNat 0) .pi).eval (Num.exact 0 5) = -(RealTerm.pi.eval (Num.exact 0 5)) := by
  simp [RealTerm.eval, Num.exact]

theorem witness_KbuildFillsTheTable : (2 : Nat) ≤ (fresh false).P.MAXZP ∧ (3 : Nat) < (fresh false).P.N ∧
    ((fresh false).P.MAXZP + 1) * (fresh false).P.N * (fresh false).P.N ≤ 48 := by decide

theorem witness_KernelIsPolyphase : (3 : Nat) < 2 ^ 2 ∧ 3 + 1 = 2 + 2 := by decide

theorem witness_IlinWritesTheInterpolatedRow :
    (params false).Valid ∧ 2 ≤ (params false).N.log2 ∧ ∃ s : State, s.P = params false ∧
      s.VOLT.readN ((3 : BitVec 2).toNat * s.P.N) s.P.N = some [.ofNat 1, .ofNat 3, .ofNat 2, .ofNat 7] :=
  ⟨by decide, by decide, { fresh false with VOLT := Memory.ofList 12 [.ofNat 1, .ofNat 3, .ofNat 2, .ofNat 7] }, rfl, by decide⟩

theorem witness_IlinCopiesAndStaysBetweenNeighbours :
    (4 : Nat) = 2 ^ Nat.log2 4 ∧ 2 ≤ Nat.log2 4 ∧ (∃ o, ilin 4 (2 ^ 2) [.ofNat 1, .ofNat 3, .ofNat 2, .ofNat 7] = some o) ∧
    ∃ o, ilin 4 (2 ^ 0) [.ofNat 1, .ofNat 3, .ofNat 2, .ofNat 7] = some o :=
  ⟨by decide, by decide, ⟨_, rfl⟩, ⟨_, rfl⟩⟩

/-- Every row of `KERN` can be read where the kernels are built. -/
theorem kern_rows (p : Nat) (hp : p ≤ 2) :
    ∀ r < (traced false).P.N, ((traced false).KERN.readN ((p * (traced false).P.N + r) * (traced false).P.N)
      (traced false).P.N).isSome = true := by
  intro r hr
  obtain ⟨w, hw, -⟩ := kernelTable_row (vmin := 0) (vmax := 5) (P := params false) (p := p) hp hr
  exact Option.isSome_iff_exists.mpr ⟨w, hw⟩

theorem witness_IsincWritesTheInterpolatedRow :
    ({ fresh false with KVALID := false } : State).KVALID = false ∧ (traced false).P.Valid ∧
    2 ≤ (traced false).P.N.log2 ∧ (traced false).KVALID = true ∧
    (traced false).VOLT.readN ((0 : BitVec 2).toNat * (traced false).P.N) (traced false).P.N =
      some ([0x00, 0x33, 0x66, 0xFF].map RealTerm.toVolt) ∧
    ∀ r < (traced false).P.N, ((traced false).KERN.readN ((2 * (traced false).P.N + r) * (traced false).P.N)
      (traced false).P.N).isSome = true :=
  ⟨rfl, (traced_inv false).params, by decide, rfl, by decide, kern_rows 2 le_rfl⟩

theorem witness_IsincReconstructsExactly (p : Nat) (hp : p ≤ 2) :
    (params false).Valid ∧ p ≤ (params false).MAXZP ∧ (List.replicate 4 (RealTerm.ofNat 3)).length = (params false).N ∧
    (∃ o, isinc (params false).N p
      (fun r => (kernelTable (params false)).readN ((p * (params false).N + r) * (params false).N) (params false).N)
      (List.replicate 4 (RealTerm.ofNat 3)) = some o) ∧
    ∀ m < (params false).N, valueAt 0 5 (List.replicate 4 (RealTerm.ofNat 3)) m =
      valueAt 0 5 (List.replicate 4 (RealTerm.ofNat 3)) 0 := by
  have hP : (params false).Valid := by decide
  refine ⟨hP, hp, rfl, Option.isSome_iff_exists.mp (isinc_isSome (by decide) (zoom_divides hP.2.1 ?_) (kern_rows p hp)), ?_⟩
  · exact hp.trans hP.2.2.1
  · intro m hm
    have hm : m < 4 := hm
    interval_cases m <;> rfl

theorem witness_ResampleWritesEveryValidChannel :
    (traced false).Inv ∧ (traced false).RAWV = true ∧ (traced false).KVALID = true := ⟨traced_inv false, rfl, rfl⟩

theorem witness_ChannelsAreIndependent :
    (traced false).P.Valid ∧ (traced false).ZP ≤ (traced false).P.MAXZP ∧ 0 < (traced false).NCH ∧
    ∃ t, exec .resample (traced false) = .next t :=
  ⟨(traced_inv false).params, by decide, by decide, ⟨_, rfl⟩⟩

theorem witness_ZoomInAndBackRestoresTheTrace :
    (traced true).Inv ∧ (traced true).KVALID = true ∧ (traced true).P.REAPPLY = true ∧ (traced true).RAWV = true ∧
    (traced true).ZP < (traced true).P.MAXZP :=
  ⟨traced_inv true, rfl, rfl, rfl, by decide⟩

/-- The trace of P1, and the same trace after the zoom power and the mode have moved on (R329). -/
theorem witness_RealsAreBounded :
    volts.Valid ∧ (traced false).Inv ∧ (traced false).RAWV = true ∧ 0 < (traced false).NCH ∧ 3 < (traced false).P.N ∧
    State.Inv { traced false with ZP := 2, INTERP := .sinc } :=
  ⟨volts_valid, traced_inv false, rfl, by decide, by decide, { traced_inv false with
    zp_le := le_refl 2
    disp_value := fun _ => ⟨.linear, 0, Nat.zero_le _, (traced_resampled false).displaysAt rfl,
      by simp [traced, fresh, params, State.resetWith]⟩ }⟩

/-- A configuration at each end of `PS_RANGE(EquivalentTime) = (0, 3)`, and one just outside. -/
theorem witness_RetuneSendsAndDesynchronizes :
    (traced false).env.lerr = false ∧ (traced false).Shows tracedRows ∧
    validConfig (params false) (decodeCW 0x80) = true ∧ validConfig (params false) (decodeCW 0x83) = true ∧
    validConfig (params false) (decodeCW 0x84) = false := ⟨rfl, rfl, by decide⟩

theorem witness_RetuneCommandsReplaceOneField :
    (traced false).env.lerr = false ∧ (traced false).Shows tracedRows ∧
    (psRange (params false) (decodeCW 0x00).samplingMode).1 ≤ (decodeCW 0x00).prescale.toNat ∧
    (decodeCW 0x00).prescale.toNat ≤ (psRange (params false) (decodeCW 0x00).samplingMode).2 ∧
    (1 ≤ (1 : BitVec 4).toNat ∧ (4 : BitVec 4).toNat ≤ 4) ∧
    ((params false).psRealTime.1 ≤ (0x07 : Byte).toNat % 8 ∧ (0x07 : Byte).toNat % 8 ≤ (params false).psRealTime.2) ∧
    ((params false).psEquivalentTime.1 ≤ (0x03 : Byte).toNat % 8 ∧
      (0x03 : Byte).toNat % 8 ≤ (params false).psEquivalentTime.2) ∧
    ((0x06 : Byte).toNat % 8 < 7 ∧ (0x06 : Byte).toNat % 8 + 1 ≤ (psRange (params false) (decodeCW 0x06).samplingMode).2) ∧
    (0 < (0x01 : Byte).toNat % 8 ∧ (psRange (params false) (decodeCW 0x01).samplingMode).1 ≤ (0x01 : Byte).toNat % 8 - 1) :=
  ⟨rfl, rfl, by decide⟩

/-- `PS_RANGE(EquivalentTime) = (2, 4)`. -/
def narrow : Params := { params false with psEquivalentTime := (2, 4) }

/-- Prescales just outside the range, and steps whose result is: from below, from its upper end, from its lower end, from above. -/
theorem witness_RejectedRetuneDoesNothing :
    ((0 : BitVec 4).toNat = 0 ∧ 4 < (5 : BitVec 4).toNat) ∧ (0x07 : Byte).toNat % 8 = 7 ∧ (0x08 : Byte).toNat % 8 = 0 ∧
    (psRange narrow (decodeCW 0x85).samplingMode).2 < (0x85 : Byte).toNat % 8 ∧
    (0x81 : Byte).toNat % 8 < (psRange narrow (decodeCW 0x81).samplingMode).1 ∧
    (psRange narrow .equivalentTime).2 < (0x05 : Byte).toNat % 8 ∧
    (0x80 : Byte).toNat % 8 + 1 < (psRange narrow (decodeCW 0x80).samplingMode).1 ∧
    (psRange narrow (decodeCW 0x84).samplingMode).2 < (0x84 : Byte).toNat % 8 + 1 ∧
    (0x82 : Byte).toNat % 8 - 1 < (psRange narrow (decodeCW 0x82).samplingMode).1 ∧
    (psRange narrow (decodeCW 0x86).samplingMode).2 < (0x86 : Byte).toNat % 8 - 1 := by decide

theorem witness_RetuneMayMeetALinkError :
    (∃ s : State, s.env.lerr = true ∧ s.Shows tracedRows ∧ validConfig s.P (decodeCW 0x12) = true ∧ s.RXEN = false) ∧
    ∃ s : State, s.env.lerr = true ∧ s.Shows tracedRows ∧ validConfig s.P (decodeCW 0x12) = true ∧ s.RXEN = true :=
  ⟨⟨{ traced false with RUN := false, RXEN := false, env := { Env.quiet with lerr := true } }, rfl, rfl, by decide, rfl⟩,
    ⟨{ traced false with env := { Env.quiet with lerr := true } }, rfl, rfl, by decide, rfl⟩⟩

/-- The commands' conditions, with a link error on offer to a frozen block: prescale 1, inside both ranges with its neighbours. -/
theorem witness_RetuneMayMeetALinkError_commands :
    ∃ s : State, s.env.lerr = true ∧ s.Shows tracedRows ∧ s.RXEN = false ∧ s.CFG.toNat % 8 = 1 ∧
      (psRange s.P s.cfg.samplingMode).1 ≤ s.cfg.prescale.toNat - 1 ∧
      s.cfg.prescale.toNat + 1 ≤ (psRange s.P s.cfg.samplingMode).2 ∧
      s.P.psRealTime.1 ≤ 1 ∧ 1 ≤ s.P.psRealTime.2 ∧ s.P.psEquivalentTime.1 ≤ 1 ∧ 1 ≤ s.P.psEquivalentTime.2 :=
  ⟨{ traced false with CFG := 0x01, RUN := false, RXEN := false, env := { Env.quiet with lerr := true } }, rfl, rfl, rfl,
    by decide⟩

theorem witness_TimeoutMarksTheTraceStale :
    (traced false).Shows tracedRows ∧ (traced false).RUN = true ∧ (traced false).SYNC = .ready ∧
    (fresh false).Shows [] ∧ ¬ ((fresh false).RUN = true ∧ (fresh false).SYNC = .ready) :=
  ⟨rfl, rfl, rfl, rfl, by decide⟩

theorem witness_ZoomStepSaturates :
    ((traced false).P.REAPPLY && (traced false).RAWV) = false ∧ ((fresh true).P.REAPPLY && (fresh true).RAWV) = false ∧
    (traced true).Inv ∧ (traced true).KVALID = true ∧ (traced true).P.REAPPLY = true ∧ (traced true).RAWV = true :=
  ⟨rfl, rfl, traced_inv true, rfl, rfl, rfl⟩

theorem witness_SetInterpWritesTheMode :
    ((traced false).P.REAPPLY && (traced false).RAWV) = false ∧
    (traced true).Inv ∧ (traced true).KVALID = true ∧ (traced true).P.REAPPLY = true ∧ (traced true).RAWV = true :=
  ⟨rfl, traced_inv true, rfl, rfl, rfl⟩

theorem witness_RunModeCommands :
    (fresh false).RUN = true ∧ ({ fresh false with RUN := false, RXEN := false } : State).RUN = false := by decide

theorem witness_SingleSweepFreezesOnce :
    (fresh false).RXEN = (fresh false).RUN ∧ ∃ a, exec .armSingle (fresh false) = .next a ∧ idleFrame.ready = false ∧
      (∃ u, exec (.evFrame idleFrame) a = .next u) ∧ readyFrame.ready = true ∧ ∃ t, exec (.evFrame readyFrame) a = .next t :=
  ⟨rfl, _, rfl, rfl, ⟨_, rfl⟩, rfl, ⟨_, rfl⟩⟩

theorem witness_DumpCarriesTheRawRows :
    (fresh false).RAWV = false ∧ (traced false).RAWV = true ∧
    (traced false).RAW.readRows (traced false).P.N 0 (traced false).NCH = some [[0x00, 0x33, 0x66, 0xFF]] := by decide

theorem witness_QuitAndLinkErrorHalt :
    (∃ t, exec .quit (fresh false) = .next t) ∧ ∃ t, exec .evLinkErr (fresh false) = .next t := ⟨⟨_, rfl⟩, ⟨_, rfl⟩⟩

theorem witness_ResetSequence : (true && false) = false ∧ (false && true) = false ∧ (false && false) = false := by decide

/-- The last element of the table. -/
theorem witness_ResetLeavesTheStatedValues :
    2 ≤ (traced false).P.MAXZP ∧ 3 < (traced false).P.N ∧ (true = false ∨ false = false) := by decide

theorem witness_ResetMeetsTheInvariant : (params false).Valid ∧ (params true).Valid ∧ State.reset.P = Params.default := by
  decide

theorem witness_StepKeepsTheInvariant :
    ∃ s t : State, s.Inv ∧ step s = .next t ∧ t ≠ s :=
  ⟨{ fresh false with env := { Env.quiet with rx := [0x55] } }, _,
    { fresh_inv false with }, rfl, by
      intro h
      have := congrArg State.FS h
      simp [fresh, State.resetWith] at this⟩

theorem witness_StepNeverFaultsUnderTheInvariant :
    (fresh false).Inv ∧ (fresh false).Live ∧ (({ fresh false with HALT := .quit } : State).Live) ∧
    ({ fresh false with HALT := .link, env := { Env.quiet with rst := some (true, true) } } : State).Live :=
  ⟨fresh_inv false, Or.inr (Or.inl rfl), Or.inr (Or.inr rfl), Or.inl rfl⟩

/-- A timeout changes `SYNC`; a retune command does; the end of a frame does. -/
theorem witness_SyncChangesOnlyByItsTable :
    (∃ s t : State, s.env.rst = none ∧ step s = .next t ∧ t.SYNC ≠ s.SYNC ∧ s.env.tmo = true) ∧
    (∃ s t : State, s.env.rst = none ∧ step s = .next t ∧ t.SYNC ≠ s.SYNC ∧ s.env.cmd = [0x12]) ∧
    ∃ s t : State, s.env.rst = none ∧ step s = .next t ∧ t.SYNC ≠ s.SYNC ∧ s.FS = .flag :=
  ⟨⟨{ traced false with env := { Env.quiet with tmo := true } }, _, rfl, rfl, by decide, rfl⟩,
    ⟨offerCmd 0x12 (traced false), _, rfl, rfl, by decide, rfl⟩,
    ⟨offerRx [0x00] { fresh false with FS := .flag }, _, rfl, rfl, by decide, rfl⟩⟩

theorem witness_FsMovesOnlyByItsTable :
    ∃ s t : State, s.env.rst = none ∧ step s = .next t ∧ t.FS ≠ s.FS :=
  ⟨offerRx [0x55] (fresh false), _, rfl, rfl, by decide⟩

/-- A byte inside a payload. -/
theorem witness_TraceChangesOnlyWhenAFrameEnds :
    ∃ s t : State, s.env.rst = none ∧ step s = .next t ∧ ¬ (s.FS = .payload ∧ t.FS = .idle) ∧ t.FS ≠ .idle :=
  ⟨offerRx [0x55] { traced false with FS := .payload }, _, rfl, rfl, by decide, by decide⟩

/-- A re-application changes `DISP` (R250). -/
theorem witness_TraceChangesOnlyWhenAFrameEnds_reapply :
    ∃ s t : State, s.env.rst = none ∧ step s = .next t ∧ ¬ (s.FS = .payload ∧ t.FS = .idle) ∧ t.DISP ≠ s.DISP :=
  ⟨offerCmd 0x61 (traced true), _, rfl, rfl, by decide, by decide⟩

theorem witness_KernelsAndParametersAreFixed :
    ∃ s t : State, step s = .next t ∧ s.env.rst = none := ⟨offerCmd 0x61 (traced true), _, rfl, rfl⟩

theorem witness_ZoomStateHasOnlyItsCommands :
    (∃ s t : State, s.env.rst = none ∧ step s = .next t ∧ t.ZP ≠ s.ZP) ∧
    ∃ s t : State, s.env.rst = none ∧ step s = .next t ∧ t.INTERP ≠ s.INTERP :=
  ⟨⟨offerCmd 0x61 (traced true), _, rfl, rfl, by decide⟩, ⟨offerCmd 0x71 (traced false), _, rfl, rfl, by decide⟩⟩

theorem witness_TransmittedWordsAreValid :
    ∃ s t : State, step s = .next t ∧ .tx 0x10 ∈ t.out ∧ s.out = [] := ⟨offerCmd 0x12 (traced false), _, rfl, by decide, rfl⟩

/-- A frozen block: a command that keeps it frozen, and the one that wakes it. -/
theorem witness_FrozenBlockTakesNoByte :
    ∃ s : State, s.RUN = false ∧ s.RXEN = false ∧ s.env.rst = none ∧ s.env.rx = [0x00] ∧ (∃ t, step s = .next t) ∧
      ∃ t, step { s with env := { s.env with cmd := [0x90] } } = .next t :=
  ⟨{ offerRx [0x00] (traced false) with RUN := false, RXEN := false }, rfl, rfl, rfl, rfl, ⟨_, rfl⟩, ⟨_, rfl⟩⟩

/-- P4's two skipped bytes and V2's third row, with one byte after the frame. -/
theorem witness_WholeReadyFrameIsRead :
    ∃ s : State, s.Inv ∧ s.HALT = .none ∧ s.RUN = true ∧ s.FS = .idle ∧ s.env.rst = none ∧ s.env.lerr = false ∧
      s.env.cmd = [] ∧ (∀ b ∈ ([0x55, 0xAA] : List Byte), b ≠ 0) ∧
      ([1, 2, 3, 4, 5, 6, 7, 8] : List Byte).length = (decodeCW 0x10).channelCount * s.P.N ∧
      s.env.rx = [0x55, 0xAA] ++ 0x00 :: 0x10 :: 0x01 :: [1, 2, 3, 4, 5, 6, 7, 8] ++ [0x00] :=
  ⟨offerRx [0x55, 0xAA, 0x00, 0x10, 0x01, 1, 2, 3, 4, 5, 6, 7, 8, 0x00] (fresh false), { fresh_inv false with },
    rfl, rfl, rfl, rfl, rfl, rfl, by decide, by decide, rfl⟩

theorem witness_ExecKeepsFilesCanonical :
    (traced false).FilesWf ∧ ∃ t, exec .resample (traced false) = .next t :=
  ⟨⟨by decide, by decide, by decide, by decide, Memory.tabulate_wf _ _ _⟩, ⟨_, rfl⟩⟩

end Sys2Proof.Tests
end

section
/-! Which event a step takes (R46, R283, R289, R290), and what it then runs. -/

namespace Sys2Proof.Machine

/-! ## The conditions of the events -/

theorem awake_iff (s : State) : s.awake = true ↔ s.HALT = .none ∧ s.KVALID = true := by simp [State.awake]

theorem rx_mem_enabled {s : State} {b : Byte} :
    .rx b ∈ s.enabled ↔ s.HALT = .none ∧ s.KVALID = true ∧ s.RXEN = true ∧ s.env.rx.head? = some b := by
  rw [(mem_enabled s).1, State.rxOffer]
  simp [awake_iff, and_assoc]

theorem cmd_mem_enabled {s : State} {w : Byte} :
    .cmd w ∈ s.enabled ↔ s.HALT = .none ∧ s.KVALID = true ∧ s.FS = .idle ∧ s.env.cmd.head? = some w := by
  rw [(mem_enabled s).2.1, State.cmdOffer]
  simp [awake_iff, and_assoc]

theorem lerr_mem_enabled {s : State} :
    .lerr ∈ s.enabled ↔ s.HALT = .none ∧ s.KVALID = true ∧ s.RXEN = true ∧ s.env.lerr = true := by
  rw [(mem_enabled s).2.2.1, State.lerrOffer]
  simp [awake_iff, and_assoc]

theorem tmo_mem_enabled {s : State} :
    .tmo ∈ s.enabled ↔ s.HALT = .none ∧ s.KVALID = true ∧ s.FS = .idle ∧ s.env.tmo = true ∧
      (∀ b, .rx b ∉ s.enabled) ∧ ∀ w, .cmd w ∉ s.enabled := by
  obtain ⟨hrx, hcmd, -, htmo⟩ := mem_enabled s
  rw [htmo, State.tmoOffer]
  simp [hrx, hcmd, awake_iff, and_assoc, Option.eq_none_iff_forall_ne_some]

/-- Settles O10: one lemma for each event. -/
theorem eventsAreTakenOnlyUnderTheirConditions : Obligations.EventsAreTakenOnlyUnderTheirConditions :=
  fun _ => ⟨fun _ => rx_mem_enabled, fun _ => cmd_mem_enabled, lerr_mem_enabled, tmo_mem_enabled⟩

/-! ## What a step runs -/

/-- A reset on offer is taken before anything else (log entry 9). -/
theorem step_of_reset {s : State} {c d : Bool} (h : s.env.rst = some (c, d)) :
    step s = exec (.evReset c d) { s with env := { s.env with rst := none } } := by
  simp only [step, fetch, h]

/-- A single enabled event is the one taken, and no free value is consulted. -/
theorem step_of_single {s : State} {e : Event} (hr : s.env.rst = none) (hh : s.HALT = .none) (he : s.enabled = [e]) :
    step s = exec (select e s.FS) (consume e s) := by
  simp only [step, fetch, hr, hh, choose_single he]
  rw [← hh]

/-- With nothing enabled the block waits (log entry 10). -/
theorem step_of_none {s : State} (hr : s.env.rst = none) (hh : s.HALT = .none) (he : s.enabled = []) : step s = .next s := by
  simp only [step, fetch, hr, hh, choose_none he]

/-- Settles O9: a reset first, then the single enabled event. -/
theorem stepRunsTheDecodedOperation : Obligations.StepRunsTheDecodedOperation :=
  fun _ => ⟨fun _ _ h => step_of_reset h, fun hr hh =>
    ⟨fun _ => step_of_single hr hh, fun _ => step_of_single hr hh, step_of_single hr hh, step_of_single hr hh⟩⟩

/-- Nothing is enabled exactly when no port has an event that the block may take. -/
theorem enabled_eq_nil {s : State} :
    s.enabled = [] ↔ s.rxOffer = none ∧ s.cmdOffer = none ∧ s.lerrOffer = false ∧ s.tmoOffer = false := by
  simp [State.enabled]

/-- Settles O12: in each of its cases no event is enabled. -/
theorem blockWaitsWhenNothingIsEnabled : Obligations.BlockWaitsWhenNothingIsEnabled := by
  intro s hh hr
  refine ⟨step_of_none hr hh, fun hrx hcmd hlerr htmo => ?_, fun hfs hrx hlerr => ?_, fun hrxen hcmd htmo => ?_⟩ <;>
    refine step_of_none hr hh (enabled_eq_nil.mpr ?_)
  · simp [State.rxOffer, State.cmdOffer, State.lerrOffer, State.tmoOffer, hrx, hcmd, hlerr, htmo]
  · simp [State.rxOffer, State.cmdOffer, State.lerrOffer, State.tmoOffer, hfs, hrx, hlerr]
  · simp [State.rxOffer, State.cmdOffer, State.lerrOffer, State.tmoOffer, hrxen, hcmd, htmo]

end Sys2Proof.Machine
end

section
/-! The operations that write control registers only: the retunes, the run mode, the dump, the halts and the changes of `SYNC`. -/

namespace Sys2Proof.Machine

/-- `t` is `s` but for the control registers, the environment's offers and the model's own fields: no file, no register of the frame
read and no register of the trace is written; `SYNC` does not become ready, `RUN` and `RXEN` stay together (R30), and no halt is left. -/
structure ControlEffect (s t : State) : Prop where
  rest : t = { s with
    CFG := t.CFG, SYNC := t.SYNC, RUN := t.RUN, SSA := t.SSA, RXEN := t.RXEN, HALT := t.HALT, env := t.env, out := t.out,
    ret := t.ret, free := t.free }
  sync : t.SYNC = .ready → s.SYNC = .ready
  run : s.RXEN = s.RUN → t.RXEN = t.RUN
  halt : t.HALT = .none → s.HALT = .none

theorem ControlEffect.refl (s : State) : ControlEffect s s := ⟨rfl, id, id, id⟩

/-- A write of `SYNC` other than `SYNC_READY`, with the snapshot that a change of its value emits (R236). -/
theorem afterSync_control {new : SyncState} (hn : new ≠ .ready) (rows : List (List RealTerm)) (s : State) :
    ControlEffect s (afterSync new rows s) :=
  ⟨rfl, fun h => absurd h hn, id, id⟩

theorem emit_control (o : Out) (s : State) : ControlEffect s (emit o s) := ⟨rfl, id, id, id⟩

theorem halt_control {cause : HaltCause} (hc : cause ≠ .none) (s : State) : ControlEffect s (halt cause s) :=
  ⟨rfl, id, id, fun h => absurd h hc⟩

theorem freeze_control (s : State) : ControlEffect s (freeze s) := ⟨rfl, id, fun _ => rfl, id⟩

theorem thaw_control (s : State) : ControlEffect s (thaw s) := ⟨rfl, id, fun _ => rfl, id⟩

theorem endSweep_control (s : State) : ControlEffect s (endSweep s) := ⟨rfl, id, fun _ => rfl, id⟩

theorem meetLinkError_control (c : AcqConfig) (rows : List (List RealTerm)) (s : State) :
    ControlEffect s (meetLinkError (afterRetune (encodeCW c) rows s)) := by
  rcases meetLinkError_cases (afterRetune (encodeCW c) rows s) with ⟨-, e⟩ | ⟨-, n, e⟩ | ⟨-, -, e⟩ <;> rw [e]
  · exact ⟨rfl, nofun, id, id⟩
  · exact ⟨rfl, nofun, id, nofun⟩
  · exact ⟨rfl, nofun, id, id⟩

theorem retuneTo_control {c : AcqConfig} {s t : State} (e : retuneTo c s = .ok t) : ControlEffect s t := by
  rcases retuneTo_eq_ok e with ⟨-, rfl⟩ | ⟨-, rows, -, rfl⟩
  · exact .refl _
  · exact meetLinkError_control c rows s

theorem retuneIf_control {c : Option AcqConfig} {s t : State} (e : retuneIf c s = .ok t) : ControlEffect s t := by
  cases c with
  | none => cases e; exact .refl _
  | some c => exact retuneTo_control e

theorem syncTo_control {new : SyncState} {s t : State} (hn : new ≠ .ready) (e : syncTo new s = .ok t) : ControlEffect s t := by
  obtain ⟨rows, -, rfl⟩ := syncTo_eq_ok e
  exact afterSync_control hn rows s

theorem execDumpRaw_control {s t : State} (e : execDumpRaw s = .next t) : ControlEffect s t := by
  unfold execDumpRaw at e
  split at e
  · split at e
    · cases e; exact ⟨rfl, id, id, id⟩
    · cases e
  · cases e; exact .refl _

theorem execToggleRun_control {s t : State} (e : execToggleRun s = .next t) : ControlEffect s t := by
  cases e
  split
  · exact freeze_control s
  · exact thaw_control s

theorem execArmSingle_control {s t : State} (e : execArmSingle s = .next t) : ControlEffect s t := by
  cases e
  split
  · exact ⟨rfl, id, id, id⟩
  · exact ⟨rfl, id, fun _ => rfl, id⟩

theorem execEvTimeout_control {s t : State} (e : execEvTimeout s = .next t) : ControlEffect s t := by
  replace e := outcome_eq_next.mp e
  split_ifs at e
  · exact syncTo_control (by decide) e
  · cases e; exact .refl _

/-- A command other than STEP_ZOOM and SET_INTERP writes control registers only; those two write their register and re-apply. -/
theorem exec_command_cases {i : Instr} {s t : State} (hi : .cmd ∈ i.contexts) (e : exec i s = .next t) :
    ControlEffect s t ∨ (∃ d, reapply { s with ZP := zoomStep s.P.MAXZP s.ZP d } = .ok t) ∨
      ∃ m, reapply { s with INTERP := m } = .ok t := by
  cases i <;> simp only [Instr.contexts, List.mem_cons, List.not_mem_nil, or_false, reduceCtorEq] at hi
  case stepZoom d => exact .inr (.inl ⟨d, outcome_eq_next.mp e⟩)
  case setInterp m => exact .inr (.inr ⟨m, outcome_eq_next.mp e⟩)
  all_goals left
  case setChannels => exact retuneIf_control (outcome_eq_next.mp e)
  case stepPrescale => exact retuneIf_control (outcome_eq_next.mp e)
  case setSlope => exact retuneTo_control (outcome_eq_next.mp e)
  case setTrigMode => exact retuneTo_control (outcome_eq_next.mp e)
  case setSampMode => exact retuneTo_control (outcome_eq_next.mp e)
  case toggleRun => exact execToggleRun_control e
  case armSingle => exact execArmSingle_control e
  case dumpRaw => exact execDumpRaw_control e
  case quit => cases e; exact halt_control (by decide) s
  case cmdReserved => cases e; exact .refl _

end Sys2Proof.Machine
end

section
/-! The invariant of R51: what of the state it needs, and that every event and the reset keep it (O50, O49). -/

namespace Sys2Proof

/-- The first `n` addresses hold values, and a value is written at the next one. -/
theorem Memory.addresses_write_next {α : Type} {m : Memory α} {n : Nat} (h : m.map Prod.fst = List.range n) (v : α) :
    (m.write n v).map Prod.fst = List.range (n + 1) := by
  have hw := Memory.write_wf (Memory.wf_of_addresses_range h) n v
  refine Memory.addresses_eq_range hw _ fun a => ?_
  rw [Memory.read_isSome hw, Memory.addresses_write, h, List.mem_range]
  omega

/-- A bulk read of the elements of a list. -/
theorem Memory.readN_ofList {α : Type} {l : List α} {a n : Nat} (h : a + n ≤ l.length) :
    (Memory.ofList 0 l).readN a n = some ((l.drop a).take n) := by
  refine (Memory.readN_eq_some _ _ _ _).mpr ⟨by simp; omega, fun i hi => ?_⟩
  rw [Memory.read_ofList, if_pos (Nat.zero_le _), List.getElem?_take, if_pos hi, List.getElem?_drop]
  rfl

/-- A canonical memory of which exactly the rows `0, ..., n - 1` can be read. -/
theorem Memory.addresses_of_rows {α : Type} {m : Memory α} {N n : Nat} {rows : List (List α)} (h : m.wf)
    (hr : m.readRows N 0 n = some rows) (hout : ∀ a, n * N ≤ a → m.read a = none) : m.map Prod.fst = List.range (n * N) := by
  obtain ⟨-, -, hl, hg⟩ := Memory.readRows_flatten hr
  refine Memory.addresses_eq_range h _ fun a => ⟨fun ha => ?_, fun ha => ?_⟩
  · by_contra hn
    simp [hout a (by omega)] at ha
  · have := hg a ha
    rw [Nat.zero_mul, Nat.zero_add] at this
    rw [← this, List.getElem?_eq_getElem (by omega)]
    rfl

namespace Machine

/-! ## The invariant and the parts of the state -/

/-- The invariant outlives an operation that writes control registers only, given that a frame read goes on only with `RXEN = 1`. -/
theorem State.Inv.after_control {s t : State} (h : s.Inv) (c : ControlEffect s t) (hx : s.FS = .idle ∨ t.RXEN = s.RXEN) :
    t.Inv := by
  obtain ⟨hrest, hsync, hrun, hhalt⟩ := c
  rw [hrest]
  exact
    { h with
      rxen_run := hrun h.rxen_run
      ready_trace := fun hr => h.ready_trace (hsync hr)
      reading := fun hf => (hx.resolve_left hf).trans (h.reading hf)
      kvalid := fun hh => h.kvalid (hhalt hh) }

theorem State.Inv.volt_addresses {s : State} (h : s.Inv) :
    s.VOLT.map Prod.fst = List.range (if s.RAWV then s.NCH * s.P.N else 0) := by
  rw [← h.raw_held, h.volt, List.map_map]
  rfl

theorem State.Inv.volt_isSome {s : State} (h : s.Inv) (hr : s.RAWV = true) : ∀ a < s.NCH * s.P.N, (s.VOLT.read a).isSome := by
  intro a ha
  have hv := h.volt_addresses
  rw [if_pos hr] at hv
  rw [Memory.read_isSome (Memory.wf_of_addresses_range hv), hv, List.mem_range]
  exact ha

theorem State.Inv.disp_wf {s : State} (h : s.Inv) : s.DISP.wf := Memory.wf_of_addresses_range h.disp_held

theorem State.Inv.disp_none {s : State} (h : s.Inv) (hr : s.RAWV = true) {a : Nat} (ha : s.NCH * s.P.N ≤ a) :
    s.DISP.read a = none := by
  rw [← Option.not_isSome_iff_eq_none, Memory.read_isSome h.disp_wf, h.disp_held, if_pos hr, List.mem_range]
  omega

theorem State.Inv.canResample {s : State} (h : s.Inv) (hk : s.KVALID = true) : s.CanResample :=
  ⟨h.params, h.zp_le, hk, by rw [h.kern, if_pos hk]⟩

/-- Outside `PAYLOAD` no element of `FBUF` holds a value (R37). -/
theorem State.Inv.fbuf_empty {s : State} (h : s.Inv) (hf : s.FS ≠ .payload) : s.FBUF = [] := by
  have := h.fbuf_held
  rwa [if_neg hf, List.range_zero, List.map_eq_nil_iff] at this

/-- Moving to a state of the frame synchronizer other than `PAYLOAD`, with nothing staged. -/
theorem State.Inv.outside_payload {s : State} (h : s.Inv) {fs : FsState} {m : Memory Byte} (w : Byte) (hf : fs ≠ .payload)
    (hx : fs = .idle ∨ s.RXEN = true) (hm : m = []) : State.Inv { s with FS := fs, FCW := w, FBUF := m } :=
  { h with
    fbuf_held := by simp [hm, hf]
    position := fun hp => absurd hp hf
    reading := fun hi => hx.resolve_left hi }

/-- Standing at a position inside the frame in `PAYLOAD`, with the elements before it staged. -/
theorem State.Inv.inside_payload {s : State} (h : s.Inv) {fs : FsState} {m : Memory Byte} {ci : BitVec 2} {si : Nat}
    (hf : fs = .payload) (hx : s.RXEN = true) (hm : m.map Prod.fst = List.range (ci.toNat * s.P.N + si))
    (hci : ci.toNat < (decodeCW s.FCW).channelCount) (hsi : si < s.P.N) :
    State.Inv { s with FS := fs, FBUF := m, CI := ci, SI := si } :=
  { h with
    fbuf_held := by rw [if_pos hf]; exact hm
    position := fun _ => ⟨hci, hsi⟩
    reading := fun _ => hx }

/-! ## The invariant and the trace -/

/-- A new zoom power and mode, with the trace resampled in them. -/
theorem State.Inv.with_display {s : State} (h : s.Inv) (hr : s.RAWV = true) {zp : Nat} {m : Interp} {d : Memory RealTerm}
    (hz : zp ≤ s.P.MAXZP) (hd : d.map Prod.fst = List.range (s.NCH * s.P.N))
    (hv : State.DisplaysAt { s with DISP := d } m zp) : State.Inv { s with ZP := zp, INTERP := m, DISP := d } :=
  { h with
    zp_le := hz
    disp_held := hd.trans (by rw [if_pos hr]; rfl)
    disp_value := fun _ => ⟨m, zp, hz, hv, fun _ => ⟨rfl, rfl⟩⟩ }

/-- A new zoom power and mode, with the trace left as it was because nothing is re-applied (R329). -/
theorem State.Inv.with_lagging_display {s : State} (h : s.Inv) {zp : Nat} {m : Interp} (hz : zp ≤ s.P.MAXZP)
    (hlag : s.P.REAPPLY = true → s.RAWV = false) : State.Inv { s with ZP := zp, INTERP := m } :=
  { h with
    zp_le := hz
    disp_value := fun hr => by
      obtain ⟨m', p, hp, hd, -⟩ := h.disp_value hr
      exact ⟨m', p, hp, hd, fun hre => absurd hr (by simp [hlag hre])⟩ }

/-- Re-application after a change of the zoom power or the mode (R250, R251). -/
theorem State.Inv.after_reapply {s t : State} (h : s.Inv) {zp : Nat} {m : Interp} (hz : zp ≤ s.P.MAXZP)
    (e : reapply { s with ZP := zp, INTERP := m } = .ok t) : t.Inv := by
  unfold reapply at e
  split_ifs at e with hb
  · obtain ⟨-, hr⟩ : s.P.REAPPLY = true ∧ s.RAWV = true := by simpa using hb
    obtain ⟨u, hu, ht⟩ := andThen_eq_ok.mp e
    obtain ⟨-, hk, d, rfl, hd⟩ := resampleAll_frame hu
    have hkern : s.KERN = kernelTable s.P := by rw [h.kern, if_pos hk]
    obtain ⟨d', hd', hres, hout⟩ := resampleAll_ok (s := { s with ZP := zp, INTERP := m }) ⟨h.params, hz, hk, hkern⟩ hr
      (h.volt_isSome hr)
    obtain rfl : d = d' := by simpa [hu] using hd'
    obtain ⟨rows, hrows, rfl⟩ := emitDispout_eq_ok.mp ht
    rw [State.Shows, if_pos hr] at hrows
    have haddr := Memory.addresses_of_rows (hd h.disp_wf) hrows fun a ha => (hout a ha).trans (h.disp_none hr ha)
    exact (h.with_display hr hz haddr (hres.displaysAt hkern)).after_control (emit_control _ _) (.inr rfl)
  · cases e
    exact h.with_lagging_display hz (by simpa using hb)

theorem zoomStep_le (maxzp zp : Nat) (d : StepDir) : zoomStep maxzp zp d ≤ maxzp := by
  unfold zoomStep
  omega

/-- A trace resampled on the arrival of a ready frame is displayed in the present mode at the present zoom power (R233). -/
theorem State.Displays.displaysAt {s : State} {c : AcqConfig} {v : List Byte} {d : Memory RealTerm}
    {rows : List (List RealTerm)} (h : s.Displays c v d rows) (hl : v.length = c.channelCount * s.P.N)
    (hk : s.KERN = kernelTable s.P) : (afterReady c v d rows s).DisplaysAt s.INTERP s.ZP := by
  obtain ⟨-, hrow, -⟩ := h
  intro ch hch
  obtain ⟨row, -, hd, hi⟩ := hrow ch hch
  have hb : ch * s.P.N + s.P.N ≤ (v.map RealTerm.toVolt).length := by
    rw [List.length_map, hl, ← Nat.succ_mul]
    exact Nat.mul_le_mul_right _ hch
  exact ⟨_, row, Memory.readN_ofList hb, interpolate_eq hk _ ▸ hi, hd⟩

/-- A ready frame at the wait point (R233, R235). -/
theorem State.Inv.after_frameReady {s t : State} {fr : Frame} (h : s.Inv) (hf : s.FS = .idle) (e : frameReady fr s = .ok t) :
    t.Inv := by
  obtain ⟨v, d, rows, hv, hk, hd, hrows, rfl⟩ := frameReady_frame e
  have hcan := h.canResample hk
  obtain ⟨d', rows', e', hdisp⟩ := frameReady_ok hcan h.disp_wf hv
  rw [e, Except.ok.injEq] at e'
  obtain rfl : d = d' := congrArg State.DISP e'
  have hlen := frameSamples_length hv
  have hval := hdisp.displaysAt hlen hcan.kern
  obtain ⟨-, -, hout⟩ := hdisp
  exact
    { h with
      rxen_run := by simp [afterReady, h.rxen_run]
      ready_trace := fun _ => rfl
      reading := fun hi => absurd hf hi
      raw_held := by
        simp only [afterReady, Memory.ofList_addresses, hlen, if_true, List.range_eq_range']
        rfl
      volt := Memory.ofList_map _ _ _
      disp_held := Memory.addresses_of_rows (hd h.disp_wf) hrows hout
      disp_value := fun _ => ⟨s.INTERP, s.ZP, h.zp_le, hval, fun _ => ⟨rfl, rfl⟩⟩ }

/-! ## Received bytes -/

/-- A ready frame is emitted by an EV.FRAME.READY at the wait point (R150, R231). -/
theorem frameEmit_ready {w : Byte} {s t : State} (e : frameEmit w true s = .ok t) :
    ∃ fr, frameReady fr { s with FS := .idle, FBUF := [], CFG := w } = .ok t := by
  unfold frameEmit at e
  simp only [if_true] at e
  split at e
  · cases e
  · simp only [frameEvent, if_true, encodeCW_decodeCW] at e
    exact ⟨_, e⟩

/-- The end of a frame (R150), whatever `FBUF` holds: it is emptied, and the synchronizer is idle before the sequencer's part. -/
theorem State.Inv.after_frameEmit {s t : State} {w : Byte} {ready : Bool} (h : s.Inv) (m : Memory Byte)
    (e : frameEmit w ready { s with FBUF := m } = .ok t) : t.Inv := by
  have hidle : State.Inv { s with FS := .idle, FBUF := [], CFG := w } :=
    { h.outside_payload (fs := .idle) s.FCW (by decide) (.inl rfl) rfl with }
  cases ready with
  | true =>
    obtain ⟨fr, e⟩ := frameEmit_ready e
    exact hidle.after_frameReady rfl e
  | false =>
    rcases frameEmit_eq_ok e with ⟨-, rows, rfl⟩ | ⟨hr, -⟩
    · exact hidle.after_control (afterSync_control (by decide) rows _) (.inl rfl)
    · cases hr

/-- The channel register does not wrap inside a frame: a frame has at most four channels (R94). -/
theorem nextChannel_toNat {ci : BitVec 2} {c : AcqConfig} (h : ci.toNat + 1 < c.channelCount) :
    (ci + 1).toNat = ci.toNat + 1 := by
  unfold AcqConfig.channelCount at h
  bv_omega

/-- A payload byte (R149): the staged elements are still those before the position, whichever way it moves. -/
theorem State.Inv.after_rxData {s t : State} {b : Byte} (h : s.Inv) (hf : s.FS = .payload) (hx : s.RXEN = true)
    (e : execRxData b s = .next t) : t.Inv := by
  obtain ⟨hci, hsi⟩ := h.position hf
  have hheld := h.fbuf_held
  rw [if_pos hf] at hheld
  have hm := Memory.addresses_write_next hheld b
  obtain ⟨u, hu, ht⟩ := andThen_eq_ok.mp (outcome_eq_next.mp e)
  rw [storeSample, if_pos hsi] at hu
  cases hu
  unfold advancePosition at ht
  simp only at ht
  split_ifs at ht with h1 h2
  · cases ht
    exact h.inside_payload hf hx hm hci (by omega)
  · cases ht
    have hci' := nextChannel_toNat h2
    refine h.inside_payload hf hx ?_ (by omega) (by omega)
    rw [hm, hci', Nat.succ_mul]
    congr 1
    omega
  · exact h.after_frameEmit _ ht

/-- Every received byte (R99, R152). -/
theorem State.Inv.after_received {s t : State} {b : Byte} (h : s.Inv) (hx : s.RXEN = true)
    (e : exec (decodeRx s.FS b) s = .next t) : t.Inv := by
  cases hf : s.FS <;> simp only [hf, decodeRx] at e
  case idle | hunt =>
    have hm := h.fbuf_empty (by simp [hf])
    split at e <;> cases e <;> exact h.outside_payload s.FCW (by decide) (.inr hx) hm
  case ctrl =>
    cases e
    exact h.outside_payload b (by decide) (.inr hx) (h.fbuf_empty (by simp [hf]))
  case flag =>
    split at e
    · exact h.after_frameEmit s.FBUF (outcome_eq_next.mp e)
    · split at e
      · cases e
        obtain ⟨hN, -⟩ := h.params
        exact h.inside_payload rfl hx (by simp) (Nat.succ_pos _) (Nat.zero_lt_of_lt hN)
      · exact h.after_frameEmit s.FBUF (outcome_eq_next.mp e)
  case payload => exact h.after_rxData hf hx e

/-! ## Commands, reset and the step -/

/-- Every command at the wait point (R102). -/
theorem State.Inv.after_command {s t : State} {i : Instr} (h : s.Inv) (hf : s.FS = .idle) (hi : .cmd ∈ i.contexts)
    (e : exec i s = .next t) : t.Inv := by
  rcases exec_command_cases hi e with hc | ⟨d, hr⟩ | ⟨m, hr⟩
  · exact h.after_control hc (.inl hf)
  · exact h.after_reapply (m := s.INTERP) (zoomStep_le _ _ d) hr
  · exact h.after_reapply (m := m) h.zp_le hr

/-- The state after a successful reset meets the invariant, for every valid parameter record (R50). -/
theorem inv_resetWith {P : Params} (h : P.Valid) : (State.resetWith P).Inv where
  params := h
  fbuf_held := rfl
  zp_le := Nat.zero_le _
  rxen_run := rfl
  ready_trace := nofun
  position := nofun
  reading := fun _ => rfl
  kvalid := fun _ => rfl
  kern := rfl
  raw_held := rfl
  volt := rfl
  disp_held := rfl
  disp_value := nofun

/-- A successful reset leaves `State.resetWith`, with the environment's offers and the model's own fields as they were (R310). -/
theorem execEvReset_success (s : State) : exec (.evReset true true) s =
    .next { State.resetWith s.P with env := s.env, out := s.out, ret := s.ret, free := s.free } := rfl

/-- A failed reset leaves the block halted and without kernels (R311). -/
theorem execEvReset_failure {c d : Bool} (h : (c && d) = false) (s : State) : exec (.evReset c d) s =
    .next (halt .startup { State.resetWith s.P with
      KVALID := false, KERN := [], env := s.env, out := s.out, ret := s.ret, free := s.free }) := by
  simp only [exec, execEvReset, h]
  rfl

/-- A reset needs nothing of the state before it but valid parameters (R310). -/
theorem inv_of_reset {s t : State} {c d : Bool} (h : s.P.Valid) (e : exec (.evReset c d) s = .next t) : t.Inv := by
  have hr := inv_resetWith h
  cases hcd : c && d
  · rw [execEvReset_failure hcd] at e
    cases e
    exact { hr with kvalid := nofun, kern := rfl }
  · obtain ⟨rfl, rfl⟩ : c = true ∧ d = true := by simpa using hcd
    rw [execEvReset_success] at e
    cases e
    exact { hr with }

/-- Taking an event off the environment's offer writes no register. -/
theorem consume_control (ev : Event) (n : Nat) (s : State) : ControlEffect s (consume ev { s with free := n }) := by
  cases ev <;> exact ⟨rfl, id, id, id⟩

/-- Every event that is enabled (R46). -/
theorem State.Inv.after_event {s t : State} {ev : Event} {n : Nat} (h : s.Inv) (hev : ev ∈ s.enabled)
    (e : exec (select ev s.FS) (consume ev { s with free := n }) = .next t) : t.Inv := by
  have hu : (consume ev { s with free := n }).Inv := h.after_control (consume_control ev n s) (.inr (by simp))
  cases ev with
  | rx b =>
    obtain ⟨-, -, hx, -⟩ := rx_mem_enabled.mp hev
    exact hu.after_received hx e
  | cmd w =>
    obtain ⟨-, -, hf, -⟩ := cmd_mem_enabled.mp hev
    exact hu.after_command hf (decodeCmd_context w) e
  | lerr =>
    cases e
    exact hu.after_control (halt_control (by decide) _) (.inr rfl)
  | tmo =>
    obtain ⟨-, -, hf, -⟩ := tmo_mem_enabled.mp hev
    exact hu.after_control (execEvTimeout_control e) (.inl hf)

/-- Settles O50, by cases on what the step takes: a reset, or one enabled event. -/
theorem stepKeepsTheInvariant : Obligations.StepKeepsTheInvariant := by
  intro s t h e
  rcases step_eq_next e with rfl | ⟨i, u, hf, he⟩
  · exact h
  rcases fetch_eq_run hf with ⟨c, d, -, rfl, rfl⟩ | ⟨-, -, ev, n, hev, rfl, rfl⟩
  · exact inv_of_reset (by exact h.params) he
  · exact h.after_event hev he

/-- Settles O49: a reset needs no more than valid parameters, and the defaults are. -/
theorem resetMeetsTheInvariant : Obligations.ResetMeetsTheInvariant := by
  refine ⟨inv_resetWith (by decide), fun P hP => inv_resetWith hP, rfl, fun s hs => ?_⟩
  rw [execEvReset_success, hs]
  rfl

end Machine
end Sys2Proof
end

section
/-! What a step leaves alone: the trace outside the end of a ready frame, the kernels, the parameters (O54, O55). -/

namespace Sys2Proof.Machine

/-! ## Received bytes and commands -/

/-- No received byte writes the parameters or the kernels. -/
theorem ReceiveEffect.fixed {s u t : State} {b : Byte} (h : ReceiveEffect s b u t) :
    t.P = u.P ∧ t.KERN = u.KERN ∧ t.KVALID = u.KVALID := by
  cases h <;> subst t <;> exact ⟨rfl, rfl, rfl⟩

/-- Only the last byte of a ready frame writes the trace. -/
theorem ReceiveEffect.trace {s u t : State} {b : Byte} (h : ReceiveEffect s b u t) (hend : ¬ (s.FS = .payload ∧ t.FS = .idle)) :
    t.RAW = u.RAW ∧ t.VOLT = u.VOLT ∧ t.RAWV = u.RAWV ∧ t.nchM1 = u.nchM1 ∧ t.DISP = u.DISP := by
  cases h
  case last hf _ _ _ ht => exact absurd ⟨hf, by rw [ht]; rfl⟩ hend
  all_goals
    subst t
    exact ⟨rfl, rfl, rfl, rfl, rfl⟩

/-- A byte after which the frame read goes on shows nothing and emits nothing (R291). -/
theorem ReceiveEffect.silent {s u t : State} {b : Byte} (h : ReceiveEffect s b u t) (hf : t.FS ≠ .idle) :
    t.CFG = u.CFG ∧ t.SYNC = u.SYNC ∧ t.DISP = u.DISP ∧ t.out = u.out := by
  cases h
  case notReady ht => exact absurd (by rw [ht]; rfl) hf
  case last ht => exact absurd (by rw [ht]; rfl) hf
  all_goals
    subst t
    exact ⟨rfl, rfl, rfl, rfl⟩

/-- The command words of STEP_ZOOM (R102, R103). -/
theorem decodeCmd_stepZoom (w : Byte) (h : ∃ d, decodeCmd w = .stepZoom d) : w = 0x61 ∨ w = 0x6F := by
  obtain ⟨d, h⟩ := h
  revert w
  cases d <;> decide

/-- The command words of SET_INTERP (R102). -/
theorem decodeCmd_setInterp (w : Byte) (h : ∃ m, decodeCmd w = .setInterp m) : w = 0x70 ∨ w = 0x71 := by
  obtain ⟨m, h⟩ := h
  revert w
  cases m <;> decide

/-! ## Steps -/

/-- Settles O54, by cases on what the step can do. -/
theorem traceChangesOnlyWhenAFrameEnds : Obligations.TraceChangesOnlyWhenAFrameEnds := by
  intro s t hr e
  cases step_effect hr e with
  | wait h =>
    subst h
    exact ⟨fun _ => ⟨rfl, rfl, rfl, rfl, .inl rfl⟩, fun _ => ⟨rfl, rfl, rfl, [], by simp⟩⟩
  | command w n _ hf hw c =>
    obtain ⟨-, -, -, hfs, hraw, hvolt, hrawv, hnch⟩ := c.same
    refine ⟨fun _ => ⟨hraw, hvolt, hrawv, hnch, ?_⟩, fun h => absurd (hfs.trans hf) h⟩
    rcases c.disp with hd | ⟨hre, hrv, henv, hi⟩
    · exact .inl hd
    · refine .inr ⟨hf, hre, hrv, henv, w, hw, ?_⟩
      rcases hi with hz | hm
      · have := decodeCmd_stepZoom w hz; tauto
      · have := decodeCmd_setInterp w hm; tauto
  | received b n _ _ _ c =>
    refine ⟨fun hend => ?_, fun hf => ?_⟩
    · obtain ⟨hraw, hvolt, hrawv, hnch, hd⟩ := c.trace hend
      exact ⟨hraw, hvolt, hrawv, hnch, .inl hd⟩
    · obtain ⟨hcfg, hsync, hd, hout⟩ := c.silent hf
      exact ⟨hcfg, hsync, hd, [], by simpa using hout⟩
  | linkError n _ h =>
    subst h
    exact ⟨fun _ => ⟨rfl, rfl, rfl, rfl, .inl rfl⟩, fun _ => ⟨rfl, rfl, rfl, [.exit .link], rfl, by simp⟩⟩
  | timeoutIgnored n h =>
    subst h
    exact ⟨fun _ => ⟨rfl, rfl, rfl, rfl, .inl rfl⟩, fun _ => ⟨rfl, rfl, rfl, [], by simp⟩⟩
  | timeout n rows hf _ _ _ h =>
    subst h
    exact ⟨fun _ => ⟨rfl, rfl, rfl, rfl, .inl rfl⟩, fun h => absurd hf h⟩

/-- Without a reset on offer no step writes the parameters or the kernels. -/
theorem StepEffect.fixed {s t : State} (h : StepEffect s t) : t.P = s.P ∧ t.KERN = s.KERN ∧ t.KVALID = s.KVALID := by
  cases h with
  | command w n _ _ _ c =>
    obtain ⟨hP, hkern, hkvalid, -⟩ := c.same
    exact ⟨hP, hkern, hkvalid⟩
  | received b n _ _ _ c => exact c.fixed
  | wait h | linkError n _ h | timeoutIgnored n h | timeout n rows _ _ _ _ h => subst h; exact ⟨rfl, rfl, rfl⟩

/-- A reset leaves the parameters. -/
theorem execEvReset_P {s t : State} {c d : Bool} (e : exec (.evReset c d) s = .next t) : t.P = s.P := by
  cases e
  split <;> rfl

/-- Settles O55. -/
theorem kernelsAndParametersAreFixed : Obligations.KernelsAndParametersAreFixed := by
  intro s t e
  cases hr : s.env.rst with
  | none =>
    obtain ⟨hP, hkern, hkvalid⟩ := (step_effect hr e).fixed
    exact ⟨hP, fun _ => ⟨hkern, hkvalid⟩⟩
  | some cd =>
    rw [step_of_reset hr] at e
    have hP := execEvReset_P e
    exact ⟨hP, nofun⟩

end Sys2Proof.Machine
end

section
/-! Every operation keeps the files in canonical form (O60). -/

namespace Sys2Proof.Machine

theorem State.FilesWf.after_control {s t : State} (h : s.FilesWf) (c : ControlEffect s t) : t.FilesWf := by
  rw [c.rest]
  exact h

/-- A canonical display file may be put in place of the present one. -/
theorem State.FilesWf.with_disp {s : State} (h : s.FilesWf) {d : Memory RealTerm} (hd : s.DISP.wf → d.wf) :
    State.FilesWf { s with DISP := d } := by
  obtain ⟨hfbuf, hraw, hvolt, hdisp, hkern⟩ := h
  exact ⟨hfbuf, hraw, hvolt, hd hdisp, hkern⟩

theorem State.FilesWf.with_fbuf {s : State} (h : s.FilesWf) {m : Memory Byte} (hm : m.wf) :
    State.FilesWf { s with FBUF := m } := by
  obtain ⟨-, hraw, hvolt, hdisp, hkern⟩ := h
  exact ⟨hm, hraw, hvolt, hdisp, hkern⟩

/-- A ready frame writes three files whole and canonical (R233). -/
theorem State.FilesWf.with_trace {s : State} (h : s.FilesWf) (c : AcqConfig) (v : List Byte) {d : Memory RealTerm}
    (hd : s.DISP.wf → d.wf) (rows : List (List RealTerm)) : (afterReady c v d rows s).FilesWf := by
  obtain ⟨hfbuf, -, -, hdisp, hkern⟩ := h
  exact ⟨hfbuf, Memory.ofList_wf _ _, Memory.ofList_wf _ _, hd hdisp, hkern⟩

theorem State.FilesWf.after_frameReady {s t : State} {fr : Frame} (h : s.FilesWf) (e : frameReady fr s = .ok t) : t.FilesWf := by
  obtain ⟨v, d, rows, -, -, hd, -, rfl⟩ := frameReady_frame e
  exact h.with_trace fr.config v hd rows

theorem State.FilesWf.after_frameEvent {s t : State} {fr : Frame} (h : s.FilesWf) (e : frameEvent fr s = .ok t) : t.FilesWf := by
  unfold frameEvent at e
  split at e
  · exact State.FilesWf.after_frameReady (s := { s with CFG := encodeCW fr.config }) h e
  · exact State.FilesWf.after_control (s := { s with CFG := encodeCW fr.config }) h (syncTo_control (by decide) e)

theorem State.FilesWf.after_frameEmit {s t : State} {w : Byte} {ready : Bool} (h : s.FilesWf) (e : frameEmit w ready s = .ok t) :
    t.FilesWf := by
  have hidle : State.FilesWf { s with FS := .idle, FBUF := [], CFG := w } := h.with_fbuf List.Pairwise.nil
  rcases frameEmit_eq_ok e with ⟨-, rows, rfl⟩ | ⟨-, v, d, rows, rfl, hd⟩
  · exact hidle.after_control (afterSync_control (by decide) rows _)
  · exact hidle.with_trace _ v hd rows

theorem State.FilesWf.after_rxData {s t : State} {b : Byte} (h : s.FilesWf) (e : execRxData b s = .next t) : t.FilesWf := by
  obtain ⟨u, hu, ht⟩ := andThen_eq_ok.mp (outcome_eq_next.mp e)
  unfold storeSample at hu
  split at hu <;> cases hu
  have ⟨hfbuf, _⟩ := h
  have hstored := h.with_fbuf (Memory.write_wf hfbuf (s.CI.toNat * s.P.N + s.SI) b)
  unfold advancePosition at ht
  split at ht
  · cases ht; exact hstored
  · split at ht
    · cases ht; exact hstored
    · exact hstored.after_frameEmit ht

theorem State.FilesWf.after_reapply {s t : State} (h : s.FilesWf) (e : reapply s = .ok t) : t.FilesWf := by
  rcases reapply_eq_ok e with rfl | ⟨-, -, d, rows, rfl, hd⟩
  · exact h
  · exact h.with_disp hd

/-- Every command (R102). -/
theorem State.FilesWf.after_command {s t : State} {i : Instr} (h : s.FilesWf) (hi : .cmd ∈ i.contexts) (e : exec i s = .next t) :
    t.FilesWf := by
  rcases exec_command_cases hi e with hc | ⟨d, hr⟩ | ⟨m, hr⟩
  · exact h.after_control hc
  · exact State.FilesWf.after_reapply (s := { s with ZP := zoomStep s.P.MAXZP s.ZP d }) h hr
  · exact State.FilesWf.after_reapply (s := { s with INTERP := m }) h hr

theorem State.FilesWf.after_ilinChannel {s t : State} {c z : Nat} (h : s.FilesWf) (e : ilinChannel c z s = .ok t) : t.FilesWf := by
  unfold ilinChannel at e
  split at e
  · cases e
  · split at e <;> cases e
    exact h.with_disp fun hd => Memory.writeN_wf hd _ _

theorem State.FilesWf.after_isincChannel {s t : State} {c p : Nat} (h : s.FilesWf) (e : isincChannel c p s = .ok t) :
    t.FilesWf := by
  unfold isincChannel at e
  split at e
  · split at e
    · cases e
    · split at e <;> cases e
      exact h.with_disp fun hd => Memory.writeN_wf hd _ _
  · cases e

theorem State.FilesWf.with_kernels {s : State} (h : s.FilesWf) : (buildKernels s).FilesWf := by
  obtain ⟨hfbuf, hraw, hvolt, hdisp, -⟩ := h
  exact ⟨hfbuf, hraw, hvolt, hdisp, Memory.tabulate_wf _ _ _⟩

/-- A reset empties every file. -/
theorem filesWf_resetRegisters (s : State) : (resetRegisters s).FilesWf := by simp [State.FilesWf, Memory.wf]

theorem filesWf_of_reset {s t : State} {c d : Bool} (e : execEvReset c d s = .next t) : t.FilesWf := by
  cases e
  split
  · exact (filesWf_resetRegisters s).with_kernels
  · exact (filesWf_resetRegisters s).after_control (halt_control (by decide) _)

/-- Settles O60, one case for each kind of operation. -/
theorem execKeepsFilesCanonical : Obligations.ExecKeepsFilesCanonical := by
  intro i s t h e
  cases i
  case decode | encode | toVolt | sinc | rxSkip | rxSync | rxCtrl => cases e; exact h
  case rxFlag1 => cases e; exact h.with_fbuf List.Pairwise.nil
  case rxFlag0 | rxFlagX | frameEmit => exact h.after_frameEmit (outcome_eq_next.mp e)
  case rxData => exact h.after_rxData e
  case evFrame => exact h.after_frameEvent (outcome_eq_next.mp e)
  case evFrameReady => exact h.after_frameReady (outcome_eq_next.mp e)
  case evFrameNotReady => exact h.after_control (syncTo_control (by decide) (outcome_eq_next.mp e))
  case retune => exact h.after_control (retuneTo_control (outcome_eq_next.mp e))
  case unfreeze => cases e; exact h.after_control (thaw_control s)
  case singleDone => cases e; exact h.after_control (endSweep_control s)
  case evTimeout => exact h.after_control (execEvTimeout_control e)
  case evLinkErr => cases e; exact h.after_control (halt_control (by decide) s)
  case kbuild => cases e; exact h.with_kernels
  case ilin => exact h.after_ilinChannel (outcome_eq_next.mp e)
  case isinc => exact h.after_isincChannel (outcome_eq_next.mp e)
  case resample =>
    obtain ⟨-, -, d, rfl, hd⟩ := resampleAll_frame (outcome_eq_next.mp e)
    exact h.with_disp hd
  case evReset => exact filesWf_of_reset e
  -- what is left are the commands
  all_goals exact h.after_command (by simp [Instr.contexts]) e

end Sys2Proof.Machine
end

section
/-! A whole ready frame, read one byte a step (O59): the steps of a block that hears its receiver only, the bytes before a
payload, the payload position by position, and the frame at its end. -/

namespace Sys2Proof

/-- A write at the address after a list's elements appends to the list. -/
theorem Memory.write_ofList_next {α : Type} (l : List α) (start : Nat) (v : α) :
    (Memory.ofList start l).write (start + l.length) v = Memory.ofList start (l ++ [v]) := by
  induction l generalizing start with
  | nil => rfl
  | cons x l ih =>
    have hl : start + (x :: l).length = start + 1 + l.length := by rw [List.length_cons]; omega
    rw [hl, List.cons_append, Memory.ofList, Memory.ofList, Memory.write, if_neg (by omega), if_neg (by omega), ih]

/-- The rows of a list of `n * N` elements are, one after the other, the list. -/
theorem Memory.readRows_ofList {α : Type} {l : List α} {N n : Nat} (h : l.length = n * N) :
    ∃ rows, (Memory.ofList 0 l).readRows N 0 n = some rows ∧ rows.length = n ∧ (∀ r ∈ rows, r.length = N) ∧
      rows.flatten = l := by
  have hread (a : Nat) : (Memory.ofList 0 l).read a = l[a]? := by simp [Memory.read_ofList]
  obtain ⟨rows, hrows⟩ := Option.isSome_iff_exists.mp
    (Memory.readRows_isSome_of_read (m := Memory.ofList 0 l) (N := N) (n := n) fun a ha => by simp [hread, h, ha])
  obtain ⟨hn, hN, hlen, hget⟩ := Memory.readRows_flatten hrows
  refine ⟨rows, hrows, hn, hN, List.ext_getElem? fun j => ?_⟩
  by_cases hj : j < n * N
  · rw [hget j hj, Nat.zero_mul, Nat.zero_add, hread]
  · rw [List.getElem?_eq_none (by omega), List.getElem?_eq_none (by omega)]

namespace Machine

/-! ## Runs -/

/-- A run whose first step answers a next state goes on from there. -/
theorem run_succ {s t : State} (h : step s = .next t) (k : Nat) :
    Host.Core.run Sys2Proof.core (k + 1) s = Host.Core.run Sys2Proof.core k t := by
  have hcore : Sys2Proof.core.step s = .next t := h
  simp only [Host.Core.run, hcore]

/-! ## A block that hears its receiver only -/

/-- The block is running, and of a received byte, a command, a link error and a reset only the byte can be on offer. -/
structure State.HearsRxOnly (s : State) : Prop where
  halt : s.HALT = .none
  kvalid : s.KVALID = true
  rxen : s.RXEN = true
  rst : s.env.rst = none
  lerr : s.env.lerr = false
  cmd : s.env.cmd = []

/-- With a byte in the backlog, that byte is all that is enabled: a timeout waits for the backlog to empty (R290). -/
theorem State.HearsRxOnly.enabled {s : State} {b : Byte} {l : List Byte} (h : s.HearsRxOnly) (hb : s.env.rx = b :: l) :
    s.enabled = [.rx b] := by
  obtain ⟨hhalt, hk, hx, -, hlerr, hcmd⟩ := h
  have hawake : s.awake = true := (awake_iff s).mpr ⟨hhalt, hk⟩
  simp [State.enabled, State.rxOffer, State.cmdOffer, State.lerrOffer, State.tmoOffer, hawake, hx, hb, hlerr, hcmd]

/-- Each step takes the oldest byte of the backlog (R97, R99). -/
theorem State.HearsRxOnly.step {s : State} {b : Byte} {l : List Byte} (h : s.HearsRxOnly) (hb : s.env.rx = b :: l) :
    step s = exec (decodeRx s.FS b) { s with env := { s.env with rx := l } } := by
  rw [step_of_single h.rst h.halt (h.enabled hb)]
  simp only [select, decodeAt, consume, hb, List.tail_cons]

/-- `s` with its synchronizer in `fs` and the backlog `l`. -/
def awaiting (fs : FsState) (l : List Byte) (s : State) : State := { s with FS := fs, env := { s.env with rx := l } }

/-- `s` inside the payload of a frame of control word `w`, at position `(ci, si)`, with the bytes `got` staged (R37) and the
backlog `l`. -/
def inPayload (w : Byte) (ci : BitVec 2) (si : Nat) (got l : List Byte) (s : State) : State :=
  { s with FS := .payload, FCW := w, CI := ci, SI := si, FBUF := Memory.ofList 0 got, env := { s.env with rx := l } }

theorem awaiting_self {s : State} {l : List Byte} (h : s.env.rx = l) : awaiting s.FS l s = s := by
  subst h
  rfl

theorem State.HearsRxOnly.awaiting {s : State} (h : s.HearsRxOnly) (fs : FsState) (l : List Byte) :
    (awaiting fs l s).HearsRxOnly := { h with }

theorem State.HearsRxOnly.inPayload {s : State} (h : s.HearsRxOnly) (w : Byte) (ci : BitVec 2) (si : Nat) (got l : List Byte) :
    (inPayload w ci si got l s).HearsRxOnly := { h with }

/-! ## Up to the payload -/

/-- Bytes that are not zero are skipped, and the block still waits for a sync byte (R142). -/
theorem run_skip {s : State} (h : s.HearsRxOnly) {fs : FsState} (hf : fs = .idle ∨ fs = .hunt) {skip : List Byte}
    (h0 : ∀ b ∈ skip, b ≠ 0) (l : List Byte) (k : Nat) :
    ∃ fs', (fs' = .idle ∨ fs' = .hunt) ∧
      Host.Core.run Sys2Proof.core (skip.length + k) (awaiting fs (skip ++ l) s) =
        Host.Core.run Sys2Proof.core k (awaiting fs' l s) := by
  induction skip generalizing fs with
  | nil => exact ⟨fs, hf, by rw [List.length_nil, Nat.zero_add, List.nil_append]⟩
  | cons b skip ih =>
    obtain ⟨hb, h0⟩ := List.forall_mem_cons.mp h0
    obtain ⟨fs', hf', e⟩ := ih (.inr rfl) h0
    have hskip : step (awaiting fs (b :: (skip ++ l)) s) = .next (awaiting .hunt (skip ++ l) s) := by
      rw [(h.awaiting fs _).step rfl]
      rcases hf with rfl | rfl <;> simp only [awaiting, decodeRx, if_neg hb] <;> rfl
    refine ⟨fs', hf', ?_⟩
    rw [List.length_cons, Nat.add_right_comm, List.cons_append, run_succ hskip, e]

/-- The sync byte, the control word and the flag 1 lead to the first position of the payload (R143, R145, R147). -/
theorem run_header {s : State} (h : s.HearsRxOnly) {fs : FsState} (hf : fs = .idle ∨ fs = .hunt) (w : Byte) (l : List Byte)
    (k : Nat) : Host.Core.run Sys2Proof.core (k + 3) (awaiting fs (0x00 :: w :: 0x01 :: l) s) =
      Host.Core.run Sys2Proof.core k (inPayload w 0 0 [] l s) := by
  have hsync : step (awaiting fs (0x00 :: w :: 0x01 :: l) s) = .next (awaiting .ctrl (w :: 0x01 :: l) s) := by
    rw [(h.awaiting fs _).step rfl]
    rcases hf with rfl | rfl <;> rfl
  have hctrl : step (awaiting .ctrl (w :: 0x01 :: l) s) = .next (awaiting .flag (0x01 :: l) { s with FCW := w }) := by
    rw [(h.awaiting .ctrl _).step rfl]
    rfl
  have hw : State.HearsRxOnly { s with FCW := w } := { h with }
  have hflag : step (awaiting .flag (0x01 :: l) { s with FCW := w }) = .next (inPayload w 0 0 [] l s) := by
    rw [(hw.awaiting .flag _).step rfl]
    rfl
  rw [run_succ hsync, run_succ hctrl, run_succ hflag]

/-! ## The payload and the end of the frame -/

theorem advancePosition_nextSample {s : State} (h : s.SI < s.P.N - 1) : advancePosition s = .ok { s with SI := s.SI + 1 } :=
  if_pos h

theorem advancePosition_nextChannel {s : State} (h : ¬ s.SI < s.P.N - 1) (hc : s.CI.toNat + 1 < (decodeCW s.FCW).channelCount) :
    advancePosition s = .ok { s with CI := s.CI + 1, SI := 0 } :=
  (if_neg h).trans (if_pos hc)

theorem advancePosition_frameEnd {s : State} (h : ¬ s.SI < s.P.N - 1) (hc : ¬ s.CI.toNat + 1 < (decodeCW s.FCW).channelCount) :
    advancePosition s = frameEmit s.FCW true s :=
  (if_neg h).trans (if_neg hc)

/-- A payload byte is staged after those before it, and the position moves on (R149). -/
theorem step_inPayload {s : State} (h : s.HearsRxOnly) {w b : Byte} {ci : BitVec 2} {si : Nat} {got : List Byte} (l : List Byte)
    (hpos : got.length = ci.toNat * s.P.N + si) (hsi : si < s.P.N) :
    step (inPayload w ci si got (b :: l) s) = Answer.outcome (advancePosition (inPayload w ci si (got ++ [b]) l s)) := by
  have hwrite := Memory.write_ofList_next got 0 b
  rw [Nat.zero_add, hpos] at hwrite
  rw [(h.inPayload w ci si got _).step rfl]
  simp only [inPayload, decodeRx, exec, execRxData, storeSample, if_pos hsi, hwrite, andThen_ok]

/-- A frame with its whole payload staged is emitted, and is a ready frame of those bytes (R150, R231, R233). -/
theorem frameEmit_inPayload {s : State} (hcan : s.CanResample) (hd : s.DISP.wf) {w : Byte} (ci : BitVec 2) (si : Nat)
    {payload : List Byte} (l : List Byte) (hlen : payload.length = (decodeCW w).channelCount * s.P.N) :
    ∃ d rows, frameEmit w true (inPayload w ci si payload l s) =
      .ok (afterReady (decodeCW w) payload d rows { inPayload w ci si [] l s with FS := .idle, CFG := w }) := by
  obtain ⟨trace, htrace, hn, hN, hflat⟩ := Memory.readRows_ofList hlen
  have hsamples : frameSamples s.P.N ⟨decodeCW w, true, some trace⟩ = some payload := by
    simpa [frameSamples, hn, hflat] using hN
  obtain ⟨d, rows, e, -⟩ :=
    frameReady_ok (s := { inPayload w ci si [] l s with FS := .idle, CFG := w }) { hcan with } hd hsamples
  refine ⟨d, rows, ?_⟩
  rw [← e]
  simp only [frameEmit, inPayload, htrace, frameEvent, encodeCW_decodeCW, if_true, Memory.ofList]

/-- From any position of the payload, the bytes still to come are read one a step, and the last one ends the frame (R149, R150). -/
theorem run_payload {s : State} (h : s.HearsRxOnly) (hcan : s.CanResample) (hd : s.DISP.wf) {w : Byte} {ci : BitVec 2} {si : Nat}
    {got todo : List Byte} (l : List Byte) (hpos : got.length = ci.toNat * s.P.N + si) (hsi : si < s.P.N)
    (hci : ci.toNat < (decodeCW w).channelCount) (hlen : (got ++ todo).length = (decodeCW w).channelCount * s.P.N) :
    ∃ ci' si' d rows, Host.Core.run Sys2Proof.core todo.length (inPayload w ci si got (todo ++ l) s) =
      .next (afterReady (decodeCW w) (got ++ todo) d rows { inPayload w ci' si' [] l s with FS := .idle, CFG := w }) := by
  have hrow : (ci.toNat + 1) * s.P.N ≤ (decodeCW w).channelCount * s.P.N := Nat.mul_le_mul_right _ hci
  rw [Nat.succ_mul] at hrow
  induction todo generalizing ci si got with
  | nil =>
    rw [List.append_nil] at hlen
    omega
  | cons b todo ih =>
    have hstep := step_inPayload h (w := w) (b := b) (todo ++ l) hpos hsi
    have hgot : (got ++ [b]).length = ci.toNat * s.P.N + si + 1 := by simp [hpos]
    have happ : got ++ b :: todo = (got ++ [b]) ++ todo := by simp
    rw [happ] at hlen ⊢
    rw [List.length_cons, List.cons_append]
    by_cases hsample : si < s.P.N - 1
    · rw [advancePosition_nextSample hsample] at hstep
      rw [run_succ hstep]
      exact ih (ci := ci) (si := si + 1) hgot (by omega) hci hlen hrow
    by_cases hchannel : ci.toNat + 1 < (decodeCW w).channelCount
    · have hci' := nextChannel_toNat hchannel
      rw [advancePosition_nextChannel hsample hchannel] at hstep
      rw [run_succ hstep]
      refine ih (ci := ci + 1) (si := 0) ?_ (by omega) (by omega) hlen ?_
      · rw [hgot, hci', Nat.succ_mul]
        omega
      · rw [hci', ← Nat.succ_mul]
        exact Nat.mul_le_mul_right _ hchannel
    · have hcount : (decodeCW w).channelCount = ci.toNat + 1 := by omega
      obtain rfl : todo = [] := by
        rw [List.length_append, hgot, hcount, Nat.succ_mul] at hlen
        exact List.length_eq_zero_iff.mp (by omega)
      rw [List.append_nil] at hlen ⊢
      obtain ⟨d, rows, hemit⟩ := frameEmit_inPayload hcan hd ci si ([] ++ l) hlen
      rw [advancePosition_frameEnd hsample hchannel] at hstep
      exact ⟨ci, si, d, rows, run_succ (hstep.trans (congrArg Answer.outcome hemit)) 0⟩

/-- Settles O59: the skipped bytes, the three bytes of the header, then the payload from its first position. -/
theorem wholeReadyFrameIsRead : Obligations.WholeReadyFrameIsRead := by
  intro s skip payload rest w hinv hhalt hrun hfs hrst hlerr hcmd hskip hlen hrx
  have hk := hinv.kvalid hhalt
  have hears : s.HearsRxOnly := ⟨hhalt, hk, hinv.rxen_run.trans hrun, hrst, hlerr, hcmd⟩
  obtain ⟨hN, -⟩ := hinv.params
  obtain ⟨fs, hf, eskip⟩ := run_skip hears (.inl hfs) hskip (0x00 :: w :: 0x01 :: (payload ++ rest)) (payload.length + 3)
  obtain ⟨ci, si, d, rows, epayload⟩ := run_payload hears (hinv.canResample hk) hinv.disp_wf (ci := 0) (si := 0) (got := [])
    rest (by simp) (by omega) (Nat.succ_pos _) hlen
  rw [awaiting_self (by simpa using hrx), run_header hears hf, epayload, ← Nat.add_assoc, Nat.add_right_comm] at eskip
  refine ⟨_, eskip, rfl, rfl, rfl, rfl, rfl, rfl, ?_, fun a => ?_⟩
  · exact congrArg (· && !s.SSA) hrun
  · exact (Memory.read_ofList 0 payload a).trans (if_pos (Nat.zero_le a))

end Machine
end Sys2Proof
end

section
/-! The two directions of the encoding, and the decoder as R106's table (R99-R106). -/

namespace Sys2Proof

/-! ## Received bytes (R99) -/

/-- The bytes of RX.FLAGX, 0x02..0xFF, are neither flag value (R148). -/
theorem decodeRx_flagX {b : Byte} (h : 2 ≤ b.toNat) : decodeRx .flag b = .rxFlagX b := by
  have h0 : b ≠ 0 := by rintro rfl; simp at h
  have h1 : b ≠ 1 := by rintro rfl; simp at h
  simp only [decodeRx, if_neg h0, if_neg h1]

theorem two_le_toNat_of_ne {b : Byte} (h0 : b ≠ 0) (h1 : b ≠ 1) : 2 ≤ b.toNat := by bv_omega

/-- Settles O7: one row of R99's table after the other. -/
theorem receivedByteSelectsByPosition : Obligations.ReceivedByteSelectsByPosition := by
  intro b
  refine ⟨?_, rfl, ?_, ?_, decodeRx_flagX, rfl⟩
  · rintro fs (rfl | rfl) <;> rfl
  · rintro rfl; rfl
  · rintro rfl; rfl

/-- An operation of the `RX` port is decoded from its byte wherever a byte selects it (R99). -/
theorem decodeRx_encode {i : Instr} {fs : FsState} (hw : i.wf = true) (hx : .rx fs ∈ i.contexts) :
    ∃ b, encode i = some b ∧ decodeRx fs b = i := by
  cases i <;> simp only [Instr.contexts, List.mem_cons, List.not_mem_nil, or_false, reduceCtorEq, or_self, Ctx.rx.injEq] at hx
  case rxSkip b =>
    have hb : b ≠ 0 := by simpa [Instr.wf] using hw
    rcases hx with rfl | rfl <;> exact ⟨b, rfl, if_neg hb⟩
  case rxSync => rcases hx with rfl | rfl <;> exact ⟨0, rfl, rfl⟩
  case rxCtrl b => subst hx; exact ⟨b, rfl, rfl⟩
  case rxFlag0 => subst hx; exact ⟨0, rfl, rfl⟩
  case rxFlag1 => subst hx; exact ⟨1, rfl, rfl⟩
  case rxFlagX b => subst hx; exact ⟨b, rfl, decodeRx_flagX (by simpa [Instr.wf] using hw)⟩
  case rxData b => subst hx; exact ⟨b, rfl, rfl⟩

/-- Every received byte selects a well-formed operation of that position, whose byte it is (R99). -/
theorem encode_decodeRx (fs : FsState) (b : Byte) :
    encode (decodeRx fs b) = some b ∧ (decodeRx fs b).wf = true ∧ .rx fs ∈ (decodeRx fs b).contexts := by
  cases fs with
  | idle | hunt =>
    simp only [decodeRx]
    split_ifs with h
    · subst h; decide
    · exact ⟨rfl, by simpa [Instr.wf] using h, by simp [Instr.contexts]⟩
  | ctrl | payload => exact ⟨rfl, rfl, List.mem_singleton_self _⟩
  | flag =>
    simp only [decodeRx]
    split_ifs with h0 h1
    · subst h0; decide
    · subst h1; decide
    · exact ⟨rfl, by simpa [Instr.wf] using two_le_toNat_of_ne h0 h1, List.mem_singleton_self _⟩

/-- The rows of `RX`, tried in file order (R106), are those of R99. -/
theorem firstRow_rx_mnemonic (fs : FsState) (b : Byte) :
    (firstRow (.rx fs) b).map OpcodeRow.mnemonic = some (decodeRx fs b).mnemonic := by
  cases fs with
  | idle | hunt =>
    simp only [decodeRx]
    split_ifs with h
    · subst h; decide
    · have h : b ≠ 0#8 := h
      simp [firstRow, opcodeRows, OpcodeRow.takes, Instr.mnemonic, h]
  | ctrl | payload => simp [firstRow, opcodeRows, OpcodeRow.takes, Instr.mnemonic, decodeRx]
  | flag =>
    simp only [decodeRx]
    split_ifs with h0 h1
    · subst h0; decide
    · subst h1; decide
    · have hmask : b &&& 255#8 = b := BitVec.and_allOnes
      have hflags : b ≠ 0#8 ∧ b ≠ 1#8 := ⟨h0, h1⟩
      simp [firstRow, opcodeRows, OpcodeRow.takes, Instr.mnemonic, hmask, hflags, two_le_toNat_of_ne h0 h1]

/-! ## Command words (R101-R104) -/

theorem decodeCmd_setChannels :
    ∀ n : BitVec 4, (Instr.setChannels n).wf = true → decodeCmd (commandWord 0x1 n) = .setChannels n := by decide

/-- The words that decode to CMD.RESERVED are the reserved ones (R104). -/
theorem decodeCmd_eq_cmdReserved_iff : ∀ w : Byte, decodeCmd w = .cmdReserved w ↔ reservedCommand w = true := by decide

/-- A command is decoded from its word (R102, R103). -/
theorem decodeCmd_encode {i : Instr} (hw : i.wf = true) (hx : .cmd ∈ i.contexts) :
    ∃ b, encode i = some b ∧ decodeCmd b = i := by
  cases i <;> simp only [Instr.contexts, List.mem_cons, List.not_mem_nil, or_false, reduceCtorEq, or_self] at hx
  case setChannels n => exact ⟨_, rfl, decodeCmd_setChannels n hw⟩
  case setSlope e => exact ⟨_, rfl, by cases e <;> rfl⟩
  case setTrigMode m => exact ⟨_, rfl, by cases m <;> rfl⟩
  case setSampMode m => exact ⟨_, rfl, by cases m <;> rfl⟩
  case stepPrescale d => exact ⟨_, rfl, by cases d <;> rfl⟩
  case stepZoom d => exact ⟨_, rfl, by cases d <;> rfl⟩
  case setInterp m => exact ⟨_, rfl, by cases m <;> rfl⟩
  case toggleRun | armSingle | dumpRaw | quit => exact ⟨_, rfl, rfl⟩
  case cmdReserved w => exact ⟨w, rfl, (decodeCmd_eq_cmdReserved_iff w).mpr hw⟩

theorem encode_decodeCmd : ∀ w : Byte, encode (decodeCmd w) = some w := by decide

theorem decodeCmd_wf : ∀ w : Byte, (decodeCmd w).wf = true := by decide

/-- The rows of `CMD`, tried on each word (R106), are those of R102 and R104. -/
theorem firstRow_cmd_mnemonic : ∀ w : Byte, (firstRow .cmd w).map OpcodeRow.mnemonic = some (decodeCmd w).mnemonic := by decide

/-! ## Every context -/

/-- Settles O1, in the context of each port. -/
theorem decodeOfEncodeIsTheInstruction : Obligations.DecodeOfEncodeIsTheInstruction := by
  intro i hw x hx
  cases x with
  | rx fs => exact decodeRx_encode hw hx
  | cmd => exact decodeCmd_encode hw hx

/-- Settles O2, in the context of each port. -/
theorem encodeOfDecodeIsTheByte : Obligations.EncodeOfDecodeIsTheByte := by
  intro x b
  cases x with
  | rx fs => exact encode_decodeRx fs b
  | cmd => exact ⟨encode_decodeCmd b, decodeCmd_wf b, decodeCmd_context b⟩

/-- Settles O3, in the context of each port. -/
theorem firstTableRowIsTheDecodedOne : Obligations.FirstTableRowIsTheDecodedOne := by
  intro x b
  cases x with
  | rx fs => exact firstRow_rx_mnemonic fs b
  | cmd => exact firstRow_cmd_mnemonic b

/-- Settles O6: nine closed words. -/
theorem decodedWordsOfTheSpec : Obligations.DecodedWordsOfTheSpec :=
  ⟨rfl, rfl, rfl, rfl, rfl, rfl, rfl, rfl, rfl⟩

end Sys2Proof
end

section
/-! Reserved words have no effect (R104, R258), and what a step sends on `TX` (R107, R240, R241). -/

namespace Sys2Proof.Machine

/-- R104's words by their `OP` and `ARG`. -/
theorem reservedCommand_iff (w : Byte) :
    reservedCommand w = true ↔
      (w.toNat / 16 ∈ [0x0, 0xB, 0xC, 0xD, 0xE] ∨
       (w.toNat / 16 = 0x1 ∧ ¬ (1 ≤ w.toNat % 16 ∧ w.toNat % 16 ≤ 4)) ∨
       (w.toNat / 16 ∈ [0x2, 0x3, 0x4, 0x7] ∧ 2 ≤ w.toNat % 16) ∨
       (w.toNat / 16 ∈ [0x5, 0x6] ∧ w.toNat % 16 ≠ 0x1 ∧ w.toNat % 16 ≠ 0xF) ∨
       (w.toNat / 16 ∈ [0x8, 0x9, 0xA, 0xF] ∧ w.toNat % 16 ≠ 0)) := by
  have hw := w.isLt
  simp only [reservedCommand, Bool.or_eq_true, decide_eq_true_eq]
  split_ifs <;> simp <;> omega

/-- Settles O8. -/
theorem reservedWordsDoNothing : Obligations.ReservedWordsDoNothing := by
  intro w s
  refine ⟨(decodeCmd_eq_cmdReserved_iff w).trans (reservedCommand_iff w), rfl, fun hr hh he hw => ?_⟩
  rw [step_of_single hr hh he]
  exact congrArg (exec · (consume (.cmd w) s)) hw

/-- From `s` to `t` outputs are only added, and a byte added on `TX` is the configuration of `t`, `VALID` for the parameters of `s`,
with `t` desynchronized (R107, R240, R241). -/
def SendsValidOnly (s t : State) : Prop :=
  ∃ new, t.out = s.out ++ new ∧ ∀ b, .tx b ∈ new → t.CFG = b ∧ t.SYNC = .unsync ∧ validConfig s.P (decodeCW b) = true

/-- Outputs of the other ports. -/
theorem SendsValidOnly.of_no_tx {s t : State} {new : List Out} (h : t.out = s.out ++ new) (hnew : ∀ b, .tx b ∉ new) :
    SendsValidOnly s t :=
  ⟨new, h, fun b hb => absurd hb (hnew b)⟩

theorem SendsValidOnly.of_out_eq {s t : State} (h : t.out = s.out) : SendsValidOnly s t :=
  .of_no_tx (new := []) (by simpa using h) (by simp)

/-- A change of `SYNC` shows a snapshot at most (R236). -/
theorem afterSync_sends {s u : State} (new : SyncState) (rows : List (List RealTerm)) (h : u.out = s.out) :
    SendsValidOnly s (afterSync new rows u) := by
  refine .of_no_tx (congrArg (· ++ _) h) fun b => ?_
  split_ifs <;> simp

/-- A received byte sends nothing on `TX`. -/
theorem ReceiveEffect.sends {s u t : State} {b : Byte} (h : ReceiveEffect s b u t) : SendsValidOnly u t := by
  cases h with
  | skip _ _ h | sync _ _ h | ctrl _ h | flag1 _ _ h | data _ _ _ _ h _ => subst h; exact .of_out_eq rfl
  | notReady rows _ _ h => subst h; exact afterSync_sends _ rows rfl
  | last v d rows _ _ _ _ h => subst h; exact .of_no_tx rfl (by simp)

/-- Without a reset on offer only a command sends on `TX`. -/
theorem StepEffect.sends {s t : State} (h : StepEffect s t) : SendsValidOnly s t := by
  cases h with
  | wait h | timeoutIgnored n h => subst h; exact .of_out_eq rfl
  | command w n _ _ _ c => exact c.out
  | received b n _ _ _ c => exact c.sends
  | linkError n _ h => subst h; exact .of_no_tx rfl (by simp)
  | timeout n rows _ _ _ _ h => subst h; exact afterSync_sends _ rows rfl

/-- A reset emits at most the exit of a failed start (R311). -/
theorem execEvReset_sends {s t : State} {c d : Bool} (e : exec (.evReset c d) s = .next t) : SendsValidOnly s t := by
  cases e
  split
  · exact .of_out_eq rfl
  · exact .of_no_tx (new := [.exit .startup]) rfl (by simp)

/-- Settles O57, by cases on whether the step takes a reset. -/
theorem transmittedWordsAreValid : Obligations.TransmittedWordsAreValid := by
  intro s t e
  cases hr : s.env.rst with
  | none => exact (step_effect hr e).sends
  | some cd =>
    rw [step_of_reset hr] at e
    have h := execEvReset_sends e
    exact h

end Sys2Proof.Machine
end

section
/-! The control word's bits: ENCODE and DECODE as functions of the byte (R121, R123-R125). -/

namespace Sys2Proof

/-! ## Round trip (R123) -/

/-- Settles O4: the two directions of the codec, each by exhaustion over its 256 values. -/
theorem codecIsABijection : Obligations.CodecIsABijection :=
  ⟨encodeCW_decodeCW, decodeCW_encodeCW⟩

/-- Configurations that differ in a field have different bytes. -/
theorem encodeCW_ne_of_field_ne {α : Type} (field : AcqConfig → α) {c d : AcqConfig} (h : field d ≠ field c) :
    encodeCW d ≠ encodeCW c :=
  (Function.LeftInverse.injective decodeCW_encodeCW).ne fun e => h (congrArg field e)

/-! ## Masks (R125) -/

/-- The byte with the given bits in the places of `SM`, `TM`, `CC`, `SL` and `PS` (R92). -/
def fieldBits (sm tm : BitVec 1) (cc : BitVec 2) (sl : BitVec 1) (ps : BitVec 3) : Byte :=
  (sm ++ tm ++ cc ++ sl ++ ps : BitVec 8)

theorem encodeCW_eq_fieldBits (c : AcqConfig) :
    encodeCW c =
      fieldBits c.samplingMode.bit c.triggerMode.bit c.channelCountMinus1 c.triggerSlope.bit c.prescale := rfl

/-- OR goes field by field. -/
theorem fieldBits_or (sm tm sm' tm' : BitVec 1) (cc cc' : BitVec 2) (sl sl' : BitVec 1) (ps ps' : BitVec 3) :
    fieldBits sm tm cc sl ps ||| fieldBits sm' tm' cc' sl' ps' =
      fieldBits (sm ||| sm') (tm ||| tm') (cc ||| cc') (sl ||| sl') (ps ||| ps') := by
  unfold fieldBits
  rw [← BitVec.or_append, ← BitVec.or_append, ← BitVec.or_append, ← BitVec.or_append]

/-- AND goes field by field. -/
theorem fieldBits_and (sm tm sm' tm' : BitVec 1) (cc cc' : BitVec 2) (sl sl' : BitVec 1) (ps ps' : BitVec 3) :
    fieldBits sm tm cc sl ps &&& fieldBits sm' tm' cc' sl' ps' =
      fieldBits (sm &&& sm') (tm &&& tm') (cc &&& cc') (sl &&& sl') (ps &&& ps') := by
  unfold fieldBits
  rw [← BitVec.and_append, ← BitVec.and_append, ← BitVec.and_append, ← BitVec.and_append]

/-- Complement goes field by field. -/
theorem fieldBits_not (sm tm : BitVec 1) (cc : BitVec 2) (sl : BitVec 1) (ps : BitVec 3) :
    ~~~fieldBits sm tm cc sl ps = fieldBits (~~~sm) (~~~tm) (~~~cc) (~~~sl) (~~~ps) := by
  unfold fieldBits
  rw [← BitVec.not_append, ← BitVec.not_append, ← BitVec.not_append, ← BitVec.not_append]

/-! The masks of R125: ones in one field, zeros in the others. -/

theorem samplingMode_mask : (0x80 : Byte) = fieldBits (.allOnes 1) 0#1 0#2 0#1 0#3 := rfl
theorem triggerMode_mask : (0x40 : Byte) = fieldBits 0#1 (.allOnes 1) 0#2 0#1 0#3 := rfl
theorem channelCount_mask : (0x30 : Byte) = fieldBits 0#1 0#1 (.allOnes 2) 0#1 0#3 := rfl
theorem triggerSlope_mask : (0x08 : Byte) = fieldBits 0#1 0#1 0#2 (.allOnes 1) 0#3 := rfl
theorem prescale_mask : (0x07 : Byte) = fieldBits 0#1 0#1 0#2 0#1 (.allOnes 3) := rfl

theorem encodeCW_or_fieldBits (c : AcqConfig) (sm tm : BitVec 1) (cc : BitVec 2) (sl : BitVec 1) (ps : BitVec 3) :
    encodeCW c ||| fieldBits sm tm cc sl ps =
      fieldBits (c.samplingMode.bit ||| sm) (c.triggerMode.bit ||| tm) (c.channelCountMinus1 ||| cc)
        (c.triggerSlope.bit ||| sl) (c.prescale ||| ps) := by
  rw [encodeCW_eq_fieldBits, fieldBits_or]

theorem encodeCW_and_not_fieldBits (c : AcqConfig) (sm tm : BitVec 1) (cc : BitVec 2) (sl : BitVec 1) (ps : BitVec 3) :
    encodeCW c &&& ~~~fieldBits sm tm cc sl ps =
      fieldBits (c.samplingMode.bit &&& ~~~sm) (c.triggerMode.bit &&& ~~~tm) (c.channelCountMinus1 &&& ~~~cc)
        (c.triggerSlope.bit &&& ~~~sl) (c.prescale &&& ~~~ps) := by
  rw [encodeCW_eq_fieldBits, fieldBits_not, fieldBits_and]

/-- Settles O5: OR with a mask and AND with its complement go field by field, and DECODE tells different fields apart. -/
theorem fieldChangeTouchesItsMaskOnly : Obligations.FieldChangeTouchesItsMaskOnly := by
  intro c
  simp only [samplingMode_mask, triggerMode_mask, channelCount_mask, triggerSlope_mask, prescale_mask,
    encodeCW_or_fieldBits, encodeCW_and_not_fieldBits, BitVec.or_allOnes, BitVec.or_zero, BitVec.not_allOnes,
    BitVec.and_zero, implies_true, true_and]
  exact ⟨rfl, rfl, rfl, rfl, rfl,
    fun _ hv => encodeCW_ne_of_field_ne AcqConfig.samplingMode hv,
    fun _ hv => encodeCW_ne_of_field_ne AcqConfig.triggerMode hv,
    fun _ hv => encodeCW_ne_of_field_ne AcqConfig.channelCountMinus1 hv,
    fun _ hv => encodeCW_ne_of_field_ne AcqConfig.triggerSlope hv,
    fun _ hv => encodeCW_ne_of_field_ne AcqConfig.prescale hv⟩

/-! ## Integer values (R121, R124) -/

theorem getLsbD_iff_div_mod (b : Byte) (i : Nat) : b.getLsbD i = true ↔ ¬b.toNat / 2 ^ i % 2 = 0 := by
  rw [BitVec.getLsbD, Nat.testBit_eq_decide_div_mod_eq, decide_eq_true_eq]
  omega

/-- Concatenation as an integer: the upper part shifted by the width of the lower one. -/
theorem toNat_append_eq_add {m n : Nat} (x : BitVec m) (y : BitVec n) :
    (x ++ y).toNat = x.toNat * 2 ^ n + y.toNat := by
  rw [BitVec.toNat_append, ← Nat.shiftLeft_add_eq_or_of_lt y.isLt, Nat.shiftLeft_eq]

theorem fieldBits_toNat (sm tm : BitVec 1) (cc : BitVec 2) (sl : BitVec 1) (ps : BitVec 3) :
    (fieldBits sm tm cc sl ps).toNat =
      128 * sm.toNat + 64 * tm.toNat + 16 * cc.toNat + 8 * sl.toNat + ps.toNat := by
  simp only [fieldBits, toNat_append_eq_add]
  omega

theorem SamplingMode.bit_toNat (m : SamplingMode) : m.bit.toNat = if m = .equivalentTime then 1 else 0 := by
  cases m <;> rfl

theorem TriggerMode.bit_toNat (m : TriggerMode) : m.bit.toNat = if m = .normal then 1 else 0 := by
  cases m <;> rfl

theorem Slope.bit_toNat (m : Slope) : m.bit.toNat = if m = .rising then 1 else 0 := by
  cases m <;> rfl

/-- Settles O19: each field's bits by their place in the byte's value. -/
theorem decodeReadsTheFields : Obligations.DecodeReadsTheFields := by
  intro s b
  refine ⟨decodeCW b, rfl, ?_, ?_, ?_, ?_, ?_⟩
  · have hbit : b.toNat / 128 % 2 = b.toNat / 128 := Nat.mod_eq_of_lt (by omega)
    simp only [decodeCW, samplingModeOfBit, getLsbD_iff_div_mod, ite_not, Nat.reducePow, hbit]
  · simp only [decodeCW, triggerModeOfBit, getLsbD_iff_div_mod, ite_not, Nat.reducePow]
  · simp [decodeCW, AcqConfig.channelCount, Nat.shiftRight_eq_div_pow]
  · simp only [decodeCW, slopeOfBit, getLsbD_iff_div_mod, ite_not, Nat.reducePow]
  · simp [decodeCW]

/-- Settles O20: the value of the concatenated fields. -/
theorem encodeAssemblesTheFields : Obligations.EncodeAssemblesTheFields := by
  intro s c
  refine ⟨encodeCW c, rfl, ?_⟩
  rw [encodeCW_eq_fieldBits, fieldBits_toNat, SamplingMode.bit_toNat, TriggerMode.bit_toNat, Slope.bit_toNat,
    AcqConfig.channelCount, Nat.add_sub_cancel]

end Sys2Proof
end

section
/-! The frame synchronizer's operations (R142-R150): what each writes, what completes it, and the two ends of a frame. -/

namespace Sys2Proof

/-- Rows cannot be read where an element of theirs holds no value (R37). -/
theorem Memory.readRows_eq_none {α : Type} {m : Memory α} {N n a : Nat} (ha : a < n * N) (h : m.read a = none) :
    m.readRows N 0 n = none := by
  cases hrows : m.readRows N 0 n with
  | none => rfl
  | some rows =>
    obtain ⟨-, -, hlen, hget⟩ := Memory.readRows_flatten hrows
    have hval := hget a ha
    rw [Nat.zero_mul, Nat.zero_add, h, List.getElem?_eq_none_iff] at hval
    omega

namespace Machine

/-! ## Hunting, the control word and the flag -/

/-- Settles O14: each operation is one write of registers, and R99's table says which bytes select it. -/
theorem huntControlAndFlagBytes : Obligations.HuntControlAndFlagBytes := by
  intro s b
  obtain ⟨hhunt, hctrl, -, hflag, -⟩ := receivedByteSelectsByPosition b
  refine ⟨rfl, rfl, rfl, rfl, fun hf => ?_, fun hf => ?_, fun hf => ?_⟩
  · rw [hhunt s.FS hf]
    exact ⟨fun h => if_neg h, fun h => if_pos h⟩
  · rw [hf]
    exact hctrl
  · rw [hf]
    exact hflag

/-! ## A frame that is not ready -/

/-- A frame that is not ready replaces `CFG` and makes `SYNC` not ready (R231, R232). -/
theorem frameEvent_notReady {s : State} {rows : List (List RealTerm)} {fr : Frame} (h : s.Shows rows) (hr : fr.ready = false) :
    frameEvent fr s = .ok (afterSync .notReady rows { s with CFG := encodeCW fr.config }) := by
  simp only [frameEvent, hr, Bool.false_eq_true, if_false]
  exact syncTo_shows .notReady h

/-- The end of a frame that is not ready (R150). -/
theorem frameEmit_notReady {s : State} {rows : List (List RealTerm)} (h : s.Shows rows) (w : Byte) :
    frameEmit w false s = .ok (afterSync .notReady rows { s with FS := .idle, FBUF := [], CFG := w }) := by
  have hev := frameEvent_notReady (s := { s with FS := .idle, FBUF := [] }) (fr := ⟨decodeCW w, false, none⟩) h rfl
  rwa [encodeCW_decodeCW] at hev

/-- Settles O15: RX.FLAG0 and RX.FLAGX are FRAME.EMIT of the control word read before, and both events are a change of `SYNC`. -/
theorem notReadyFrameEnds : Obligations.NotReadyFrameEnds := by
  intro s rows h
  have hemit (w : Byte) := congrArg Answer.outcome (frameEmit_notReady h w)
  exact ⟨hemit, hemit s.FCW, fun _ => hemit s.FCW, fun _ hr => congrArg Answer.outcome (frameEvent_notReady h hr),
    fun _ => congrArg Answer.outcome (syncTo_shows .notReady h)⟩

/-! ## The payload and the end of a ready frame -/

/-- A payload byte at a position inside the row is stored, and then the position moves (R149). -/
theorem exec_rxData {s : State} (h : s.SI < s.P.N) (b : Byte) : exec (.rxData b) s =
    Answer.outcome (advancePosition { s with FBUF := s.FBUF.write (s.CI.toNat * s.P.N + s.SI) b }) := by
  simp only [exec, execRxData, storeSample, if_pos h, andThen_ok]

/-- Settles O16: the byte is stored, and the position moves in one of three ways. -/
theorem payloadByteIsStored : Obligations.PayloadByteIsStored := by
  intro s b
  refine ⟨rfl, fun hsi => ⟨_, Memory.read_write s.FBUF _ b, fun hsample => ?_, fun hsample hchannel => ?_,
    fun hsample hchannel => ?_⟩⟩ <;> rw [exec_rxData hsi]
  · exact outcome_eq_next.mpr (advancePosition_nextSample hsample)
  · exact outcome_eq_next.mpr (advancePosition_nextChannel hsample hchannel)
  · exact congrArg Answer.outcome (advancePosition_frameEnd hsample hchannel)

/-- Rows of the right number, read from a memory, are the samples of a ready frame, in element order (R63, R150). -/
theorem frameSamples_of_readRows {m : Memory Byte} {N : Nat} {c : AcqConfig} {rows : List (List Byte)}
    (h : m.readRows N 0 c.channelCount = some rows) : frameSamples N ⟨c, true, some rows⟩ = some rows.flatten := by
  obtain ⟨hn, hN, -, -⟩ := Memory.readRows_flatten h
  exact if_pos ⟨hn, by simpa using hN⟩

/-- A ready frame whose staged rows can be read is the ready frame event of those rows (R150, R231). -/
theorem frameEmit_of_readRows {s : State} {w : Byte} {rows : List (List Byte)}
    (h : s.FBUF.readRows s.P.N 0 (decodeCW w).channelCount = some rows) :
    frameEmit w true s = frameReady ⟨decodeCW w, true, some rows⟩ { s with FS := .idle, FBUF := [], CFG := w } := by
  simp only [frameEmit, if_true, h, frameEvent, encodeCW_decodeCW]

/-- A ready frame of which a staged element holds no value is a fault (R37). -/
theorem frameEmit_of_read_none {s : State} {w : Byte} {a : Nat} (ha : a < (decodeCW w).channelCount * s.P.N)
    (h : s.FBUF.read a = none) : frameEmit w true s = .error (.noValue .fbuf) := by
  simp only [frameEmit, if_true, Memory.readRows_eq_none ha h]

/-- Settles O17, by whether every staged element holds a value. -/
theorem readyFrameIsEmitted : Obligations.ReadyFrameIsEmitted := by
  intro s w
  refine ⟨fun ⟨_, ha, hnone⟩ => ?_, fun hcan hd hheld => ?_⟩
  · exact congrArg Answer.outcome (frameEmit_of_read_none ha hnone)
  · obtain ⟨staged, hstaged⟩ := Option.isSome_iff_exists.mp (Memory.readRows_isSome_of_read hheld)
    obtain ⟨-, -, hlen, hget⟩ := Memory.readRows_flatten hstaged
    obtain ⟨d, rows, hready, hdisplays⟩ := frameReady_ok (s := { s with FS := .idle, FBUF := [], CFG := w }) { hcan with } hd
      (frameSamples_of_readRows hstaged)
    refine ⟨staged.flatten, d, rows, hlen, fun j hj => ?_, ?_, hdisplays⟩
    · simpa using hget j (hlen ▸ hj)
    · exact congrArg Answer.outcome ((frameEmit_of_readRows hstaged).trans hready)

end Machine
end Sys2Proof
end

section
/-! What of the frame synchronizer and its backlog a step without a reset can change (R152, R156). -/

namespace Sys2Proof.Machine

/-- Settles O53: of all that a step can do only a received byte writes `FS`, and each of its effects is a row of R152's table. -/
theorem fsMovesOnlyByItsTable : Obligations.FsMovesOnlyByItsTable := by
  intro s t hr e hmove
  cases step_effect hr e with
  | wait h | linkError n _ h | timeoutIgnored n h | timeout n rows _ _ _ _ h => exact absurd (congrArg State.FS h) hmove
  | command w n _ _ _ c =>
    obtain ⟨-, -, -, hfs, -⟩ := c.same
    exact absurd hfs hmove
  | received b n _ hx hb c =>
    refine ⟨hx, b, hb, ?_⟩
    cases c with
    | skip hf hb0 h =>
      have hidle : s.FS = .idle := hf.resolve_right fun hhunt => hmove ((congrArg State.FS h).trans hhunt.symm)
      exact .inl ⟨hidle, hb0, congrArg State.FS h⟩
    | sync hf hb0 h => exact .inr (.inl ⟨hf, hb0, congrArg State.FS h⟩)
    | ctrl hf h => exact .inr (.inr (.inl ⟨hf, congrArg State.FS h⟩))
    | flag1 hf hb1 h => exact .inr (.inr (.inr (.inl ⟨hf, hb1, congrArg State.FS h⟩)))
    | notReady _ hf hb1 h => exact .inr (.inr (.inr (.inr (.inl ⟨hf, hb1, congrArg State.FS h⟩))))
    | data _ _ _ _ h => exact absurd (congrArg State.FS h) hmove
    | last _ _ _ hf hsample hchannel _ h =>
      exact .inr (.inr (.inr (.inr (.inr ⟨hf, hsample, hchannel, congrArg State.FS h⟩))))

/-- The command words of TOGGLE_RUN and ARM_SINGLE (R102). -/
theorem decodeCmd_toggleRun_or_armSingle :
    ∀ w : Byte, decodeCmd w = .toggleRun ∨ decodeCmd w = .armSingle → w = 0x80 ∨ w = 0x90 := by
  decide

/-- Settles O58: a frozen block receives no byte, and of the commands only two wake it. -/
theorem frozenBlockTakesNoByte : Obligations.FrozenBlockTakesNoByte := by
  intro s t hrun hrxen hr e
  cases step_effect hr e with
  | wait h | timeoutIgnored n h =>
    subst h
    exact .inl ⟨hrun, hrxen, rfl⟩
  | command w n _ _ hw c =>
    rcases c.run with ⟨hrun', hrxen', hrx⟩ | hawake | ⟨hrun', hrxen', hrx, hi⟩
    · exact .inl ⟨hrun'.trans hrun, hrxen'.trans hrxen, hrx⟩
    · exact absurd (hrun.symm.trans hawake) Bool.false_ne_true
    · exact .inr ⟨hrun', hrxen', hrx, w, hw, decodeCmd_toggleRun_or_armSingle w hi⟩
  | received b n _ hx _ _ | linkError n hx _ => exact absurd (hrxen.symm.trans hx) Bool.false_ne_true
  | timeout n rows _ _ hawake _ _ => exact absurd (hrun.symm.trans hawake) Bool.false_ne_true

end Sys2Proof.Machine
end

section
/-! The voltage map: its value (R171), its ends and its order (R172). -/

namespace Sys2Proof

/-- The upper end of TOVOLT, by the three equations of U9.4 (R172). -/
theorem Num.NamedVolts.volt_full {R : Type} {n : Num R} {finite : R → Prop} (h : n.NamedVolts finite) :
    (RealTerm.toVolt 255).eval n = n.vmax :=
  calc (RealTerm.toVolt 255).eval n
      = n.add n.vmin (n.mul (n.sub n.vmax n.vmin) (n.div (n.ofNat 255) (n.ofNat 255))) := rfl
    _ = n.add n.vmin (n.sub n.vmax n.vmin) := by rw [h.div_full, h.mul_one _ h.span_finite]
    _ = n.vmax := h.vmin_add_span

/-- Every code but the first lies above the lower end: monotonicity from code 0 (R172). -/
theorem Num.NamedVolts.vmin_lt_volt {R : Type} {n : Num R} {finite : R → Prop} (h : n.NamedVolts finite) {a : Byte}
    (ha : a ≠ 0) : n.lt n.vmin ((RealTerm.toVolt a).eval n) = true := by
  have hlt : (0 : Byte).toNat < a.toNat := Nat.pos_of_ne_zero (BitVec.toNat_ne.mp ha)
  exact h.volt_zero ▸ h.volt_increasing 0 a hlt

/-- Every code but the last lies below the upper end: monotonicity up to code 255 (R172). -/
theorem Num.NamedVolts.volt_lt_vmax {R : Type} {n : Num R} {finite : R → Prop} (h : n.NamedVolts finite) {a : Byte}
    (ha : a ≠ 255) : n.lt ((RealTerm.toVolt a).eval n) n.vmax = true := by
  have hlt : a.toNat < (255 : Byte).toNat := BitVec.lt_def.mp (BitVec.lt_allOnes_iff.mpr ha)
  exact h.volt_full ▸ h.volt_increasing a 255 hlt

namespace Machine

/-- Settles O22: exact reals have the named properties, so both parts are consequences of these. -/
theorem toVoltEndsAndIncreases : Obligations.ToVoltEndsAndIncreases := by
  constructor
  · intro r hr
    have h := Num.exact_namedVolts hr
    exact ⟨h.volt_zero, h.volt_full, fun a b hab => of_decide_eq_true (h.volt_increasing a b hab)⟩
  · intro R n finite h
    exact ⟨h.volt_zero, h.volt_full, fun a => ⟨h.vmin_lt_volt, h.volt_lt_vmax⟩⟩

/-- Settles O21: the result is the rule's formula. -/
theorem toVoltIsTheAffineMap : Obligations.ToVoltIsTheAffineMap := by
  intro s raw
  exact ⟨.toVolt raw, rfl, fun vmin vmax => toVolt_toReal vmin vmax raw, fun R n => rfl⟩

end Machine
end Sys2Proof
end

section
/-! The sinc function and the kernel table: SINC's guard and evenness (R181, R182), and KBUILD's entries (R184-R190). -/

namespace Sys2Proof

/-! ## The guarded quotient (R181, R182) -/

/-- At or below the guard the value is 1 (R181). -/
theorem sincExact_of_le {x : ℝ} (h : |x| ≤ 1 / 1000) : sincExact x = 1 := if_neg h.not_gt

theorem sincExact_of_gt {x : ℝ} (h : |x| > 1 / 1000) : sincExact x = Real.sin x / x := if_pos h

theorem sincExact_zero : sincExact 0 = 1 := sincExact_of_le (by norm_num)

/-- Evenness: the guard reads `|x|`, and numerator and denominator change sign together (R182). -/
theorem sincExact_neg (x : ℝ) : sincExact (-x) = sincExact x := by
  rw [sincExact, sincExact, abs_neg, Real.sin_neg, neg_div_neg_eq]

/-- SINC's term in a number format is that format's SINC. -/
theorem RealTerm.sinc_eval {R : Type} (n : Num R) (x : RealTerm) : x.sinc.eval n = n.sinc (x.eval n) := rfl

/-- Evenness from the named properties U9.1 and U9.2 (R182). -/
theorem Num.Named.sinc_neg {R : Type} {n : Num R} {neg : R → R} {finite : R → Prop} (h : n.Named neg finite) (x : R) :
    n.sinc (neg x) = n.sinc x := by
  rw [Num.sinc, Num.sinc, h.abs_neg, h.sin_neg, h.div_neg]

/-! ## The kernel table (R184-R190) -/

/-- At the multiples of pi the sine vanishes, and all but 0 lie outside the guard (R189). -/
theorem sincExact_pi_mul_int (j : ℤ) : sincExact (Real.pi * j) = if j = 0 then 1 else 0 := by
  split_ifs with h
  · rw [h, Int.cast_zero, mul_zero, sincExact_zero]
  · have hj : (1 : ℝ) ≤ |(j : ℝ)| := by exact_mod_cast Int.one_le_abs h
    have hguard : |Real.pi * j| > 1 / 1000 := by
      rw [abs_mul, abs_of_pos Real.pi_pos]
      nlinarith [Real.pi_gt_three]
    rw [sincExact_of_gt hguard, mul_comm, Real.sin_int_mul_pi, zero_div]

variable (vmin vmax : ℝ)

/-- An entry as the prototype at `(k - m) * 2^p + l` (R190). -/
theorem kernelEntry_toReal_prototype (p k l m : Nat) :
    (kernelEntry p (k * 2 ^ p + l) m).toReal vmin vmax =
      sincExact (Real.pi * (((k : ℝ) - m) * 2 ^ p + l) / 2 ^ p) := by
  rw [kernelEntry_toReal]
  congr 1
  push_cast
  field_simp
  ring

/-- Row `2r` of power `p + 1` has the phase of row `r` of power `p` (R190). -/
theorem kernelEntry_toReal_nested (p r m : Nat) :
    (kernelEntry (p + 1) (2 * r) m).toReal vmin vmax = (kernelEntry p r m).toReal vmin vmax := by
  have hphase : ((2 * r : ℕ) : ℝ) / 2 ^ (p + 1) = r / 2 ^ p := by
    rw [Nat.cast_mul, Nat.cast_two, pow_succ', mul_div_mul_left _ _ two_ne_zero]
  rw [kernelEntry_toReal, kernelEntry_toReal, hphase]

namespace Machine

/-- The table ends at element `(MAXZP + 1) * N * N` (R36). -/
theorem kernelTable_read_of_ge {P : Params} {a : Nat} (h : (P.MAXZP + 1) * P.N * P.N ≤ a) :
    (kernelTable P).read a = none := by
  rw [kernelTable, Memory.read_tabulate, if_neg (by omega)]

/-- Settles O23: the result is the rule's term. -/
theorem sincIsTheGuardedQuotient : Obligations.SincIsTheGuardedQuotient := by
  intro s x
  exact ⟨x.sinc, rfl, fun vmin vmax => sinc_toReal vmin vmax x, fun R n => x.sinc_eval n⟩

/-- Settles O24: the exact part by the values of `sincExact`, the part about formats by U9.1 and U9.2. -/
theorem sincIsEven : Obligations.SincIsEven := by
  constructor
  · intro vmin vmax x y
    rw [sinc_toReal, sinc_toReal]
    refine ⟨fun hx => ?_, sincExact_of_gt, fun hxy => ?_⟩
    · rw [hx, sincExact_zero]
    · rw [hxy, sincExact_neg]
  · intro R n neg finite h x y hxy
    rw [RealTerm.sinc_eval, RealTerm.sinc_eval, hxy, h.sinc_neg]

/-- Settles O25: KBUILD writes `kernelTable`, whose elements are the kernel entries. -/
theorem kbuildFillsTheTable : Obligations.KbuildFillsTheTable := by
  intro s
  refine ⟨kernelTable s.P, rfl, fun p hp r hr m hm => ?_, fun a => kernelTable_read_of_ge⟩
  exact ⟨kernelEntry p r m, kernelTable_read hp hr hm, fun vmin vmax => kernelEntry_toReal vmin vmax p r m, fun R n => rfl⟩

/-- Settles O26: row `k * 2^p` is the prototype at phase 0, where the argument is the multiple `k - m` of pi. -/
theorem integerPhasesAreOneHot : Obligations.IntegerPhasesAreOneHot := by
  intro vmin vmax p k m
  have hphase : Real.pi * (((k * 2 ^ p : ℕ) : ℝ) / 2 ^ p - m) = Real.pi * ((k - m : ℤ) : ℝ) := by
    push_cast
    rw [mul_div_cancel_right₀ _ (by positivity)]
  rw [kernelEntry_toReal, hphase, sincExact_pi_mul_int]
  exact if_congr (by omega) rfl rfl

/-- Settles O27: of the prototype's argument only `k - m` depends on `k` and `m`. -/
theorem kernelIsPolyphase : Obligations.KernelIsPolyphase := by
  intro vmin vmax p k l m _
  refine ⟨kernelEntry_toReal_prototype vmin vmax p k l m, fun k' m' h => ?_, fun j => ?_,
    fun r => kernelEntry_toReal_nested vmin vmax p r m⟩
  · have hdiff : (k' : ℝ) - m' = k - m := by
      rw [sub_eq_sub_iff_add_eq_add]
      exact_mod_cast h.symm
    rw [kernelEntry_toReal_prototype, kernelEntry_toReal_prototype, hdiff]
  · rw [mul_neg, neg_div, sincExact_neg]

end Machine
end Sys2Proof
end

section
/-! The interpolators: what one channel's ILIN and ISINC write and with what values (R203-R205), and what their formulas give
(R204, R207). -/

namespace Sys2Proof

/-! ## A channel's row -/

/-- Writing a row of `N` elements at channel `c` sets that row and leaves every other element (R36). -/
theorem Memory.writeN_row {α : Type} (m : Memory α) {N : Nat} (c : Nat) {o : List α} (ho : o.length = N) :
    (m.writeN (c * N) o).readN (c * N) N = some o ∧
    ∀ a, a < c * N ∨ (c + 1) * N ≤ a → (m.writeN (c * N) o).read a = m.read a := by
  refine ⟨(Memory.readN_eq_some _ _ _ _).mpr ⟨ho, fun i hi => ?_⟩, fun a ha => ?_⟩
  · rw [Memory.read_writeN, if_pos (by omega), Nat.add_sub_cancel_left]
  · rw [Nat.succ_mul] at ha
    rw [Memory.read_writeN, if_neg (by omega)]

/-! ## ILIN (R203, R204) -/

theorem Num.valueAt_of_getElem? {R : Type} {n : Num R} {v : List RealTerm} {i : Nat} {t : RealTerm} (h : v[i]? = some t) :
    n.valueAt v i = t.eval n := by
  simp [Num.valueAt, h]

section
variable {N p : Nat} {v o : List RealTerm}

theorem ilin_get (hz : N / 2 ^ p * 2 ^ p = N) (h : ilin N (2 ^ p) v = some o) {k l : Nat} (hk : k < N / 2 ^ p)
    (hl : l < 2 ^ p) : o[k * 2 ^ p + l]? = ilinAt (2 ^ p) v (k, l) := by
  obtain ⟨-, hget⟩ := ilin_spec hz h
  obtain ⟨hdiv, hmod⟩ := grid_parts (k := k) hl
  rw [hget _ (grid_lt hz hk hl), hdiv, hmod]

/-- At `l = 0` the output is a copy (R203). -/
theorem ilin_copy (hz : N / 2 ^ p * 2 ^ p = N) (h : ilin N (2 ^ p) v = some o) {k : Nat} (hk : k < N / 2 ^ p) :
    o[k * 2 ^ p]? = v[k]? :=
  ilin_get hz h hk (Nat.two_pow_pos p)

/-- Between two samples the output is the term of R203 over both of them. -/
theorem ilin_between (hz : N / 2 ^ p * 2 ^ p = N) (hv : v.length = N) (h : ilin N (2 ^ p) v = some o) {k l : Nat}
    (hk : k < N / 2 ^ p) (hl : l < 2 ^ p) (h0 : l ≠ 0) :
    ∃ a b, v[k]? = some a ∧ v[k + 1]? = some b ∧
      o[k * 2 ^ p + l]? = some (.add a (.mul (.sub b a) (.div (.ofNat l) (.ofNat (2 ^ p))))) := by
  obtain ⟨hin, hnext⟩ := ilin_index hz (grid_lt hz hk hl)
  obtain ⟨hdiv, hmod⟩ := grid_parts (k := k) hl
  rw [hdiv, ← hv] at hin
  rw [hdiv, hmod, ← hv] at hnext
  have hnext := hnext h0
  refine ⟨v[k], v[k + 1], List.getElem?_eq_getElem hin, List.getElem?_eq_getElem hnext, ?_⟩
  rw [ilin_get hz h hk hl]
  simp [ilinAt, h0, hin, hnext]

/-- ILIN's outputs in a number format: the copy, or the operations in the order written (R203, D8). -/
theorem ilin_eval {R : Type} (n : Num R) (hz : N / 2 ^ p * 2 ^ p = N) (hv : v.length = N) (h : ilin N (2 ^ p) v = some o)
    {k l : Nat} (hk : k < N / 2 ^ p) (hl : l < 2 ^ p) :
    n.valueAt o (k * 2 ^ p + l) = if l = 0 then n.valueAt v k else
      n.add (n.valueAt v k) (n.mul (n.sub (n.valueAt v (k + 1)) (n.valueAt v k)) (n.div (n.ofNat l) (n.ofNat (2 ^ p)))) := by
  split_ifs with h0
  · rw [h0, Nat.add_zero, Num.valueAt, ilin_copy hz h hk, Num.valueAt]
  · obtain ⟨a, b, ha, hb, ho⟩ := ilin_between hz hv h hk hl h0
    rw [Num.valueAt_of_getElem? ho, Num.valueAt_of_getElem? ha, Num.valueAt_of_getElem? hb]
    rfl

end

/-- A point part of the way from `a` to `b` lies between them (R204). -/
theorem add_sub_mul_mem_uIcc (a b : ℝ) {t : ℝ} (h0 : 0 ≤ t) (h1 : t ≤ 1) : a + (b - a) * t ∈ Set.uIcc a b := by
  rw [← segment_eq_uIcc, segment_eq_image', mul_comm]
  exact ⟨t, ⟨h0, h1⟩, rfl⟩

/-! ## ISINC (R205, R207) -/

/-- The first `k` terms of ISINC's sum in a number format (R205). -/
theorem eval_isincTerms {R : Type} (n : Num R) {v w : List RealTerm} {s0 : RealTerm} (h0 : v[0]? = some s0) {k : Nat}
    (hv : k ≤ v.length) (hw : k ≤ w.length) :
    (((v.zip w).take k).foldl (fun acc e => .add acc (.mul (.sub e.1 s0) e.2)) (.ofNat 0) : RealTerm).eval n =
      n.accumulate v w k := by
  induction k with
  | zero => rfl
  | succ k ih =>
    have hk : k < (v.zip w).length := by rw [List.length_zip]; omega
    rw [List.take_succ_eq_append_getElem hk, List.foldl_append, List.getElem_zip, Num.accumulate,
      ← ih (by omega) (by omega), Num.valueAt_of_getElem? h0, Num.valueAt_of_getElem? (List.getElem?_eq_getElem hv),
      Num.valueAt_of_getElem? (List.getElem?_eq_getElem hw)]
    rfl

/-- ISINC's sum in a number format: accumulated from `m = 0` upward, with `s[0]` added last (R205). -/
theorem isincSum_eval {R : Type} (n : Num R) {v w : List RealTerm} {s0 : RealTerm} (h0 : v[0]? = some s0)
    (hl : w.length = v.length) : (isincSum s0 v w).eval n = n.add (n.valueAt v 0) (n.accumulate v w v.length) := by
  rw [← eval_isincTerms n h0 le_rfl hl.ge, List.take_of_length_le (by simp), Num.valueAt_of_getElem? h0]
  rfl

/-- ISINC's outputs in a number format (R205). -/
theorem isinc_eval {R : Type} (n : Num R) {N p : Nat} {row : Nat → Option (List RealTerm)} {v o w : List RealTerm} {r : Nat}
    (hz : N / 2 ^ p * 2 ^ p = N) (hv : v.length = N) (h : isinc N p row v = some o) (hr : r < N) (hw : row r = some w)
    (hwl : w.length = N) : n.valueAt o r = n.add (n.valueAt v 0) (n.accumulate v w N) := by
  obtain ⟨-, hget⟩ := isinc_spec hz h
  obtain ⟨s0, w', h0, hw', ho⟩ := hget r hr
  obtain rfl : w' = w := by simpa [hw] using hw'.symm
  rw [Num.valueAt_of_getElem? ho, isincSum_eval n h0 (hwl.trans hv.symm), hv]

/-- Every zoom factor up to `2^MAXZP` divides the buffer length (R7). -/
theorem Params.Valid.zoom_divides {P : Params} (h : P.Valid) {p : Nat} (hp : p ≤ P.MAXZP) : P.N / 2 ^ p * 2 ^ p = P.N := by
  obtain ⟨-, hN, hM, -⟩ := h
  exact Sys2Proof.zoom_divides hN (hp.trans hM)

namespace Machine

/-- ISINC's outputs in exact reals with the table KBUILD builds (R205, R184). -/
theorem isinc_kernelTable_value {P : Params} {p : Nat} {v o : List RealTerm} (hP : P.Valid) (hp : p ≤ P.MAXZP)
    (hv : v.length = P.N) (h : isinc P.N p (fun r => (kernelTable P).readN ((p * P.N + r) * P.N) P.N) v = some o)
    (vmin vmax : ℝ) {r : Nat} (hr : r < P.N) :
    valueAt vmin vmax o r = valueAt vmin vmax v 0 +
      ∑ m ∈ Finset.range P.N, (valueAt vmin vmax v m - valueAt vmin vmax v 0) * (kernelEntry p r m).toReal vmin vmax := by
  obtain ⟨w, hw, hwl, hval⟩ := kernelTable_row (vmin := vmin) (vmax := vmax) hp hr
  rw [isinc_value (hP.zoom_divides hp) hv h hr hw hwl]
  congr 1
  refine Finset.sum_congr rfl fun m hm => ?_
  rw [hval m (Finset.mem_range.mp hm), kernelEntry_toReal]

/-! ## The instructions -/

theorem ilinChannel_ok {c z : Nat} {s : State} {v o : List RealTerm} (hv : s.VOLT.readN (c * s.P.N) s.P.N = some v)
    (ho : ilin s.P.N z v = some o) : ilinChannel c z s = .ok { s with DISP := s.DISP.writeN (c * s.P.N) o } := by
  simp only [ilinChannel, hv, ho]

theorem isincChannel_ok {c p : Nat} {s : State} {v o : List RealTerm} (hk : s.KVALID = true)
    (hv : s.VOLT.readN (c * s.P.N) s.P.N = some v) (ho : isinc s.P.N p (kernelRow p s) v = some o) :
    isincChannel c p s = .ok { s with DISP := s.DISP.writeN (c * s.P.N) o } := by
  simp only [isincChannel, hk, hv, ho, if_true]

theorem isincChannel_of_not_kvalid {c p : Nat} {s : State} (hk : s.KVALID = false) :
    isincChannel c p s = .error .kernelNotBuilt := by
  simp [isincChannel, hk]

/-- Settles O28: ILIN answers on a grid that divides the buffer, and its row is written at its channel. -/
theorem ilinWritesTheInterpolatedRow : Obligations.IlinWritesTheInterpolatedRow := by
  intro s c p v hP hp hv
  obtain ⟨-, hN, -⟩ := hP
  have hz := zoom_divides hN hp
  obtain ⟨hvl, -⟩ := (Memory.readN_eq_some _ _ _ _).mp hv
  obtain ⟨o, ho⟩ := Option.isSome_iff_exists.mp (ilin_isSome hvl hz)
  obtain ⟨hol, -⟩ := ilin_spec hz ho
  obtain ⟨hrow, hframe⟩ := s.DISP.writeN_row c.toNat hol
  exact ⟨_, o, congrArg Answer.outcome (ilinChannel_ok hv ho), hrow, hol, hframe,
    fun vmin vmax k hk l hl => ilin_value hz hvl ho hk hl, fun R n k hk l hl => ilin_eval n hz hvl ho hk hl⟩

/-- Settles O29: the copies are equalities of terms, and `l/z` lies in `[0, 1]`. -/
theorem ilinCopiesAndStaysBetweenNeighbours : Obligations.IlinCopiesAndStaysBetweenNeighbours := by
  intro N p v o hN hp hv h
  have hz := zoom_divides hN hp
  refine ⟨?_, fun k hk => ilin_copy hz h hk, fun vmin vmax k hk l hl _ => ?_⟩
  · rintro rfl
    obtain ⟨hol, -⟩ := ilin_spec hz h
    refine List.ext_getElem?' fun k hk => ?_
    have hkN : k < N / 2 ^ 0 := by simp; omega
    simpa using ilin_copy hz h hkN
  · have hl1 : (l : ℝ) / 2 ^ p ≤ 1 := by
      rw [div_le_one (by positivity)]
      exact_mod_cast hl.le
    rw [ilin_value hz hv h hk hl]
    exact add_sub_mul_mem_uIcc _ _ (by positivity) hl1

/-- Settles O30: ISINC answers when the kernels are built and its rows can be read, and its row is written at its channel. -/
theorem isincWritesTheInterpolatedRow : Obligations.IsincWritesTheInterpolatedRow := by
  intro s c p
  refine ⟨fun hk => congrArg Answer.outcome (isincChannel_of_not_kvalid hk), fun v hP hp hk hv hkern => ?_⟩
  obtain ⟨h2, hN, -⟩ := hP
  have hz := zoom_divides hN hp
  obtain ⟨hvl, -⟩ := (Memory.readN_eq_some _ _ _ _).mp hv
  have hpos : 0 < v.length := by omega
  obtain ⟨o, ho⟩ := Option.isSome_iff_exists.mp (isinc_isSome (row := kernelRow p s) hpos hz hkern)
  obtain ⟨hol, -⟩ := isinc_spec hz ho
  obtain ⟨hrow, hframe⟩ := s.DISP.writeN_row c.toNat hol
  refine ⟨_, o, congrArg Answer.outcome (isincChannel_ok hk hv ho), hrow, hol, hframe, fun r hr w hw => ?_⟩
  obtain ⟨hwl, -⟩ := (Memory.readN_eq_some _ _ _ _).mp hw
  exact ⟨fun vmin vmax => isinc_value hz hvl ho hr hw hwl, fun R n => isinc_eval n hz hvl ho hr hw hwl⟩

/-- Settles O31: integer phases by R189's one-hot rows, the rest because the sum is linear in the differences to `s[0]`. -/
theorem isincReconstructsExactly : Obligations.IsincReconstructsExactly := by
  intro P p v o hP hp hv h vmin vmax
  have hz := hP.zoom_divides hp
  have hval {r : Nat} := isinc_kernelTable_value hP hp hv h vmin vmax (r := r)
  have hphase : ∀ k < P.N / 2 ^ p, valueAt vmin vmax o (k * 2 ^ p) = valueAt vmin vmax v k := by
    intro k hk
    have hkN : k < P.N := hk.trans_le (Nat.div_le_self _ _)
    rw [hval (r := k * 2 ^ p) (grid_lt hz hk (Nat.two_pow_pos p))]
    simp [integerPhasesAreOneHot vmin vmax p k, hkN]
  refine ⟨?_, hphase, fun a b v' o' hv' h' haff j hj => ?_, fun hconst j hj => ?_⟩
  · rintro rfl j hj
    simpa using hphase j (by simpa using hj)
  · have h0 := haff 0 (by omega)
    rw [isinc_kernelTable_value hP hp hv' h' vmin vmax hj, hval hj, h0, mul_add, Finset.mul_sum, ← add_assoc]
    congr 1
    refine Finset.sum_congr rfl fun m hm => ?_
    rw [haff m (Finset.mem_range.mp hm)]
    ring
  · rw [hval hj, add_eq_left]
    refine Finset.sum_eq_zero fun m hm => ?_
    rw [hconst m (Finset.mem_range.mp hm), sub_self, zero_mul]

end Machine
end Sys2Proof
end

section
/-! RESAMPLE (R210-R212): the row of every valid channel, and that it depends on nothing but that channel's voltages, the zoom
power, the mode and the kernels. -/

namespace Sys2Proof.Machine

/-! ## The channels' rows -/

/-- RESAMPLE answers only where every channel's voltages can be read and interpolated. -/
theorem resampleChannels_reads {n c : Nat} {s t : State} (h : resampleChannels n c s = .ok t) :
    ∀ ch, c ≤ ch → ch < c + n → ∃ v o, s.VOLT.readN (ch * s.P.N) s.P.N = some v ∧ s.interpolate v = some o := by
  induction n generalizing c s with
  | zero => intro ch h1 h2; omega
  | succ n ih =>
    intro ch h1 h2
    obtain ⟨s1, hc, hrest⟩ := andThen_eq_ok.mp h
    obtain ⟨v, o, hv, ho, rfl⟩ := resampleChannel_eq_ok hc
    obtain rfl | h3 := h1.eq_or_lt
    · exact ⟨v, o, hv, ho⟩
    · exact ih hrest ch h3 (by omega)

/-- Both interpolators answer `N` values (R200). -/
theorem interpolate_length {s : State} (hP : s.P.Valid) (hp : s.ZP ≤ s.P.MAXZP) {v o : List RealTerm}
    (h : s.interpolate v = some o) : o.length = s.P.N := by
  have hz := hP.zoom_divides hp
  rcases interp_cases s with hi | hi
  · rw [interpolate_linear hi] at h
    exact (ilin_spec hz h).1
  · rw [interpolate_sinc hi] at h
    exact (isinc_spec hz h).1

/-- A resampled row is the interpolation of its channel's voltages. -/
theorem State.Resampled.row {s : State} (h : s.Resampled) {c : Nat} (hc : c < s.NCH) :
    s.DISP.readN (c * s.P.N) s.P.N = (s.VOLT.readN (c * s.P.N) s.P.N).bind s.interpolate := by
  obtain ⟨v, o, hv, ho, hd⟩ := h c hc
  rw [hd, hv, Option.bind_some, ho]

/-- Where RESAMPLE answers, each valid row of `DISP` is the interpolation of its channel's voltages, whatever the state was. -/
theorem resampleAll_row {s t : State} (hP : s.P.Valid) (hp : s.ZP ≤ s.P.MAXZP) (h : resampleAll s = .ok t) {c : Nat}
    (hc : c < s.NCH) : t.DISP.readN (c * s.P.N) s.P.N = (s.VOLT.readN (c * s.P.N) s.P.N).bind s.interpolate := by
  obtain ⟨hr, hk, -⟩ := resampleAll_frame h
  have hch : resampleChannels s.NCH 0 s = .ok t := by simpa [resampleAll, hr, hk] using h
  obtain ⟨d, hd, hrows, -⟩ := resampleChannels_ok (n := s.NCH) (c := 0) hk fun ch h1 h2 => by
    obtain ⟨v, o, hv, ho⟩ := resampleChannels_reads hch ch h1 h2
    exact ⟨v, o, hv, ho, interpolate_length hP hp ho⟩
  obtain rfl : t = { s with DISP := d } := Except.ok.inj (hch.symm.trans hd)
  have hres : State.Resampled { s with DISP := d } := fun c hc =>
    hrows c (Nat.zero_le c) (hc.trans_eq (Nat.zero_add _).symm)
  exact hres.row hc

/-- The interpolator depends on the parameters, `ZP`, `INTERP` and `KERN` only (R211). -/
theorem interpolate_congr {s s' : State} (hP : s'.P = s.P) (hz : s'.ZP = s.ZP) (hi : s'.INTERP = s.INTERP)
    (hk : s'.KERN = s.KERN) : s'.interpolate = s.interpolate := by
  have hrow : kernelRow s.ZP s' = kernelRow s.ZP s := by
    funext r
    simp only [kernelRow, hP, hk]
  funext v
  simp only [State.interpolate, hP, hz, hi, hrow]

/-- Settles O32: the invariant lets the resampler run and holds the voltages of every valid channel. -/
theorem resampleWritesEveryValidChannel : Obligations.ResampleWritesEveryValidChannel := by
  intro s h hr hk
  obtain ⟨d, hd, hres, hframe⟩ := resampleAll_ok (h.canResample hk) hr (h.volt_isSome hr)
  refine ⟨d, congrArg Answer.outcome hd, fun c hc => ?_, hframe⟩
  obtain ⟨v, o, hv, ho, hrow⟩ := hres c hc
  exact ⟨v, o, hv, hrow, fun hi => interpolate_linear hi v ▸ ho, fun hi => interpolate_sinc hi v ▸ ho⟩

/-- Settles O33: in both runs the row is the same interpolator applied to the same voltages. -/
theorem channelsAreIndependent : Obligations.ChannelsAreIndependent := by
  intro s s' t t' c hP hp eP ez ei ek hc hc' ev e e'
  have e := outcome_eq_next.mp e
  have e' := outcome_eq_next.mp e'
  have hrow := resampleAll_row hP hp e hc
  have hrow' := resampleAll_row (by rwa [eP]) (by rwa [ez, eP]) e' hc'
  rw [eP, interpolate_congr eP ez ei ek, ev] at hrow'
  rw [hrow, hrow']

/-! ## Re-application (R212, R250) -/

/-- A resampled trace can be shown. -/
theorem State.Resampled.shows {s : State} (h : s.Resampled) (hr : s.RAWV = true) : ∃ rows, s.Shows rows := by
  simp only [State.Shows, hr, if_true]
  refine Option.isSome_iff_exists.mp ((Memory.readRows_isSome _ _ _ _).mpr fun c hc => ?_)
  obtain ⟨v, o, -, -, hd⟩ := h c hc
  simp [hd]

theorem reapply_of_shows {s : State} {d : Memory RealTerm} {rows : List (List RealTerm)} (hre : s.P.REAPPLY = true)
    (hr : s.RAWV = true) (hd : resampleAll s = .ok { s with DISP := d }) (hrows : State.Shows { s with DISP := d } rows) :
    reapply s = .ok (afterReapply d rows s) := by
  have hcond : (s.P.REAPPLY && s.RAWV) = true := by rw [hre, hr, Bool.and_self]
  rw [reapply, if_pos hcond, hd, andThen_ok]
  exact emitDispout_shows hrows

/-- The re-application to a trace that meets the invariant completes and keeps it (R250, R251). -/
theorem State.Inv.reapply_ok {s : State} (h : s.Inv) (hk : s.KVALID = true) (hre : s.P.REAPPLY = true) (hr : s.RAWV = true)
    {zp : Nat} (hz : zp ≤ s.P.MAXZP) (m : Interp) :
    ∃ d rows, reapply { s with ZP := zp, INTERP := m } = .ok (afterReapply d rows { s with ZP := zp, INTERP := m }) ∧
      (afterReapply d rows { s with ZP := zp, INTERP := m }).Inv := by
  have hcan := h.canResample hk
  obtain ⟨d, hd, hres, -⟩ := resampleAll_ok (s := { s with ZP := zp, INTERP := m }) ⟨hcan.params, hz, hk, hcan.kern⟩ hr
    (h.volt_isSome hr)
  obtain ⟨rows, hrows⟩ := hres.shows hr
  have hok := reapply_of_shows (s := { s with ZP := zp, INTERP := m }) hre hr hd hrows
  exact ⟨d, rows, hok, h.after_reapply hz hok⟩

/-- A zoom step to power `zp` with re-application (R250). -/
theorem State.Inv.stepZoom_ok {s : State} (h : s.Inv) (hk : s.KVALID = true) (hre : s.P.REAPPLY = true) (hr : s.RAWV = true)
    {dir : StepDir} {zp : Nat} (hz : zoomStep s.P.MAXZP s.ZP dir = zp) :
    ∃ d rows, exec (.stepZoom dir) s = .next (afterReapply d rows { s with ZP := zp }) ∧
      (afterReapply d rows { s with ZP := zp }).Inv := by
  subst hz
  obtain ⟨d, rows, hok, hinv⟩ := h.reapply_ok hk hre hr (zoomStep_le _ _ _) s.INTERP
  exact ⟨d, rows, congrArg Answer.outcome hok, hinv⟩

theorem zoomStep_up {maxzp zp : Nat} (h : zp < maxzp) : zoomStep maxzp zp .up = zp + 1 := by
  simp only [zoomStep, stepValue]
  omega

theorem zoomStep_down {maxzp zp : Nat} (h : zp < maxzp) : zoomStep maxzp (zp + 1) .down = zp := by
  simp only [zoomStep, stepValue]
  omega

/-- Under the invariant with re-application, the registers and `VOLT` determine `DISP` (R210, R329). -/
theorem State.Inv.disp_unique {s : State} {d : Memory RealTerm} {l : List Out} (h : s.Inv)
    (h' : State.Inv { s with DISP := d, out := l }) (hk : s.KVALID = true) (hre : s.P.REAPPLY = true) (hr : s.RAWV = true) :
    d = s.DISP := by
  have hres := h.resampled hk hre hr
  have hres' := h'.resampled hk hre hr
  refine Memory.eq_of_read h'.disp_wf h.disp_wf fun a => ?_
  by_cases ha : a < s.NCH * s.P.N
  · have hN : 0 < s.P.N := Nat.pos_of_ne_zero fun h0 => by simp [h0] at ha
    have hc : a / s.P.N < s.NCH := Nat.div_lt_of_lt_mul (by rwa [mul_comm])
    obtain ⟨v, o, hv, ho, hd⟩ := hres _ hc
    have hd' : d.readN (a / s.P.N * s.P.N) s.P.N = some o := ((hres'.row hc).trans (hres.row hc).symm).trans hd
    obtain ⟨-, hget⟩ := (Memory.readN_eq_some _ _ _ _).mp hd
    obtain ⟨-, hget'⟩ := (Memory.readN_eq_some _ _ _ _).mp hd'
    have hi := Nat.mod_lt a hN
    simpa only [Nat.div_add_mod'] using (hget' _ hi).trans (hget _ hi).symm
  · rw [h.disp_none hr (by omega), ← h'.disp_none hr (a := a) (by simpa [State.NCH] using ha)]

/-- Settles O34: both steps re-apply, and the trace at the first power is determined by what neither step writes. -/
theorem zoomInAndBackRestoresTheTrace : Obligations.ZoomInAndBackRestoresTheTrace := by
  intro s h hk hre hr hz
  obtain ⟨d, rows, hup, hinv⟩ := h.stepZoom_ok hk hre hr (zoomStep_up hz)
  obtain ⟨d', rows', hdown, hinv'⟩ := hinv.stepZoom_ok hk hre hr (zoomStep_down hz)
  have hd : d' = s.DISP := h.disp_unique hinv' hk hre hr
  exact ⟨_, _, hup, rfl, hdown, by rw [hd]; rfl⟩

end Sys2Proof.Machine
end

section
/-! The retunes (R240-R247): the word in which one field is replaced, which configuration each command retunes to, and what an
accepted and a dropped retune do (O36-O38). -/

namespace Sys2Proof

/-! ## The control word with one field replaced (R92) -/

theorem encodeCW_falling (c : AcqConfig) : encodeCW { c with triggerSlope := .falling } = encodeCW c &&& 0xF7 := by
  rw [show (0xF7 : Byte) = ~~~0x08 from rfl, triggerSlope_mask, encodeCW_and_not_fieldBits]
  simp only [encodeCW_eq_fieldBits, BitVec.not_allOnes, BitVec.not_zero, BitVec.and_allOnes, BitVec.and_zero]
  rfl

theorem encodeCW_auto (c : AcqConfig) : encodeCW { c with triggerMode := .auto } = encodeCW c &&& 0xBF := by
  rw [show (0xBF : Byte) = ~~~0x40 from rfl, triggerMode_mask, encodeCW_and_not_fieldBits]
  simp only [encodeCW_eq_fieldBits, BitVec.not_allOnes, BitVec.not_zero, BitVec.and_allOnes, BitVec.and_zero]
  rfl

theorem encodeCW_realTime (c : AcqConfig) : encodeCW { c with samplingMode := .realTime } = encodeCW c &&& 0x7F := by
  rw [show (0x7F : Byte) = ~~~0x80 from rfl, samplingMode_mask, encodeCW_and_not_fieldBits]
  simp only [encodeCW_eq_fieldBits, BitVec.not_allOnes, BitVec.not_zero, BitVec.and_allOnes, BitVec.and_zero]
  rfl

/-- The two bits of a channel count in their place. -/
theorem fieldBits_channels {k : Nat} (h : k < 4) :
    BitVec.ofNat 8 (16 * k) = fieldBits 0#1 0#1 (BitVec.ofNat 2 k) 0#1 0#3 := by
  apply BitVec.eq_of_toNat_eq
  rw [fieldBits_toNat]
  simp
  omega

theorem encodeCW_channels (c : AcqConfig) {k : Nat} (h : k < 4) :
    encodeCW { c with channelCountMinus1 := BitVec.ofNat 2 k } = (encodeCW c &&& 0xCF) ||| BitVec.ofNat 8 (16 * k) := by
  rw [show (0xCF : Byte) = ~~~0x30 from rfl, channelCount_mask, encodeCW_and_not_fieldBits, fieldBits_channels h, fieldBits_or]
  simp only [encodeCW_eq_fieldBits, BitVec.not_allOnes, BitVec.not_zero, BitVec.and_allOnes, BitVec.and_zero,
    BitVec.or_zero, BitVec.zero_or]

theorem encodeCW_toNat (c : AcqConfig) : (encodeCW c).toNat =
    128 * c.samplingMode.bit.toNat + 64 * c.triggerMode.bit.toNat + 16 * c.channelCountMinus1.toNat +
      8 * c.triggerSlope.bit.toNat + c.prescale.toNat :=
  fieldBits_toNat _ _ _ _ _

/-- A prescale step up inside 0..7 carries into no other field. -/
theorem encodeCW_prescale_succ {c : AcqConfig} (h : c.prescale.toNat < 7) :
    encodeCW { c with prescale := c.prescale + 1 } = encodeCW c + 1 := by
  have hc := encodeCW_toNat c
  apply BitVec.eq_of_toNat_eq
  rw [encodeCW_toNat, BitVec.toNat_add]
  simp
  omega

/-- A prescale step down inside 0..7 borrows from no other field. -/
theorem encodeCW_prescale_pred {c : AcqConfig} (h : 0 < c.prescale.toNat) :
    encodeCW { c with prescale := c.prescale - 1 } = encodeCW c - 1 := by
  have hc := encodeCW_toNat c
  apply BitVec.eq_of_toNat_eq
  rw [encodeCW_toNat, BitVec.toNat_sub]
  simp
  omega

namespace Machine

@[simp] theorem encodeCW_cfg (s : State) : encodeCW s.cfg = s.CFG := encodeCW_decodeCW _

/-- The prescale is the control word's lowest three bits (R92). -/
theorem cfg_prescale (s : State) : s.cfg.prescale.toNat = s.CFG.toNat % 8 := by simp [State.cfg, decodeCW]

/-! ## An accepted and a dropped retune (R240, R241) -/

theorem validConfig_iff {P : Params} {c : AcqConfig} : validConfig P c = true ↔
    (psRange P c.samplingMode).1 ≤ c.prescale.toNat ∧ c.prescale.toNat ≤ (psRange P c.samplingMode).2 := by
  simp [validConfig]

theorem meetLinkError_of_none {s : State} (h : s.env.lerr = false) : meetLinkError s = s := by simp [meetLinkError, h]

theorem exec_retune_of_valid {s : State} {c : AcqConfig} {rows : List (List RealTerm)} (hl : s.env.lerr = false)
    (hs : s.Shows rows) (hv : validConfig s.P c = true) :
    exec (.retune c) s = .next (afterRetune (encodeCW c) rows s) := by
  have hsent : (afterRetune (encodeCW c) rows s).env.lerr = false := hl
  simp only [exec, execRetune, retuneTo, hv, if_true, retuneWrites_ok c hs, andThen_ok, meetLinkError_of_none hsent,
    outcome_ok]

theorem exec_retune_of_invalid {s : State} {c : AcqConfig} (hv : ¬ validConfig s.P c = true) :
    exec (.retune c) s = .next s := by
  simp only [exec, execRetune, retuneTo, if_neg hv, outcome_ok]

/-- Settles O36. -/
theorem retuneSendsAndDesynchronizes : Obligations.RetuneSendsAndDesynchronizes :=
  fun _ _ _ hl hs => ⟨fun hv => exec_retune_of_valid hl hs (validConfig_iff.mpr hv),
    fun hv => exec_retune_of_invalid (validConfig_iff.not.mpr hv)⟩

/-! ## Which configuration a command retunes to (R242, R247) -/

theorem exec_setChannels {s : State} {n : BitVec 4} (h : 1 ≤ n.toNat ∧ n.toNat ≤ 4) :
    exec (.setChannels n) s = exec (.retune { s.cfg with channelCountMinus1 := BitVec.ofNat 2 (n.toNat - 1) }) s := by
  simp only [exec, execSetChannels, withChannels, if_pos h, retuneIf, execRetune]

theorem exec_setChannels_of_out_of_range {s : State} {n : BitVec 4} (h : ¬ (1 ≤ n.toNat ∧ n.toNat ≤ 4)) :
    exec (.setChannels n) s = .next s := by
  simp only [exec, execSetChannels, withChannels, if_neg h, retuneIf, outcome_ok]

theorem ofInt_toNat_succ : ∀ p : BitVec 3, BitVec.ofInt 3 ((p.toNat : Int) + 1) = p + 1 := by decide

theorem ofInt_toNat_pred : ∀ p : BitVec 3, BitVec.ofInt 3 ((p.toNat : Int) + -1) = p - 1 := by decide

theorem withPrescaleStep_up {c : AcqConfig} (h : c.prescale.toNat < 7) :
    withPrescaleStep c .up = some { c with prescale := c.prescale + 1 } := by
  rw [← ofInt_toNat_succ]
  exact if_pos (by simp only [stepValue]; omega)

theorem withPrescaleStep_down {c : AcqConfig} (h : 0 < c.prescale.toNat) :
    withPrescaleStep c .down = some { c with prescale := c.prescale - 1 } := by
  rw [← ofInt_toNat_pred]
  exact if_pos (by simp only [stepValue]; omega)

theorem withPrescaleStep_up_of_max {c : AcqConfig} (h : c.prescale.toNat = 7) : withPrescaleStep c .up = none :=
  if_neg (by simp only [stepValue]; omega)

theorem withPrescaleStep_down_of_min {c : AcqConfig} (h : c.prescale.toNat = 0) : withPrescaleStep c .down = none :=
  if_neg (by simp only [stepValue]; omega)

/-- A prescale step inside the type is the retune to its configuration. -/
theorem exec_stepPrescale {s : State} {d : StepDir} {c : AcqConfig} (h : withPrescaleStep s.cfg d = some c) :
    exec (.stepPrescale d) s = exec (.retune c) s := by
  simp only [exec, execStepPrescale, h, retuneIf, execRetune]

theorem exec_stepPrescale_of_none {s : State} {d : StepDir} (h : withPrescaleStep s.cfg d = none) :
    exec (.stepPrescale d) s = .next s := by
  simp only [exec, execStepPrescale, h, retuneIf, outcome_ok]

theorem toNat_succ_prescale {p : BitVec 3} (h : p.toNat < 7) : (p + 1).toNat = p.toNat + 1 := by bv_omega

theorem toNat_pred_prescale {p : BitVec 3} (h : 0 < p.toNat) : (p - 1).toNat = p.toNat - 1 := by bv_omega

/-- What holds of every command that is a retune to a `VALID` configuration, with the word of that configuration, holds of the five
retune commands with the words of `State.RetuneCommands`. -/
theorem State.retuneCommands_of_retune {s : State} {Q : Instr → Byte → Prop}
    (h : ∀ i c, validConfig s.P c = true → exec i s = exec (.retune c) s → Q i (encodeCW c)) : s.RetuneCommands Q := by
  obtain ⟨hrising, hequivalent, hnormal, -⟩ := fieldChangeTouchesItsMaskOnly s.cfg
  rw [State.RetuneCommands, ← cfg_prescale s, ← encodeCW_cfg s, ← hrising, ← hequivalent, ← hnormal, ← encodeCW_falling,
    ← encodeCW_auto, ← encodeCW_realTime]
  refine ⟨fun hv => ⟨fun n h1 h4 => ?_, ?_⟩, fun hlo hhi => ?_, fun hlo hhi => ?_, fun h7 hlo hhi => ?_, fun h0 hlo hhi => ?_⟩
  · rw [← encodeCW_channels _ (by omega)]
    exact h _ _ (validConfig_iff.mpr hv) (exec_setChannels ⟨h1, h4⟩)
  · have hv := validConfig_iff.mpr hv
    exact ⟨h _ _ hv rfl, h _ _ hv rfl, h _ _ hv rfl, h _ _ hv rfl⟩
  · exact h _ _ (validConfig_iff.mpr ⟨hlo, hhi⟩) rfl
  · exact h _ _ (validConfig_iff.mpr ⟨hlo, hhi⟩) rfl
  · rw [← encodeCW_prescale_succ h7]
    refine h _ _ (validConfig_iff.mpr ?_) (exec_stepPrescale (withPrescaleStep_up h7))
    rw [toNat_succ_prescale h7]
    exact ⟨hlo, hhi⟩
  · rw [← encodeCW_prescale_pred h0]
    refine h _ _ (validConfig_iff.mpr ?_) (exec_stepPrescale (withPrescaleStep_down h0))
    rw [toNat_pred_prescale h0]
    exact ⟨hlo, hhi⟩

/-- Settles O37. -/
theorem retuneCommandsReplaceOneField : Obligations.RetuneCommandsReplaceOneField :=
  fun _ _ hl hs => State.retuneCommands_of_retune fun _ _ hv hi => hi.trans (exec_retune_of_valid hl hs hv)

/-- A prescale below or above the mode's range is not `VALID` (R241). -/
theorem not_validConfig {P : Params} {c : AcqConfig} {n : Nat} (hn : c.prescale.toNat = n)
    (h : n < (psRange P c.samplingMode).1 ∨ (psRange P c.samplingMode).2 < n) : ¬ validConfig P c = true := by
  rw [validConfig_iff]
  omega

/-- Settles O38: each command is a retune to a configuration that is not `VALID`, or has none inside the type. -/
theorem rejectedRetuneDoesNothing : Obligations.RejectedRetuneDoesNothing := by
  intro s
  have hps := cfg_prescale s
  refine ⟨fun n hn => exec_setChannels_of_out_of_range (by omega), fun h => ?_, fun m h => ?_, fun h => ?_, fun h => ?_⟩
  · refine ⟨fun n => ?_, fun e => exec_retune_of_invalid (not_validConfig hps h),
      fun m => exec_retune_of_invalid (not_validConfig hps h)⟩
    by_cases hn : 1 ≤ n.toNat ∧ n.toNat ≤ 4
    · rw [exec_setChannels hn]
      exact exec_retune_of_invalid (not_validConfig hps h)
    · exact exec_setChannels_of_out_of_range hn
  · exact exec_retune_of_invalid (not_validConfig hps h)
  · by_cases h7 : s.cfg.prescale.toNat < 7
    · rw [exec_stepPrescale (withPrescaleStep_up h7)]
      exact exec_retune_of_invalid (not_validConfig ((toNat_succ_prescale h7).trans (by rw [hps])) (h.resolve_left (by omega)))
    · exact exec_stepPrescale_of_none (withPrescaleStep_up_of_max (by omega))
  · by_cases h0 : 0 < s.cfg.prescale.toNat
    · rw [exec_stepPrescale (withPrescaleStep_down h0)]
      exact exec_retune_of_invalid (not_validConfig ((toNat_pred_prescale h0).trans (by rw [hps])) (h.resolve_left (by omega)))
    · exact exec_stepPrescale_of_none (withPrescaleStep_down_of_min (by omega))

end Machine
end Sys2Proof
end

section
/-! The sequencer's other operations: the end of a ready frame, the timeout, the zoom and mode commands, the run mode, the dump and the
halts (R231-R236, R245, R250-R257). -/

namespace Sys2Proof.Machine

/-! ## Frame events (R231, R233) and the timeout (R245) -/

theorem frameEvent_ready {fr : Frame} (h : fr.ready = true) (s : State) :
    frameEvent fr s = frameReady fr { s with CFG := encodeCW fr.config } := if_pos h

/-- Settles O18: EV.FRAME is EV.FRAME.READY after the write of `CFG`. -/
theorem readyFrameReplacesTheTrace : Obligations.ReadyFrameReplacesTheTrace := by
  intro s fr v hcan hd hready hv
  constructor
  · obtain ⟨d, rows, e, hdisplays⟩ := frameReady_ok hcan hd hv
    exact ⟨d, rows, congrArg Answer.outcome e, hdisplays⟩
  · obtain ⟨d, rows, e, hdisplays⟩ := frameReady_ok (s := { s with CFG := encodeCW fr.config }) { hcan with } hd hv
    exact ⟨d, rows, congrArg Answer.outcome ((frameEvent_ready hready s).trans e), hdisplays⟩

theorem afterSync_of_ne {s : State} {new : SyncState} (h : s.SYNC ≠ new) (rows : List (List RealTerm)) :
    afterSync new rows s =
      { s with SYNC := new, out := s.out ++ [.dispout (snapshotWith false rows { s with SYNC := new })] } := by
  simp only [afterSync, if_neg h]

/-- Settles O40: a change of `SYNC` away from `SYNC_READY`, or no change. -/
theorem timeoutMarksTheTraceStale : Obligations.TimeoutMarksTheTraceStale := by
  intro s rows hs
  refine ⟨fun hrun hsync => ?_, fun h => ?_, rfl⟩
  · have hne : s.SYNC ≠ .notReady := by simp [hsync]
    rw [← afterSync_of_ne hne rows]
    exact congrArg Answer.outcome ((if_pos ⟨hrun, hsync⟩).trans (syncTo_shows .notReady hs))
  · exact congrArg Answer.outcome (if_neg h)

/-! ## Zoom and interpolation (R250, R251) -/

theorem reapply_of_off {s : State} (h : (s.P.REAPPLY && s.RAWV) = false) : reapply s = .ok s := by
  simp only [reapply, h, Bool.false_eq_true, if_false]

/-- A zoom power and mode are re-applied to a trace that meets the invariant: the valid rows of `DISP` are resampled and shown, and
its other elements stay. -/
theorem State.Inv.reapply_resampled {s : State} (h : s.Inv) (hk : s.KVALID = true) (hre : s.P.REAPPLY = true) (hr : s.RAWV = true)
    {zp : Nat} (hz : zp ≤ s.P.MAXZP) (m : Interp) :
    ∃ d rows, reapply { s with ZP := zp, INTERP := m } = .ok (afterReapply d rows { s with ZP := zp, INTERP := m }) ∧
      State.Resampled { s with ZP := zp, INTERP := m, DISP := d } ∧ State.Shows { s with DISP := d } rows ∧
      ∀ a, s.NCH * s.P.N ≤ a → d.read a = s.DISP.read a := by
  have hcan := h.canResample hk
  obtain ⟨d, hd, hres, hframe⟩ := resampleAll_ok (s := { s with ZP := zp, INTERP := m }) ⟨hcan.params, hz, hk, hcan.kern⟩ hr
    (h.volt_isSome hr)
  obtain ⟨rows, hrows⟩ := hres.shows hr
  exact ⟨d, rows, reapply_of_shows (s := { s with ZP := zp, INTERP := m }) hre hr hd hrows, hres, hrows, hframe⟩

theorem zoomStep_up_eq_min (maxzp zp : Nat) : zoomStep maxzp zp .up = min maxzp (zp + 1) := by
  simp only [zoomStep, stepValue]
  omega

theorem zoomStep_down_eq_min (maxzp zp : Nat) : zoomStep maxzp zp .down = min maxzp (zp - 1) := by
  simp only [zoomStep, stepValue]
  omega

/-- Settles O41. -/
theorem zoomStepSaturates : Obligations.ZoomStepSaturates := by
  intro s dir
  refine ⟨zoomStep s.P.MAXZP s.ZP dir, ?_, ?_, fun hoff => ?_, fun h hk hre hr => ?_⟩
  · rintro rfl
    exact zoomStep_up_eq_min _ _
  · rintro rfl
    exact zoomStep_down_eq_min _ _
  · exact congrArg Answer.outcome (reapply_of_off (s := { s with ZP := zoomStep s.P.MAXZP s.ZP dir }) hoff)
  · obtain ⟨d, rows, e, hd⟩ := h.reapply_resampled hk hre hr (zoomStep_le _ _ dir) s.INTERP
    exact ⟨d, rows, congrArg Answer.outcome e, hd⟩

/-- Settles O42. -/
theorem setInterpWritesTheMode : Obligations.SetInterpWritesTheMode := by
  intro s m
  refine ⟨fun hoff => ?_, fun h hk hre hr => ?_⟩
  · exact congrArg Answer.outcome (reapply_of_off (s := { s with INTERP := m }) hoff)
  · obtain ⟨d, rows, e, hd⟩ := h.reapply_resampled hk hre hr h.zp_le m
    exact ⟨d, rows, congrArg Answer.outcome e, hd⟩

/-! ## Run mode, dump and halts (R252-R257) -/

theorem exec_toggleRun (s : State) : exec .toggleRun s = .next (if s.RUN then freeze s else thaw s) := rfl

theorem exec_armSingle (s : State) :
    exec .armSingle s = .next (if s.RUN then { s with SSA := true } else thaw { s with SSA := true }) := rfl

/-- Settles O43. -/
theorem runModeCommands : Obligations.RunModeCommands := by
  intro s
  refine ⟨fun h => ?_, fun h => ?_, rfl, fun h => ?_, fun h => ?_, rfl⟩
  · rw [exec_toggleRun, if_pos h]; rfl
  · rw [exec_toggleRun, if_neg (by simp [h])]; rfl
  · rw [exec_armSingle, if_pos h]
  · rw [exec_armSingle, if_neg (by simp [h])]; rfl

/-- ARM_SINGLE leaves the block armed and running, with `RXEN` as R30 has it. -/
theorem exec_armSingle_flags {s a : State} (hx : s.RXEN = s.RUN) (e : exec .armSingle s = .next a) :
    a.SSA = true ∧ a.RUN = true ∧ a.RXEN = true := by
  have hrun := (execArmSingle_control e).run hx
  rw [exec_armSingle, Host.Outcome.next.injEq] at e
  subst e
  split_ifs with h
  · exact ⟨rfl, h, hx.trans h⟩
  · exact ⟨rfl, rfl, rfl⟩

/-- All that a frame event can do (R231-R233). -/
theorem frameEvent_eq_ok {fr : Frame} {s t : State} (e : frameEvent fr s = .ok t) :
    (fr.ready = false ∧ ∃ rows, t = afterSync .notReady rows { s with CFG := encodeCW fr.config }) ∨
    (fr.ready = true ∧ ∃ v d rows, t = afterReady fr.config v d rows { s with CFG := encodeCW fr.config }) := by
  cases hr : fr.ready with
  | true =>
    rw [frameEvent_ready hr] at e
    obtain ⟨v, d, rows, -, -, -, -, rfl⟩ := frameReady_frame e
    exact .inr ⟨rfl, v, d, rows, rfl⟩
  | false =>
    simp only [frameEvent, hr, Bool.false_eq_true, if_false] at e
    obtain ⟨rows, -, rfl⟩ := syncTo_eq_ok e
    exact .inl ⟨rfl, rows, rfl⟩

theorem rx_not_mem_enabled {s : State} (h : s.RXEN = false) (b : Byte) : .rx b ∉ s.enabled := by
  simp [rx_mem_enabled, h]

/-- Settles O44: a frame that is not ready writes no run flag, and a ready one ends the armed sweep. -/
theorem singleSweepFreezesOnce : Obligations.SingleSweepFreezesOnce := by
  intro s a hx e
  obtain ⟨hssa, hrun, hrxen⟩ := exec_armSingle_flags hx e
  refine ⟨hssa, hrun, hrxen, fun fr u hr e => ?_, fun fr t hr e => ?_⟩
  · rcases frameEvent_eq_ok (outcome_eq_next.mp e) with ⟨-, rows, rfl⟩ | ⟨hr', -⟩
    · exact ⟨hssa, hrun, hrxen⟩
    · exact absurd (hr.symm.trans hr') Bool.false_ne_true
  · rcases frameEvent_eq_ok (outcome_eq_next.mp e) with ⟨hr', -⟩ | ⟨-, v, d, rows, rfl⟩
    · exact absurd (hr'.symm.trans hr) Bool.false_ne_true
    · have hfrozen : (a.RXEN && !a.SSA) = false := by simp [hssa]
      exact ⟨by simp [afterReady, hssa], rfl, hfrozen, rfl, rx_not_mem_enabled hfrozen⟩

/-- Settles O45. -/
theorem dumpCarriesTheRawRows : Obligations.DumpCarriesTheRawRows := by
  intro s
  refine ⟨fun h => ?_, fun rows h hrows => ?_⟩
  · rw [exec, execDumpRaw, h]
    rfl
  · rw [exec, execDumpRaw, if_pos h, hrows]
    rfl

/-- A halted block takes no event (R46, R296). -/
theorem enabled_of_halted {s : State} (h : s.HALT ≠ .none) : s.enabled = [] := by
  have hawake : s.awake = false := by simp [State.awake, h]
  simp [enabled_eq_nil, State.rxOffer, State.cmdOffer, State.lerrOffer, State.tmoOffer, hawake]

/-- Settles O46. -/
theorem quitAndLinkErrorHalt : Obligations.QuitAndLinkErrorHalt := by
  intro s
  refine ⟨rfl, rfl, ?_⟩
  rintro t (e | e) <;> cases e <;> exact enabled_of_halted nofun

end Sys2Proof.Machine
end

section
/-! What a step without a reset can do to `SYNC` (R237), and to `ZP` and `INTERP` (R249). -/

namespace Sys2Proof.Machine

theorem commandWord_div (op arg : BitVec 4) : (commandWord op arg).toNat / 16 = op.toNat := by
  rw [commandWord, toNat_append_eq_add]
  omega

/-- The five retune commands have `OP` 1 to 5 (R102). -/
theorem encode_of_isRetune {i : Instr} (h : IsRetune i) :
    ∃ op arg, encode i = some (commandWord op arg) ∧ 1 ≤ op.toNat ∧ op.toNat ≤ 5 := by
  rcases h with ⟨n, rfl⟩ | ⟨e, rfl⟩ | ⟨m, rfl⟩ | ⟨m, rfl⟩ | ⟨d, rfl⟩ <;> exact ⟨_, _, rfl, by decide, by decide⟩

theorem IsRetune.word_range {w : Byte} (h : IsRetune (decodeCmd w)) : 1 ≤ w.toNat / 16 ∧ w.toNat / 16 ≤ 5 := by
  obtain ⟨op, arg, henc, hrange⟩ := encode_of_isRetune h
  obtain rfl : w = commandWord op arg := Option.some.inj ((encode_decodeCmd w).symm.trans henc)
  rwa [commandWord_div]

/-- Of the received bytes only the one that ends a frame writes `SYNC` (R232, R233). -/
theorem ReceiveEffect.sync_change {s u t : State} {b : Byte} (h : ReceiveEffect s b u t) (hne : t.SYNC ≠ u.SYNC) :
    (t.SYNC = .ready ∧ s.FS = .payload ∧ t.FS = .idle) ∨ (t.SYNC = .notReady ∧ s.FS = .flag ∧ t.FS = .idle) := by
  cases h with
  | skip _ _ h | sync _ _ h | ctrl _ h | flag1 _ _ h | data _ _ _ _ h _ => exact absurd (congrArg State.SYNC h) hne
  | notReady rows hf _ h => subst h; exact .inr ⟨rfl, hf, rfl⟩
  | last v d rows hf _ _ _ h => subst h; exact .inl ⟨rfl, hf, rfl⟩

/-- Settles O52, by cases on what the step can do. -/
theorem syncChangesOnlyByItsTable : Obligations.SyncChangesOnlyByItsTable := by
  intro s t hr e hne
  cases step_effect hr e with
  | wait h | linkError n _ h | timeoutIgnored n h => exact absurd (congrArg State.SYNC h) hne
  | command w n _ hf hw c =>
    obtain ⟨hunsync, hi⟩ := c.sync hne
    exact .inr (.inr (.inl ⟨hunsync, hf, w, hw, hi.word_range⟩))
  | received b n _ _ _ c =>
    rcases c.sync_change hne with h | h
    · exact .inl h
    · exact .inr (.inl h)
  | timeout n rows hf htmo hrun hready h =>
    exact .inr (.inr (.inr ⟨congrArg State.SYNC h, hready, hrun, hf, htmo⟩))

/-- No received byte writes the zoom power or the mode. -/
theorem ReceiveEffect.zoom {s u t : State} {b : Byte} (h : ReceiveEffect s b u t) : t.ZP = u.ZP ∧ t.INTERP = u.INTERP := by
  cases h <;> subst t <;> exact ⟨rfl, rfl⟩

/-- Without a reset on offer only a command taken at the head of the queue writes the zoom power or the mode. -/
theorem StepEffect.zoom {s t : State} (h : StepEffect s t) :
    (t.ZP = s.ZP ∧ t.INTERP = s.INTERP) ∨ ∃ w n, s.env.cmd.head? = some w ∧
      CommandEffect (decodeCmd w) { s with env := { s.env with cmd := s.env.cmd.tail }, free := n } t := by
  cases h with
  | wait h | linkError n _ h | timeoutIgnored n h | timeout n rows _ _ _ _ h => subst h; exact .inl ⟨rfl, rfl⟩
  | received b n _ _ _ c => exact .inl c.zoom
  | command w n _ _ hw c => exact .inr ⟨w, n, hw, c⟩

/-- Settles O56. -/
theorem zoomStateHasOnlyItsCommands : Obligations.ZoomStateHasOnlyItsCommands := by
  intro s t hr e
  rcases (step_effect hr e).zoom with ⟨hzp, hinterp⟩ | ⟨w, n, hw, c⟩
  · exact ⟨fun h => absurd hzp h, fun h => absurd hinterp h, fun h => absurd ⟨hzp, hinterp⟩ (not_and_or.mpr h)⟩
  · obtain ⟨-, -, -, -, hraw, hvolt, -⟩ := c.same
    refine ⟨fun h => ⟨w, hw, decodeCmd_stepZoom w (c.zp h)⟩, fun h => ⟨w, hw, decodeCmd_setInterp w (c.interp h)⟩, fun h => ?_⟩
    obtain ⟨hcfg, hsync, hrun, hssa, hrxen⟩ := c.zoom h
    exact ⟨hcfg, hsync, hrun, hssa, hrxen, hraw, hvolt⟩

end Sys2Proof.Machine
end

section
/-! The step of a running block under any arbitration (R289), the step of a halted one (R296), and a retune with a link error on offer
(R283). -/

namespace Sys2Proof.Machine

/-! ## The step of a running and of a halted block -/

/-- With an event enabled, a step runs the operation of an enabled one, whatever the arbiter's value is (R289). -/
theorem step_of_enabled {s : State} (hr : s.env.rst = none) (hh : s.HALT = .none) (he : s.enabled ≠ []) :
    ∃ e ∈ s.enabled, ∃ n, step s = exec (select e s.FS) (consume e { s with free := n }) := by
  obtain ⟨⟨e, n⟩, hc⟩ := Option.isSome_iff_exists.mp (choose_isSome he)
  refine ⟨e, choose_eq_some hc, n, ?_⟩
  simp only [step, fetch, hr, hh, hc]

/-- Settles O11. -/
theorem everyStepTakesAnEnabledEvent : Obligations.EveryStepTakesAnEnabledEvent :=
  fun _ => step_of_enabled

/-- Settles O13: without a reset the fetch looks at `HALT` alone. -/
theorem haltedBlockTakesOnlyReset : Obligations.HaltedBlockTakesOnlyReset := by
  intro s hr
  refine ⟨fun h => ?_, fun h => ?_, fun h => ?_⟩ <;> simp only [step, fetch, hr, h]

/-! ## A link error at the `TX` write (R283) -/

/-- A retune to a `VALID` configuration writes, and then meets the link error that may be on offer (R240, R283). -/
theorem exec_retune_of_shows {s : State} {c : AcqConfig} {rows : List (List RealTerm)} (hs : s.Shows rows)
    (hv : validConfig s.P c = true) :
    exec (.retune c) s = .next (meetLinkError (afterRetune (encodeCW c) rows s)) := by
  simp only [exec, execRetune, retuneTo, hv, if_true, retuneWrites_ok c hs, andThen_ok, outcome_ok]

/-- With `RXEN = 0` the error has waited for this write, and the block halts (log entry 14). -/
theorem meetLinkError_of_rxen_false {s : State} (hl : s.env.lerr = true) (hx : s.RXEN = false) :
    meetLinkError s = halt .link { s with env := { s.env with lerr := false } } := by
  simp [meetLinkError, hl, hx]

/-- With `RXEN = 1` the block halts, or the error stays on offer (log entry 14). -/
theorem meetLinkError_of_rxen {s : State} (hl : s.env.lerr = true) (hx : s.RXEN = true) :
    meetLinkError s = halt .link { s with env := { s.env with lerr := false }, free := s.free + 1 } ∨
    meetLinkError s = { s with free := s.free + 1 } := by
  simp only [meetLinkError, hl, hx, if_true]
  exact ite_eq_or_eq _ _ _

/-- What is a retune to a `VALID` configuration sends its word under the link error on offer. -/
theorem sendsUnderLinkError_of_retune {s : State} {rows : List (List RealTerm)} (hl : s.env.lerr = true) (hs : s.Shows rows)
    {i : Instr} {c : AcqConfig} (hv : validConfig s.P c = true) (hi : exec i s = exec (.retune c) s) :
    s.SendsUnderLinkError rows i (encodeCW c) := by
  rw [State.SendsUnderLinkError, hi, exec_retune_of_shows hs hv]
  refine ⟨fun hx => congrArg _ (meetLinkError_of_rxen_false hl hx), fun hx => ?_⟩
  exact (meetLinkError_of_rxen (s := afterRetune (encodeCW c) rows s) hl hx).imp (congrArg _) (congrArg _)

/-- Settles O39: the five commands are retunes, and a retune meets the error or leaves it on offer. -/
theorem retuneMayMeetALinkError : Obligations.RetuneMayMeetALinkError :=
  fun _ _ hl hs => ⟨fun _ hv => sendsUnderLinkError_of_retune hl hs hv rfl,
    State.retuneCommands_of_retune fun _ _ => sendsUnderLinkError_of_retune hl hs⟩

end Sys2Proof.Machine
end

section
/-! No step faults under the invariant (R285, R286): every operation that a step can run answers, as every element it reads holds a
value. -/

namespace Sys2Proof.Machine

/-! ## Commands and the timeout -/

/-- The trace of a state that meets the invariant can be shown (R37). -/
theorem State.Inv.shows {s : State} (h : s.Inv) : ∃ rows, s.Shows rows := by
  cases hr : s.RAWV with
  | false => exact ⟨[], by simp [State.Shows, hr]⟩
  | true =>
    simp only [State.Shows, hr, if_true]
    refine Option.isSome_iff_exists.mp (Memory.readRows_isSome_of_read fun a ha => ?_)
    rw [Memory.read_isSome h.disp_wf, h.disp_held, if_pos hr, List.mem_range]
    exact ha

theorem State.Inv.retune_answers {s : State} (h : s.Inv) (c : AcqConfig) : ∃ t, exec (.retune c) s = .next t := by
  obtain ⟨rows, hs⟩ := h.shows
  by_cases hv : validConfig s.P c = true
  · exact ⟨_, exec_retune_of_shows hs hv⟩
  · exact ⟨_, exec_retune_of_invalid hv⟩

theorem State.Inv.setChannels_answers {s : State} (h : s.Inv) (n : BitVec 4) : ∃ t, exec (.setChannels n) s = .next t := by
  by_cases hn : 1 ≤ n.toNat ∧ n.toNat ≤ 4
  · rw [exec_setChannels hn]
    exact h.retune_answers _
  · exact ⟨s, exec_setChannels_of_out_of_range hn⟩

theorem State.Inv.stepPrescale_answers {s : State} (h : s.Inv) (d : StepDir) : ∃ t, exec (.stepPrescale d) s = .next t := by
  cases hc : withPrescaleStep s.cfg d with
  | none => exact ⟨s, exec_stepPrescale_of_none hc⟩
  | some c =>
    rw [exec_stepPrescale hc]
    exact h.retune_answers c

theorem State.Inv.reapply_answers {s : State} (h : s.Inv) (hk : s.KVALID = true) {zp : Nat} (hz : zp ≤ s.P.MAXZP) (m : Interp) :
    ∃ t, Answer.outcome (reapply { s with ZP := zp, INTERP := m }) = .next t := by
  cases hb : s.P.REAPPLY && s.RAWV with
  | false => exact ⟨_, congrArg Answer.outcome (reapply_of_off (s := { s with ZP := zp, INTERP := m }) hb)⟩
  | true =>
    obtain ⟨hre, hr⟩ := Bool.and_eq_true_iff.mp hb
    obtain ⟨d, rows, e, -⟩ := h.reapply_ok hk hre hr hz m
    exact ⟨_, congrArg Answer.outcome e⟩

theorem State.Inv.dumpRaw_answers {s : State} (h : s.Inv) : ∃ t, exec .dumpRaw s = .next t := by
  obtain ⟨hempty, hdump⟩ := dumpCarriesTheRawRows s
  cases hr : s.RAWV with
  | false => exact ⟨s, hempty hr⟩
  | true =>
    have hheld := h.raw_held
    rw [if_pos hr] at hheld
    have hread : ∀ a < s.NCH * s.P.N, (s.RAW.read a).isSome := fun a ha => by
      rwa [Memory.read_isSome (Memory.wf_of_addresses_range hheld), hheld, List.mem_range]
    obtain ⟨rows, hrows⟩ := Option.isSome_iff_exists.mp (Memory.readRows_isSome_of_read hread)
    exact ⟨_, hdump rows hr hrows⟩

/-- Every command answers (R102). -/
theorem State.Inv.command_answers {s : State} (h : s.Inv) (hk : s.KVALID = true) {i : Instr} (hi : .cmd ∈ i.contexts) :
    ∃ t, exec i s = .next t := by
  cases i <;> simp only [Instr.contexts, List.mem_cons, List.not_mem_nil, or_false, reduceCtorEq] at hi
  case setChannels n => exact h.setChannels_answers n
  case stepPrescale d => exact h.stepPrescale_answers d
  case setSlope | setTrigMode | setSampMode => exact h.retune_answers _
  case stepZoom d => exact h.reapply_answers hk (zoomStep_le _ _ d) s.INTERP
  case setInterp m => exact h.reapply_answers hk h.zp_le m
  case dumpRaw => exact h.dumpRaw_answers
  case toggleRun | armSingle | quit | cmdReserved => exact ⟨_, rfl⟩

/-- A timeout answers (R245). -/
theorem State.Inv.timeout_answers {s : State} (h : s.Inv) : ∃ t, exec .evTimeout s = .next t := by
  obtain ⟨rows, hs⟩ := h.shows
  obtain ⟨hready, hother, -⟩ := timeoutMarksTheTraceStale s rows hs
  by_cases hc : s.RUN = true ∧ s.SYNC = .ready
  · obtain ⟨hrun, hsync⟩ := hc
    exact ⟨_, hready hrun hsync⟩
  · exact ⟨_, hother hc⟩

/-! ## Received bytes -/

/-- After a stored byte the position moves or the frame ends, which answers because every byte of the frame has been staged (R149,
R150). -/
theorem advancePosition_answers {s : State} (hcan : s.CanResample) (hd : s.DISP.wf)
    (hci : s.CI.toNat < (decodeCW s.FCW).channelCount) (hsi : s.SI < s.P.N)
    (hheld : s.FBUF.map Prod.fst = List.range (s.CI.toNat * s.P.N + s.SI + 1)) :
    ∃ t, Answer.outcome (advancePosition s) = .next t := by
  by_cases hsample : s.SI < s.P.N - 1
  · exact ⟨_, congrArg Answer.outcome (advancePosition_nextSample hsample)⟩
  by_cases hchannel : s.CI.toNat + 1 < (decodeCW s.FCW).channelCount
  · exact ⟨_, congrArg Answer.outcome (advancePosition_nextChannel hsample hchannel)⟩
  have hfull : s.CI.toNat * s.P.N + s.SI + 1 = (decodeCW s.FCW).channelCount * s.P.N := by
    rw [show (decodeCW s.FCW).channelCount = s.CI.toNat + 1 by omega, Nat.succ_mul]
    omega
  obtain ⟨-, hemit⟩ := readyFrameIsEmitted s s.FCW
  obtain ⟨v, d, rows, -, -, e, -⟩ := hemit hcan hd fun a ha => by
    rwa [Memory.read_isSome (Memory.wf_of_addresses_range hheld), hheld, List.mem_range, hfull]
  exact ⟨_, (congrArg Answer.outcome (advancePosition_frameEnd hsample hchannel)).trans e⟩

/-- A payload byte answers (R149). -/
theorem State.Inv.rxData_answers {s : State} (h : s.Inv) (hk : s.KVALID = true) (hf : s.FS = .payload) (b : Byte) :
    ∃ t, exec (.rxData b) s = .next t := by
  obtain ⟨hci, hsi⟩ := h.position hf
  have hheld := h.fbuf_held
  rw [if_pos hf] at hheld
  rw [exec_rxData hsi]
  exact advancePosition_answers { h.canResample hk with } h.disp_wf hci hsi (Memory.addresses_write_next hheld b)

/-- Every received byte answers (R99). -/
theorem State.Inv.received_answers {s : State} (h : s.Inv) (hk : s.KVALID = true) (b : Byte) :
    ∃ t, exec (decodeRx s.FS b) s = .next t := by
  cases hf : s.FS <;> simp only [decodeRx]
  case idle | hunt => split <;> exact ⟨_, rfl⟩
  case ctrl => exact ⟨_, rfl⟩
  case flag =>
    obtain ⟨rows, hs⟩ := h.shows
    obtain ⟨-, hflag0, hflagX, -⟩ := notReadyFrameEnds s rows hs
    split
    · exact ⟨_, hflag0⟩
    · split
      · exact ⟨_, rfl⟩
      · exact ⟨_, hflagX b⟩
  case payload => exact h.rxData_answers hk hf b

/-! ## The step -/

/-- Every event answers, whatever the counter is (R46). -/
theorem State.Inv.event_answers {s : State} {ev : Event} {n : Nat} (h : s.Inv) (hk : s.KVALID = true) :
    ∃ t, exec (select ev s.FS) (consume ev { s with free := n }) = .next t := by
  have hu : (consume ev { s with free := n }).Inv := h.after_control (consume_control ev n s) (.inr (by simp))
  have hk' : (consume ev { s with free := n }).KVALID = true := by simpa using hk
  cases ev with
  | rx b => exact hu.received_answers hk' b
  | cmd w => exact hu.command_answers hk' (decodeCmd_context w)
  | lerr => exact ⟨_, rfl⟩
  | tmo => exact hu.timeout_answers

/-- Settles O51, by why the block is live: a reset on offer, no halt, or the halt of QUIT. -/
theorem stepNeverFaultsUnderTheInvariant : Obligations.StepNeverFaultsUnderTheInvariant := by
  intro s h hlive
  cases hr : s.env.rst with
  | some cd => exact ⟨_, step_of_reset hr⟩
  | none =>
    rcases hlive with hreset | hh | hquit
    · simp [hr] at hreset
    · by_cases he : s.enabled = []
      · exact ⟨s, step_of_none hr hh he⟩
      · obtain ⟨ev, -, n, e⟩ := step_of_enabled hr hh he
        rw [e]
        exact h.event_answers (h.kvalid hh)
    · obtain ⟨-, -, hq⟩ := haltedBlockTakesOnlyReset s hr
      exact ⟨s, hq hquit⟩

end Sys2Proof.Machine
end

section
/-! The bounds of the real values (R286): a display value is not far from its channel's first voltage, in either mode and at any zoom
power. -/

namespace Sys2Proof

/-- A map of the values read element by element. -/
theorem Memory.read_map {α β : Type} (f : α → β) (m : Memory α) (a : Nat) :
    Memory.read (m.map fun e => (e.1, f e.2)) a = (m.read a).map f := by
  induction m with
  | nil => rfl
  | cons e m ih =>
    obtain ⟨b, v⟩ := e
    rw [List.map_cons, Memory.read_cons, Memory.read_cons, ih]
    split_ifs <;> rfl

/-- A voltage lies between the two ends of the range (R171). -/
theorem toVolt_mem_Icc {vmin vmax : ℝ} (h : vmin ≤ vmax) (raw : Byte) :
    (RealTerm.toVolt raw).toReal vmin vmax ∈ Set.Icc vmin vmax := by
  have hraw : (raw.toNat : ℝ) / 255 ≤ 1 := by
    rw [div_le_one (by norm_num)]
    exact_mod_cast Nat.le_of_lt_succ raw.isLt
  rw [toVolt_toReal, ← Set.uIcc_of_le h]
  exact add_sub_mul_mem_uIcc _ _ (by positivity) hraw

/-- ILIN leaves no interval that holds its inputs (R204). -/
theorem ilin_mem_Icc {N p : Nat} {v o : List RealTerm} (hz : N / 2 ^ p * 2 ^ p = N) (hv : v.length = N)
    (h : ilin N (2 ^ p) v = some o) {vmin vmax a b : ℝ} (hb : ∀ i < N, valueAt vmin vmax v i ∈ Set.Icc a b) {j : Nat}
    (hj : j < N) : valueAt vmin vmax o j ∈ Set.Icc a b := by
  have hl : j % 2 ^ p < 2 ^ p := Nat.mod_lt _ (Nat.two_pow_pos p)
  have hk : j / 2 ^ p < N / 2 ^ p := (Nat.div_lt_iff_lt_mul (Nat.two_pow_pos p)).mpr (hz.symm ▸ hj)
  obtain ⟨hin, hnext⟩ := ilin_index hz hj
  have hval := ilin_value (vmin := vmin) (vmax := vmax) hz hv h hk hl
  rw [Nat.div_add_mod'] at hval
  rw [hval]
  by_cases h0 : j % 2 ^ p = 0
  · simpa [h0] using hb _ hin
  · have hl1 : ((j % 2 ^ p : ℕ) : ℝ) / 2 ^ p ≤ 1 := by
      rw [div_le_one (by positivity)]
      exact_mod_cast hl.le
    exact Set.uIcc_subset_Icc (hb _ hin) (hb _ (hnext h0)) (add_sub_mul_mem_uIcc _ _ (by positivity) hl1)

namespace Machine

theorem abs_kernelEntry_le_one (vmin vmax : ℝ) (p r m : Nat) : |(kernelEntry p r m).toReal vmin vmax| ≤ 1 := by
  rw [kernelEntry_toReal]
  exact abs_sincExact_le_one _

/-- From inputs in an interval ISINC gives no output further from the first input than `N` times the interval's length: each of
its `N` terms is at most that length, as a kernel weight is at most 1 (R205, R286). -/
theorem abs_isinc_sub_le {P : Params} {p : Nat} {v o : List RealTerm} (hP : P.Valid) (hp : p ≤ P.MAXZP) (hv : v.length = P.N)
    (h : isinc P.N p (fun r => (kernelTable P).readN ((p * P.N + r) * P.N) P.N) v = some o) {vmin vmax a b : ℝ}
    (hb : ∀ i < P.N, valueAt vmin vmax v i ∈ Set.Icc a b) {j : Nat} (hj : j < P.N) :
    |valueAt vmin vmax o j - valueAt vmin vmax v 0| ≤ P.N * (b - a) := by
  have hterm : ∀ m ∈ Finset.range P.N,
      |(valueAt vmin vmax v m - valueAt vmin vmax v 0) * (kernelEntry p j m).toReal vmin vmax| ≤ b - a := by
    intro m hm
    have hdiff : |valueAt vmin vmax v m - valueAt vmin vmax v 0| ≤ b - a :=
      Real.dist_le_of_mem_Icc (hb m (Finset.mem_range.mp hm)) (hb 0 (by omega))
    rw [abs_mul]
    exact (mul_le_of_le_one_right (abs_nonneg _) (abs_kernelEntry_le_one _ _ _ _ _)).trans hdiff
  rw [isinc_kernelTable_value hP hp hv h vmin vmax hj, add_sub_cancel_left]
  calc _ ≤ ∑ m ∈ Finset.range P.N,
        |(valueAt vmin vmax v m - valueAt vmin vmax v 0) * (kernelEntry p j m).toReal vmin vmax| :=
        Finset.abs_sum_le_sum_abs _ _
    _ ≤ (Finset.range P.N).card • (b - a) := Finset.sum_le_card_nsmul _ _ _ hterm
    _ = P.N * (b - a) := by rw [Finset.card_range, nsmul_eq_mul]

/-- The same bound for both modes: ILIN's outputs do not even leave the interval. -/
theorem abs_interpolator_sub_le {P : Params} {mode : Interp} {p : Nat} {v o : List RealTerm} (hP : P.Valid) (hp : p ≤ P.MAXZP)
    (hv : v.length = P.N) (h : interpolator P mode p v = some o) {vmin vmax a b : ℝ}
    (hb : ∀ i < P.N, valueAt vmin vmax v i ∈ Set.Icc a b) {j : Nat} (hj : j < P.N) :
    |valueAt vmin vmax o j - valueAt vmin vmax v 0| ≤ P.N * (b - a) := by
  cases mode with
  | sinc => exact abs_isinc_sub_le hP hp hv h hb hj
  | linear =>
    obtain ⟨ha0, h0b⟩ := hb 0 (by omega)
    have hdiff : |valueAt vmin vmax o j - valueAt vmin vmax v 0| ≤ b - a :=
      Real.dist_le_of_mem_Icc (ilin_mem_Icc (hP.zoom_divides hp) hv h hb hj) ⟨ha0, h0b⟩
    have hN : (1 : ℝ) ≤ P.N := by exact_mod_cast Nat.one_le_of_lt hj
    exact hdiff.trans (le_mul_of_one_le_left (sub_nonneg.mpr (ha0.trans h0b)) hN)

/-- Under the invariant every element of `VOLT` is a voltage in range (R51 h). -/
theorem State.Inv.volt_mem_Icc {s : State} (h : s.Inv) {vmin vmax : ℝ} (hle : vmin ≤ vmax) {a : Nat} {x : RealTerm}
    (hx : s.VOLT.read a = some x) : x.toReal vmin vmax ∈ Set.Icc vmin vmax := by
  rw [h.volt, Memory.read_map, Option.map_eq_some_iff] at hx
  obtain ⟨raw, -, rfl⟩ := hx
  exact toVolt_mem_Icc hle raw

/-- Settles O35: the trace was resampled in some mode at some zoom power, and the bound holds in each. -/
theorem realsAreBounded : Obligations.RealsAreBounded := by
  rintro k ⟨hlt, -⟩
  have hle := hlt.le
  refine ⟨abs_kernelEntry_le_one _ _, fun raw => ?_, fun s h hr c hc j hj => ?_⟩
  · obtain ⟨hlo, hhi⟩ := toVolt_mem_Icc hle raw
    exact abs_le_max_abs_abs hlo hhi
  · obtain ⟨mode, p, hp, hdisp, -⟩ := h.disp_value hr
    obtain ⟨v, o, hv, ho, hd⟩ := hdisp c hc
    obtain ⟨hvl, hvget⟩ := (Memory.readN_eq_some _ _ _ _).mp hv
    obtain ⟨hol, hoget⟩ := (Memory.readN_eq_some _ _ _ _).mp hd
    have hvolt : ∀ i < s.P.N, valueAt k.VMIN k.VMAX v i ∈ Set.Icc k.VMIN k.VMAX := fun i hi => by
      have hi' : v[i]? = some v[i] := List.getElem?_eq_getElem (hvl.symm ▸ hi)
      rw [valueAt_of_getElem? hi']
      exact h.volt_mem_Icc hle ((hvget i hi).trans hi')
    have hx : o[j]? = some o[j] := List.getElem?_eq_getElem (hol.symm ▸ hj)
    have hx0 : v[0]? = some v[0] := List.getElem?_eq_getElem (by omega)
    have hbound := abs_interpolator_sub_le h.params hp hvl ho hvolt hj
    rw [valueAt_of_getElem? hx, valueAt_of_getElem? hx0] at hbound
    refine ⟨o[j], v[0], (hoget j hj).trans hx, (hvget 0 (by omega)).trans hx0, ?_⟩
    linarith [abs_sub_abs_le_abs_sub (o[j].toReal k.VMIN k.VMAX) (v[0].toReal k.VMIN k.VMAX)]

end Machine
end Sys2Proof
end

section
/-! The reset: the whole next state of both outcomes (R310-R312), and the values it leaves (R50, R313). -/

namespace Sys2Proof.Machine

/-- Settles O47: the next states of a successful and of a failed reset. -/
theorem resetSequence : Obligations.ResetSequence :=
  fun s _ _ => ⟨execEvReset_success s, fun h => execEvReset_failure h s⟩

/-- Settles O48: the registers and files are those of `State.resetWith`, in which the kernels are KBUILD's table; a failure differs
from it in `KVALID`, `KERN` and the halt. -/
theorem resetLeavesTheStatedValues : Obligations.ResetLeavesTheStatedValues := by
  intro s chanOk dispOk
  cases hok : chanOk && dispOk
  · refine ⟨_, execEvReset_failure hok s, rfl, rfl, rfl, rfl, rfl, rfl, rfl, rfl, rfl, fun _ => ⟨rfl, rfl, rfl, rfl⟩,
      fun hc hd => ?_, fun _ => ⟨rfl, rfl, fun _ => rfl⟩⟩
    rw [hc, hd] at hok
    exact absurd hok (by decide)
  · obtain ⟨rfl, rfl⟩ := Bool.and_eq_true_iff.mp hok
    refine ⟨_, execEvReset_success s, rfl, rfl, rfl, rfl, rfl, rfl, rfl, rfl, rfl, fun _ => ⟨rfl, rfl, rfl, rfl⟩,
      fun _ _ => ⟨rfl, rfl, rfl, rfl, fun p hp r hr m hm => ?_⟩, fun h => ?_⟩
    · exact ⟨kernelEntry p r m, kernelTable_read hp hr hm, fun vmin vmax => kernelEntry_toReal vmin vmax p r m⟩
    · exact absurd h (by decide)

end Sys2Proof.Machine
end
